-- ==== Sys2Proof/Word.lean ====
section
/-! DEFINITION. The word types of 00_scope R9: bytes, nibbles, `i16`/`u16` and `f32` bit patterns. -/

namespace Sys2Proof

/-- A byte, 8 bits (R9). -/
abbrev Byte := BitVec 8

/-- A 4-bit ADPCM code, `u4` (R9, R85). -/
abbrev Nibble := BitVec 4

/-- An `i16`: 16 bits in two's complement, read with `BitVec.toInt` (R9, R10 `sext_16`). -/
abbrev Sample := BitVec 16

/-- A `u16`, read with `BitVec.toNat` (R9). -/
abbrev U16 := BitVec 16

/-- An `f32`: an IEEE 754 binary32 value given by its 32 bits (R9). -/
abbrev F32 := BitVec 32

/-- The 32-bit operand `din` and result `dout` of the command boundary (R95). -/
abbrev W32 := BitVec 32

end Sys2Proof
end

