-- ==== Sys2Proof/Config.lean ====
section
/-! DEFINITION. The constants of 00_scope R7, the parameters of 00_scope R8, the two codec tables
(40_adpcm_codec R120, R121) and the free values (`draw`, 00_scope R12). An OPEN parameter and a free value
is an opaque constant: no proof can see which value it has. -/

namespace Sys2Proof

/-- The sources of frames, each with a queue of its own (R15, R29). -/
inductive Src where
  | aud
  | thm
  | btn
  | dbg
  deriving DecidableEq, Repr

end Sys2Proof

namespace Sys2Proof.Config

/-! ## Constants fixed by the source (R7) -/

/-- `SAMPLES_PER_PACKET` (R7). -/
def samplesPerPacket : Nat := 118
/-- `PAYLOAD_BYTES` (R7). -/
def payloadBytes : Nat := 59
/-- `AUDIO_FRAME_BYTES` (R7). -/
def audioFrameBytes : Nat := 66
/-- `THERMAL_PIXELS` (R7). -/
def thermalPixels : Nat := 768
/-- `THERMAL_FRAME_BYTES` (R7). -/
def thermalFrameBytes : Nat := 1538
/-- `STEP_TABLE_LEN` (R7). -/
def stepTableLen : Nat := 89
/-- `INDEX_TABLE_LEN` (R7). -/
def indexTableLen : Nat := 16
/-- `STEP_INDEX_MAX` (R7). -/
def stepIndexMax : Nat := 88
/-- `PCM_MIN` (R7). -/
def pcmMin : Int := -32768
/-- `PCM_MAX` (R7). -/
def pcmMax : Int := 32767
/-- `SEQ_MOD` (R7). -/
def seqMod : Nat := 65536
/-- `TEMP_MIN` (R7). -/
def tempMin : Nat := 0
/-- `TEMP_MAX` (R7). -/
def tempMax : Nat := 40
/-- `TEMP_SCALE` (R7). -/
def tempScale : Nat := 10
/-- `Q_MAX` (R7). -/
def qMax : Nat := 400
/-- `SYNC` (R7). -/
def sync : Byte := 0xCA
/-- `TYPE_THERMAL` (R7). -/
def typeThermal : Byte := 0x01
/-- `TYPE_AUDIO` (R7). -/
def typeAudio : Byte := 0x02
/-- `BUTTON_MAX` (R7). -/
def buttonMax : Nat := 2
/-- The length of the second-generation frame (R92), the longest fixed frame of the table. -/
def legacyFrameBytes : Nat := 1539

/-! ## Tables (R120, R121), the parameters `StepTable` and `IndexTable` of R8 -/

/-- `StepTable[0..88]` (R120). -/
def stepTable : List Nat :=
  [7, 8, 9, 10, 11, 12, 13, 14, 16, 17] ++
  [19, 21, 23, 25, 28, 31, 34, 37, 41, 45] ++
  [50, 55, 60, 66, 73, 80, 88, 97, 107, 118] ++
  [130, 143, 157, 173, 190, 209, 230, 253, 279, 307] ++
  [337, 371, 408, 449, 494, 544, 598, 658, 724, 796] ++
  [876, 963, 1060, 1166, 1282, 1411, 1552, 1707, 1878, 2066] ++
  [2272, 2499, 2749, 3024, 3327, 3660, 4026, 4428, 4871, 5358] ++
  [5894, 6484, 7132, 7845, 8630, 9493, 10442, 11487, 12635, 13899] ++
  [15289, 16818, 18500, 20350, 22385, 24623, 27086, 29794, 32767]

/-- `IndexTable[0..15]` (R121). -/
def indexTable : List Int :=
  [-1, -1, -1, -1, 2, 4, 6, 8, -1, -1, -1, -1, 2, 4, 6, 8]

/-! ## Parameters with a value (R8; log 9) -/

/-- The two arithmetics of `temp * 10` (R154). -/
inductive QMul where
  | exact
  | binary32
  deriving DecidableEq, Repr

/-- The integrity check of R8: `none` is its only value. -/
inductive Integrity where
  | noCheck
  deriving DecidableEq, Repr

/-- The values of `GAP_THRESHOLD`, 0..32768 (R8, R232). HOST runs at the value that it holds (log 18). -/
abbrev GapThreshold := Fin 32769
/-- The default of `GAP_THRESHOLD` (R8, R232). -/
def gapThresholdDefault : GapThreshold := ⟨1000, by decide⟩
/-- A configured `Trend` (R8, R238): for an `M` that it lists, the weights `Trend(0, M)` to `Trend(M, M)` as numerators over
their common denominator. At any other `M` the trend is smoothstep. HOST runs at the value that it holds (log 18). -/
abbrev Trend := List (Nat × List Nat)
/-- The value this spec takes for `Trend`: smoothstep at every `M` (R8, R238). -/
def trendDefault : Trend := []
/-- `DELTA_BASE` (R8): the reconstructed delta includes `step >> 3`. -/
def deltaBase : Bool := true
/-- `QMUL` (R8). -/
def qmul : QMul := .exact
/-- `LEGACY_COMPAT` (R8): false, so no rule recognises an earlier generation. -/
def legacyCompat : Bool := false
/-- `INTEGRITY` (R8). -/
def integrity : Integrity := .noCheck
/-- Whether the optional unit U6 is present (00_scope R5, 43_demultiplexer R210; log 10). DESIGN CHOICE. -/
def unitU6 : Bool := true

/-! ## OPEN parameters (R8; log 8) -/

/-- Stands for any natural for each source: its `TXQ_DEPTH` less 1. -/
opaque txqDepthLessOne : Src → Nat
/-- `TXQ_DEPTH`, any natural from 1 up for each source (R8, R29). -/
def txqDepth (src : Src) : Nat := txqDepthLessOne src + 1
/-- `DBG_MAX`, any natural (R8, R84). -/
opaque dbgMax : Nat
/-- Stands for any natural: `DMX_MAX_BUF` less 1538. -/
opaque dmxSlack : Nat
/-- `DMX_MAX_BUF`, any natural from 1538 up (R8, R209). -/
def dmxMaxBuf : Nat := dmxSlack + 1538
/-- `NoiseAmp`, any function of the two endpoint samples into the naturals (R8, R239). -/
opaque noiseAmp : Sample → Sample → Nat

/-! ## Free values (R12 `draw`, R39; log 6)

Each takes a counter of the state, so that every draw is a fresh one; the rule that draws brings the natural into
the set it draws from. -/

/-- The word of a NaN (R153). -/
opaque drawNaN : Nat → Nat
/-- The arbiter's choice (R184, R186). -/
opaque drawArbiter : Nat → Nat
/-- The comfort noise (R237, R239). -/
opaque drawNoise : Nat → Nat

end Sys2Proof.Config
end

