-- ==== Sys2Proof/Syntax.lean ====
section
/-! DEFINITION. The syntax: one constructor of `Instr` for each row of spec/opcode_table.json, and `Request`, the
form in which a row reaches the block. -/

namespace Sys2Proof

/-- The two instances (R3). -/
inductive Inst where
  | dev
  | host
  deriving DecidableEq, Repr

/-- What the environment presents, before decoding (log 1). -/
inductive Request where
  /-- One operation at the command boundary of an instance: `op[4:0]`, `din[31:0]`, byte string (R95). -/
  | command (inst : Inst) (op : BitVec 5) (din : W32) (bulk : List Byte)
  /-- The reset input of an instance (R95, R260). -/
  | resetInput (inst : Inst)
  /-- The transmitter takes its step (R95, R184). -/
  | txStep
  /-- `AUD_PACKET` with its 118 operands (R98; log 14). -/
  | audPacket (operands : Vector W32 118)
  /-- `THM_FRAME` with its 768 operands (R98; log 14). -/
  | thmFrame (operands : Vector W32 768)
  /-- `THM_ZERO` (R98; log 14). -/
  | thmZero
  /-- Bytes of the link, a wire frame at their front or not (R57, R80; logs 13, 16). -/
  | wire (bytes : List Byte)
  /-- One ADPCM code (R85; log 13). -/
  | nibble (code : Nibble)
  deriving DecidableEq, Repr

/-- The rows of spec/opcode_table.json. A coded operation carries the instance it is presented to (R95, R97; log 15). -/
inductive Instr where
  | nop (inst : Inst)
  | encSample (inst : Inst) (pcm : Sample)
  | encRdstate (inst : Inst)
  | audPush (inst : Inst) (pcm : Sample)
  | qEnc (inst : Inst) (temp : F32)
  | thmPush (inst : Inst) (temp : F32)
  | btnPoll (inst : Inst) (count : BitVec 2)
  | dbgText (inst : Inst) (text : List Byte)
  | devInit (inst : Inst) (audioOk thermalOk : Bool)
  | rdDstatus (inst : Inst)
  | decLoad (inst : Inst) (predictor : Sample) (stepIndex : Byte)
  | decNibble (inst : Inst) (code : Nibble)
  | decPacket (inst : Inst) (frame : List Byte)
  | qDec (inst : Inst) (word : U16)
  | thmDecode (inst : Inst) (frame : List Byte)
  | dmxFeed (inst : Inst) (chunk : List Byte)
  | recPacket (inst : Inst) (frame : List Byte)
  | sessionReset (inst : Inst)
  | rdHstatus (inst : Inst)
  | reserved0A (inst : Inst)
  | reserved0B (inst : Inst)
  | reserved0C (inst : Inst)
  | reserved0D (inst : Inst)
  | reserved0E (inst : Inst)
  | reserved0F (inst : Inst)
  | reserved19 (inst : Inst)
  | reserved1A (inst : Inst)
  | reserved1B (inst : Inst)
  | reserved1C (inst : Inst)
  | reserved1D (inst : Inst)
  | reserved1E (inst : Inst)
  | reserved1F (inst : Inst)
  /-- `HW_RESET` of one instance (R260). -/
  | hwReset (inst : Inst)
  /-- `TX_STEP` (R184). -/
  | txStep
  /-- `AUD_PACKET s[0..117]` (R98). -/
  | audPacket (samples : List Sample)
  /-- `THM_FRAME t[0..767]` (R98). -/
  | thmFrame (temps : List F32)
  /-- `THM_ZERO` (R98). -/
  | thmZero
  /-- `CA 01` and the words `w[0..767]` (R81). -/
  | frameThermal (words : List U16)
  /-- `CA 02`, the header and the 59 payload bytes (R82). -/
  | frameAudio (seq : U16) (predictor : Sample) (stepIndex : Byte) (payload : List Byte)
  /-- `"btn:"` and the rest of the line, its terminator included (R83). -/
  | frameBtn (line : List Byte)
  /-- `"debug:"` and the rest of the line, its terminator included (R84). -/
  | frameDebug (line : List Byte)
  /-- `AA 55`, the button byte and 1536 bytes (R92). -/
  | frameLegacyAA55 (button : Byte) (payload : List Byte)
  /-- `"data:"` and the rest of the line, its terminator included (R93). -/
  | frameLegacyCsv (line : List Byte)
  /-- One 4-bit code of an audio payload (R85). -/
  | adpcmCode (code : Nibble)
  deriving DecidableEq, Repr

end Sys2Proof
end

