-- ==== Sys2Proof/Machine/State.lean ====
section
/-! DEFINITION. The state of the block: every element of 10_state R20, the histories of 10_state R39, and the model's
own fields (counters of draws, the last result, the requests still to come). Plain data throughout. -/

namespace Sys2Proof.Machine

/-- The codec's state: predictor and step index (R21, R22, R34). -/
structure Codec where
  /-- The running estimate of the next sample, `i16`. -/
  predictor : Sample
  /-- The index into `StepTable`, 7 bits, 0..88 in every reachable state. -/
  stepIndex : BitVec 7
  deriving DecidableEq, Repr

/-- The audio packet being assembled (R23 to R26). -/
structure Pkt where
  /-- `pkt.seq` (R23). -/
  seq : U16
  /-- `pkt.count`, samples already encoded into the packet, 0..117 (R24). -/
  count : BitVec 7
  /-- `pkt.hdrPredictor` (R25). -/
  hdrPredictor : Sample
  /-- `pkt.hdrStepIndex` (R25). -/
  hdrStepIndex : Byte
  /-- `pkt.buf[0..58]` (R26). -/
  buf : Vector Byte 59
  deriving DecidableEq, Repr

/-- The thermal frame being assembled (R27). -/
structure Thf where
  /-- `thf.count`, pixels already pushed, 0..767. -/
  count : BitVec 10
  /-- `thf.words[0..767]`. -/
  words : Vector U16 768
  deriving DecidableEq, Repr

/-- The four transmit queues, each a queue of whole frames with its head first (R29). -/
structure Txq where
  aud : List (List Byte)
  thm : List (List Byte)
  btn : List (List Byte)
  dbg : List (List Byte)
  deriving DecidableEq, Repr

/-- The transmitter's frame in flight (R30). -/
structure Tx where
  /-- `tx.busy`: the mutual exclusion of the sink (R64). -/
  busy : Bool
  /-- `tx.frame`, meaningless while not busy. -/
  frame : List Byte
  /-- `tx.idx`, bytes of the frame already written, meaningless while not busy (R30; a natural number, log 12). -/
  idx : Nat
  deriving DecidableEq, Repr

/-- The device instance (R20). -/
structure Dev where
  /-- `enc.*` (R21, R22). -/
  enc : Codec
  /-- `pkt.*` (R23 to R26). -/
  pkt : Pkt
  /-- `thf.*` (R27). -/
  thf : Thf
  /-- `btn.last` (R28). -/
  btnLast : BitVec 2
  /-- `txq[*]` (R29). -/
  txq : Txq
  /-- `tx.*` (R30). -/
  tx : Tx
  /-- `dev.halted` (R31). -/
  halted : Bool
  /-- `DSTATUS` (R32). -/
  dstatus : BitVec 16
  /-- The byte sink, oldest byte first (R55): a history, no element of R20 (log 5). -/
  sink : List Byte
  /-- The model's own counter of the draws DEV has made (log 6). -/
  draws : Nat
  deriving DecidableEq, Repr

/-- One delivery of `Out(kind, value)` (R212). -/
inductive OutEvent where
  | audio (samples : List Sample)
  | thermal (temps : List F32)
  | button (value : BitVec 2)
  | debug (text : List Byte)
  deriving DecidableEq, Repr

/-- The reconstructor's state (R35, R36). -/
structure Rec where
  /-- `rec.expected` (R35). -/
  expected : U16
  /-- `rec.lastSample` (R36). -/
  lastSample : Sample
  deriving DecidableEq, Repr

/-- The host instance (R20). -/
structure Hst where
  /-- `dmx.buf` (R33). -/
  dmxBuf : List Byte
  /-- `dec.*` (R34). -/
  dec : Codec
  /-- `rec.*` (R35, R36). -/
  recon : Rec
  /-- `HSTATUS` (R37). -/
  hstatus : BitVec 16
  /-- The deliveries of `Out`, oldest first (R56): a history, no element of R20 (log 5). -/
  out : List OutEvent
  /-- The model's own counter of the draws HOST has made (log 6). -/
  draws : Nat
  /-- `GAP_THRESHOLD`, the configuration HOST runs at (R8, R232): no element of R20, and no step writes it (R315; log 18). -/
  gapThreshold : Config.GapThreshold
  /-- `Trend`, the configuration HOST runs at (R8, R238): no element of R20, and no step writes it (R315; log 18). -/
  trend : Config.Trend
  deriving DecidableEq, Repr

/-- What a step returns at the command boundary (R95), held for the step's observer only (R45; log 4). -/
inductive Result where
  /-- No result. -/
  | nothing
  /-- `dout[31:0]`. -/
  | word (dout : W32)
  /-- `DEC_PACKET`: the sequence number and the samples (R133). -/
  | packet (seq : U16) (samples : List Sample)
  /-- `THM_DECODE`: the `f32` patterns (R158). -/
  | temps (t : List F32)
  deriving DecidableEq, Repr

/-- Why the machine stops. Every constructor is an index that lies outside its table or buffer, which does not occur in
any rule (R52): no reachable state raises one (R43). Safe: the model stops where the spec gives nothing (log 11). -/
inductive Fault where
  /-- Raised by an encoder or decoder step at a step index of 89..127 (R22, R34). Safe. -/
  | stepIndexOutsideTable
  /-- Raised by `AUD_PUSH` at a `pkt.count` above 117 (R24, R26). Safe. -/
  | packetIndexOutsideBuffer
  /-- Raised by `THM_PUSH` at a `thf.count` above 767 (R27). Safe. -/
  | thermalIndexOutsideBuffer
  /-- Raised by `TX_STEP` at a `tx.idx` that is no index of `tx.frame` (R30). Safe. -/
  | txIndexOutsideFrame
  deriving DecidableEq, Repr

/-- Why a step has no meaning. -/
inductive Refusal where
  /-- Raised by an arm of `exec` whose instruction has no meaning yet; no arm does. Safe. -/
  | notModelled (mnemonic : String)
  deriving DecidableEq, Repr

/-- The whole block, with the requests that the environment has yet to present. -/
structure State where
  /-- The instance DEV (R3). -/
  dev : Dev
  /-- The instance HOST (R3). -/
  host : Hst
  /-- The model's own field: what the last step returned (log 4). -/
  result : Result
  /-- The model's own field: the requests to be presented, the next one first (log 1). -/
  pending : List Request
  deriving DecidableEq, Repr

/-- The reset values of `enc.*` and of `dec.*` (R21, R22, R34). -/
def Codec.reset : Codec := { predictor := 0, stepIndex := 0 }

/-- The reset values of `pkt.*` (R23 to R26). -/
def Pkt.reset : Pkt :=
  { seq := 0, count := 0, hdrPredictor := 0, hdrStepIndex := 0, buf := Vector.replicate 59 0 }

/-- The reset values of `thf.*` (R27). -/
def Thf.reset : Thf := { count := 0, words := Vector.replicate 768 0 }

/-- Empty queues (R29). -/
def Txq.reset : Txq := { aud := [], thm := [], btn := [], dbg := [] }

/-- Not busy, with an empty frame (R30, R310). -/
def Tx.reset : Tx := { busy := false, frame := [], idx := 0 }

/-- DEV as it stands after its first reset (R20, R310), nothing written to the sink yet (log 7). -/
def Dev.initial : Dev :=
  { enc := Codec.reset, pkt := Pkt.reset, thf := Thf.reset, btnLast := 0, txq := Txq.reset, tx := Tx.reset,
    halted := false, dstatus := 0, sink := [], draws := 0 }

/-- HOST as it stands after its first reset (R20, R310), at the default configuration (R8), nothing delivered yet (log 7). -/
def Hst.initial : Hst :=
  { dmxBuf := [], dec := Codec.reset, recon := { expected := 0, lastSample := 0 }, hstatus := 0, out := [], draws := 0,
    gapThreshold := Config.gapThresholdDefault, trend := Config.trendDefault }

/-- The block right after the reset of both instances, no request pending (R42, R310; log 7). -/
def State.reset : State :=
  { dev := Dev.initial, host := Hst.initial, result := .nothing, pending := [] }

end Sys2Proof.Machine
end

