-- ==== Sys2Proof/Machine/Flags.lean ====
section
/-! DEFINITION. The two status words: which bit each fault and event sets (10_state R32, R37; 60_exceptions R280),
and setting one. There are no other flags (R41). -/

namespace Sys2Proof.Machine

/-- The faults of DEV (R280 E1 to E6). -/
inductive DevFault where
  | txqOverflow
  | quantNaN
  | btnRange
  | dbgRefused
  | audioInitFatal
  | opRefused
  deriving DecidableEq, Repr

/-- The faults and events of HOST (R280 E6 to E10, V1 to V3). -/
inductive HostFault where
  | dmxDiscard
  | dmxOverflow
  | textMalformed
  | badStepIndex
  | recFill
  | recStale
  | recResync
  | opRefused
  deriving DecidableEq, Repr

/-- The bit of `DSTATUS` that a fault sets (R32). -/
def dstatusBit : DevFault → Nat
  | .txqOverflow => 0
  | .quantNaN => 1
  | .btnRange => 2
  | .dbgRefused => 3
  | .audioInitFatal => 4
  | .opRefused => 5

/-- The bit of `HSTATUS` that a fault or an event sets (R37). -/
def hstatusBit : HostFault → Nat
  | .dmxDiscard => 0
  | .dmxOverflow => 1
  | .textMalformed => 2
  | .badStepIndex => 3
  | .recFill => 4
  | .recStale => 5
  | .recResync => 6
  | .opRefused => 7

/-- Sets one bit of a status word; a bit already set stays set (R296). -/
def setBit (w : BitVec 16) (k : Nat) : BitVec 16 := w ||| (1#16 <<< k)

/-- `DSTATUS` with a fault's bit set (R32). -/
def setDstatus (w : BitVec 16) (e : DevFault) : BitVec 16 := setBit w (dstatusBit e)

/-- `HSTATUS` with a fault's or an event's bit set (R37). -/
def setHstatus (w : BitVec 16) (e : HostFault) : BitVec 16 := setBit w (hstatusBit e)

/-- Whether a fault of DEV is recorded. -/
def dstatusHas (w : BitVec 16) (e : DevFault) : Bool := w.getLsbD (dstatusBit e)

/-- Whether a fault or an event of HOST is recorded. -/
def hstatusHas (w : BitVec 16) (e : HostFault) : Bool := w.getLsbD (hstatusBit e)

end Sys2Proof.Machine
end

