-- ==== Sys2Proof/Decode.lean ====
section
/-! DEFINITION. Decoding a request to an instruction, total and refusing by name, and encoding an instruction as a
request, both from the tables of 30_encoding (R81 to R95, R97, R98). -/

namespace Sys2Proof

/-- Why bytes of the link decode to no wire frame. The step runs them as a chunk of `DMX_FEED` (log 16). -/
inductive DecodeError where
  /-- The bytes begin no wire frame of the opcode table (R80, R90, R92, R93). -/
  | notAFrame
  /-- The bytes begin a binary frame and end before its fixed length (R100). -/
  | truncatedFrame
  deriving DecidableEq, Repr

/-! ## Byte order (R11, R53) -/

/-- `LE16(v)` (R11). -/
def le16 (v : U16) : List Byte := [v.extractLsb' 0 8, v.extractLsb' 8 8]

/-- `RdLE16(b0, b1) = b0 + 256 * b1` (R11). -/
def rdLE16 (b0 b1 : Byte) : U16 := BitVec.ofNat 16 (b0.toNat + 256 * b1.toNat)

/-- The words of a thermal payload, each `LE16` (R81, R175). -/
def leWords : List U16 → List Byte
  | [] => []
  | w :: ws => le16 w ++ leWords ws

/-- The words read from a thermal payload (R87). -/
def rdWords : List Byte → List U16
  | b0 :: b1 :: bs => rdLE16 b0 b1 :: rdWords bs
  | _ => []

/-! ## First bytes of the wire frames (R80, R92 to R94) -/

/-- `CA 01` (R81). -/
def tagThermal : List Byte := [Config.sync, Config.typeThermal]
/-- `CA 02` (R82). -/
def tagAudio : List Byte := [Config.sync, Config.typeAudio]
/-- `"btn:"` (R83). -/
def tagBtn : List Byte := [0x62, 0x74, 0x6E, 0x3A]
/-- `"debug:"` (R84). -/
def tagDebug : List Byte := [0x64, 0x65, 0x62, 0x75, 0x67, 0x3A]
/-- `AA 55` (R92). -/
def tagLegacyAA55 : List Byte := [0xAA, 0x55]
/-- `"data:"` (R93). -/
def tagLegacyCsv : List Byte := [0x64, 0x61, 0x74, 0x61, 0x3A]

/-- The bytes after a tag, where the bytes begin with it. -/
def afterTag : List Byte → List Byte → Option (List Byte)
  | [], bs => some bs
  | _ :: _, [] => none
  | t :: ts, b :: bs => if b = t then afterTag ts bs else none

/-- The bytes up to and including the first `0A`, and the bytes behind it (R100); all of them where there is none. -/
def splitLine : List Byte → List Byte × List Byte
  | [] => ([], [])
  | b :: bs => if b = 0x0A then ([b], bs) else (b :: (splitLine bs).1, (splitLine bs).2)

/-! ## Decoding -/

/-- The operation that a code selects at the command boundary (R95, R97). Unused operand bits are ignored. -/
def decodeCommand (inst : Inst) (op : BitVec 5) (din : W32) (bulk : List Byte) : Instr :=
  match op.toNat with
  | 0x00 => .nop inst
  | 0x01 => .encSample inst (din.extractLsb' 0 16)
  | 0x02 => .encRdstate inst
  | 0x03 => .audPush inst (din.extractLsb' 0 16)
  | 0x04 => .qEnc inst din
  | 0x05 => .thmPush inst din
  | 0x06 => .btnPoll inst (din.extractLsb' 0 2)
  | 0x07 => .dbgText inst bulk
  | 0x08 => .devInit inst (din.getLsbD 0) (din.getLsbD 1)
  | 0x09 => .rdDstatus inst
  | 0x0A => .reserved0A inst
  | 0x0B => .reserved0B inst
  | 0x0C => .reserved0C inst
  | 0x0D => .reserved0D inst
  | 0x0E => .reserved0E inst
  | 0x0F => .reserved0F inst
  | 0x10 => .decLoad inst (din.extractLsb' 0 16) (din.extractLsb' 16 8)
  | 0x11 => .decNibble inst (din.extractLsb' 0 4)
  | 0x12 => .decPacket inst bulk
  | 0x13 => .qDec inst (din.extractLsb' 0 16)
  | 0x14 => .thmDecode inst bulk
  | 0x15 => .dmxFeed inst bulk
  | 0x16 => .recPacket inst bulk
  | 0x17 => .sessionReset inst
  | 0x18 => .rdHstatus inst
  | 0x19 => .reserved19 inst
  | 0x1A => .reserved1A inst
  | 0x1B => .reserved1B inst
  | 0x1C => .reserved1C inst
  | 0x1D => .reserved1D inst
  | 0x1E => .reserved1E inst
  | _ => .reserved1F inst

/-- The audio frame whose bytes after the marker are at the front of `bs` (R82, R86). -/
def decodeAudio (bs : List Byte) : Except DecodeError (Instr × List Byte) :=
  match bs with
  | s0 :: s1 :: p0 :: p1 :: i :: rest =>
    if rest.length < Config.payloadBytes then .error .truncatedFrame
    else .ok (.frameAudio (rdLE16 s0 s1) (rdLE16 p0 p1) i (rest.take Config.payloadBytes),
      rest.drop Config.payloadBytes)
  | _ => .error .truncatedFrame

/-- The thermal frame whose bytes after the marker are at the front of `bs` (R81, R87). -/
def decodeThermal (bs : List Byte) : Except DecodeError (Instr × List Byte) :=
  if bs.length < 1536 then .error .truncatedFrame
  else .ok (.frameThermal (rdWords (bs.take 1536)), bs.drop 1536)

/-- The second-generation frame whose bytes after the marker are at the front of `bs` (R92). -/
def decodeLegacyAA55 (bs : List Byte) : Except DecodeError (Instr × List Byte) :=
  match bs with
  | b :: rest =>
    if rest.length < 1536 then .error .truncatedFrame
    else .ok (.frameLegacyAA55 b (rest.take 1536), rest.drop 1536)
  | _ => .error .truncatedFrame

/-- The wire frame at the front of the bytes, told by its first bytes (R80, R94, R100), and the bytes behind it. -/
def decodeWire (bs : List Byte) : Except DecodeError (Instr × List Byte) :=
  match afterTag tagThermal bs with
  | some r => decodeThermal r
  | none =>
  match afterTag tagAudio bs with
  | some r => decodeAudio r
  | none =>
  match afterTag tagBtn bs with
  | some r => .ok (.frameBtn (splitLine r).1, (splitLine r).2)
  | none =>
  match afterTag tagDebug bs with
  | some r => .ok (.frameDebug (splitLine r).1, (splitLine r).2)
  | none =>
  match afterTag tagLegacyAA55 bs with
  | some r => decodeLegacyAA55 r
  | none =>
  match afterTag tagLegacyCsv bs with
  | some r => .ok (.frameLegacyCsv (splitLine r).1, (splitLine r).2)
  | none => .error .notAFrame

/-- The instruction a request stands for, or the reason why it stands for none. -/
def decode : Request → Except DecodeError Instr
  | .command inst op din bulk => .ok (decodeCommand inst op din bulk)
  | .resetInput inst => .ok (.hwReset inst)
  | .txStep => .ok .txStep
  | .audPacket operands => .ok (.audPacket (operands.toList.map (·.extractLsb' 0 16)))
  | .thmFrame operands => .ok (.thmFrame operands.toList)
  | .thmZero => .ok .thmZero
  | .wire bytes => (decodeWire bytes).map Prod.fst
  | .nibble code => .ok (.adpcmCode code)

/-- The bytes a request puts on the link (R57). -/
def linkBytes : Request → List Byte
  | .wire bytes => bytes
  | _ => []

/-- The instruction a step runs for a request: the one it decodes to; bytes that begin no whole wire frame reach HOST as
the operand of a `DMX_FEED`, like any bytes of the link (R57, R203; log 16). -/
def requestedInstr (r : Request) : Instr :=
  match decode r with
  | .ok i => i
  | .error _ => .dmxFeed .host (linkBytes r)

/-- What is still to be presented after the instruction at the front of a request: the bytes behind its frame. -/
def leftover : Request → List Request
  | .wire bytes =>
    match decodeWire bytes with
    | .ok (_, b :: bs) => [.wire (b :: bs)]
    | _ => []
  | _ => []

/-! ## Encoding -/

/-- A coded operation with a 32-bit operand (R95); a byte-string operand is empty. -/
def encodeWord (inst : Inst) (op : BitVec 5) (din : W32) : Request := .command inst op din []

/-- A coded operation with a byte-string operand (R95); `din` is 0. -/
def encodeBulk (inst : Inst) (op : BitVec 5) (bulk : List Byte) : Request := .command inst op 0 bulk

/-- The operands as a pseudo-operation takes them, exactly `n` of them (R98). -/
def operandVector (n : Nat) (operands : List W32) : Vector W32 n := Vector.ofFn fun i => operands.getD i 0

/-- The request that presents an instruction (R81 to R95, R98). Unused operand bits are 0. -/
def encode : Instr → Request
  | .nop inst => encodeWord inst 0x00 0
  | .encSample inst pcm => encodeWord inst 0x01 (pcm.zeroExtend 32)
  | .encRdstate inst => encodeWord inst 0x02 0
  | .audPush inst pcm => encodeWord inst 0x03 (pcm.zeroExtend 32)
  | .qEnc inst temp => encodeWord inst 0x04 temp
  | .thmPush inst temp => encodeWord inst 0x05 temp
  | .btnPoll inst count => encodeWord inst 0x06 (count.zeroExtend 32)
  | .dbgText inst text => encodeBulk inst 0x07 text
  | .devInit inst a t => encodeWord inst 0x08 ((BitVec.ofBool t ++ BitVec.ofBool a).zeroExtend 32)
  | .rdDstatus inst => encodeWord inst 0x09 0
  | .decLoad inst p i => encodeWord inst 0x10 ((i ++ p).zeroExtend 32)
  | .decNibble inst code => encodeWord inst 0x11 (code.zeroExtend 32)
  | .decPacket inst frame => encodeBulk inst 0x12 frame
  | .qDec inst word => encodeWord inst 0x13 (word.zeroExtend 32)
  | .thmDecode inst frame => encodeBulk inst 0x14 frame
  | .dmxFeed inst chunk => encodeBulk inst 0x15 chunk
  | .recPacket inst frame => encodeBulk inst 0x16 frame
  | .sessionReset inst => encodeWord inst 0x17 0
  | .rdHstatus inst => encodeWord inst 0x18 0
  | .reserved0A inst => encodeWord inst 0x0A 0
  | .reserved0B inst => encodeWord inst 0x0B 0
  | .reserved0C inst => encodeWord inst 0x0C 0
  | .reserved0D inst => encodeWord inst 0x0D 0
  | .reserved0E inst => encodeWord inst 0x0E 0
  | .reserved0F inst => encodeWord inst 0x0F 0
  | .reserved19 inst => encodeWord inst 0x19 0
  | .reserved1A inst => encodeWord inst 0x1A 0
  | .reserved1B inst => encodeWord inst 0x1B 0
  | .reserved1C inst => encodeWord inst 0x1C 0
  | .reserved1D inst => encodeWord inst 0x1D 0
  | .reserved1E inst => encodeWord inst 0x1E 0
  | .reserved1F inst => encodeWord inst 0x1F 0
  | .hwReset inst => .resetInput inst
  | .txStep => .txStep
  | .audPacket samples => .audPacket (operandVector 118 (samples.map (·.zeroExtend 32)))
  | .thmFrame temps => .thmFrame (operandVector 768 temps)
  | .thmZero => .thmZero
  | .frameThermal words => .wire (tagThermal ++ leWords words)
  | .frameAudio seq p i payload => .wire (tagAudio ++ (le16 seq ++ (le16 p ++ (i :: payload))))
  | .frameBtn line => .wire (tagBtn ++ line)
  | .frameDebug line => .wire (tagDebug ++ line)
  | .frameLegacyAA55 b payload => .wire (tagLegacyAA55 ++ (b :: payload))
  | .frameLegacyCsv line => .wire (tagLegacyCsv ++ line)
  | .adpcmCode code => .nibble code

/-! ## The opcode table's own numbering (log 15) -/

/-- The `k` bytes of a number, the most significant first: the table's wire rows write byte 0 so. -/
def beBytes (k w : Nat) : List Byte :=
  (List.range k).map fun i => BitVec.ofNat 8 (w / 256 ^ (k - 1 - i))

/-- How many bytes the frame with these first bytes has in all; a debug or CSV line has one byte beyond its tag
here. -/
def rowFrameBytes (tag : List Byte) : Nat :=
  if tag = tagThermal then Config.thermalFrameBytes
  else if tag = tagAudio then Config.audioFrameBytes
  else if tag = tagBtn then 6
  else if tag = tagLegacyAA55 then Config.legacyFrameBytes
  else tag.length + 1

/-- The request whose bits are `w` as a row of the opcode table numbers them, every further bit 0: in 8 bits an
operation code, presented to the instance that owns it (`NOP` to DEV); in more, the first bytes of a wire frame. -/
def tableRequest (nbits w : Nat) : Request :=
  if nbits = 8 ∧ w < 32 then
    .command (if w < 16 then .dev else .host) (BitVec.ofNat 5 w) 0 []
  else
    let tag := beBytes (nbits / 8) w
    .wire (tag ++ List.replicate (rowFrameBytes tag - tag.length) 0)

/-- The instruction the decoder reads from a word of the opcode table. -/
def decodeTableWord (nbits w : Nat) : Option Instr :=
  match decode (tableRequest nbits w) with
  | .ok i => some i
  | .error _ => none

end Sys2Proof
end

