-- ==== Sys2Proof/Machine/Operands.lean ====
section
/-! DEFINITION. The operand forms: fields of a frame (30_encoding R86 to R89), the form checks of the bulk operands
(40_adpcm_codec R133, 41_thermal_quantizer R158), and the exact arithmetic of 00_scope R10. -/

namespace Sys2Proof.Machine

/-- `clamp(v, lo, hi)` (R10). -/
def clamp (v lo hi : Int) : Int := if v < lo then lo else if v > hi then hi else v

/-- `clamp16(v)` as a 16-bit pattern (R10). -/
def clamp16 (v : Int) : Sample := BitVec.ofInt 16 (clamp v Config.pcmMin Config.pcmMax)

/-- `clampIdx(v)` as a 7-bit pattern (R10). -/
def clampIdx (v : Int) : BitVec 7 := BitVec.ofInt 7 (clamp v 0 Config.stepIndexMax)

/-- `f[i]` of a frame whose length has been checked (R52). -/
def byteAt (f : List Byte) (i : Nat) : Byte := f.getD i 0

/-- `len(f) = 66 and f[0] = 0xCA and f[1] = 0x02` (R133, R231). -/
def isAudioFrame (f : List Byte) : Bool :=
  f.length == Config.audioFrameBytes && byteAt f 0 == Config.sync && byteAt f 1 == Config.typeAudio

/-- `len(f) = 1538 and f[0] = 0xCA and f[1] = 0x01` (R158). -/
def isThermalFrame (f : List Byte) : Bool :=
  f.length == Config.thermalFrameBytes && byteAt f 0 == Config.sync && byteAt f 1 == Config.typeThermal

/-- `seq` of an audio frame (R86). -/
def frameSeq (f : List Byte) : U16 := rdLE16 (byteAt f 2) (byteAt f 3)

/-- `predictor` of an audio frame (R86). -/
def framePredictor (f : List Byte) : Sample := rdLE16 (byteAt f 4) (byteAt f 5)

/-- `stepIndex` of an audio frame (R86). -/
def frameStepIndex (f : List Byte) : Byte := byteAt f 6

/-- The codes of payload bytes, the low nibble of each first (R54, R88). -/
def codesOf : List Byte → List Nibble
  | [] => []
  | b :: bs => b.extractLsb' 0 4 :: b.extractLsb' 4 4 :: codesOf bs

/-- The 118 codes of an audio frame (R88). -/
def frameCodes (f : List Byte) : List Nibble := codesOf (f.drop 7)

/-- The 768 words of a thermal frame (R87). -/
def frameWords (f : List Byte) : List U16 := rdWords (f.drop 2)

/-- What a text line is (R89). -/
inductive TextLine where
  | button (value : BitVec 2)
  | debug (text : List Byte)
  | malformed
  deriving DecidableEq, Repr

/-- The value of the digits `0`..`2` (R89). -/
def buttonDigit (b : Byte) : Option (BitVec 2) :=
  if b = 0x30 then some 0 else if b = 0x31 then some 1 else if b = 0x32 then some 2 else none

/-- Parsing of a text line, its terminator excluded (R89). -/
def parseLine (line : List Byte) : TextLine :=
  match afterTag tagBtn line with
  | some [d] =>
    match buttonDigit d with
    | some v => .button v
    | none => .malformed
  | some _ => .malformed
  | none =>
    match afterTag tagDebug line with
    | some text => .debug text
    | none => .malformed

/-- `draw(S)` over the elements of a list (R12): the free value names the element; nothing to draw from an empty
list. A list of one leaves no choice. -/
def drawFrom {α : Type} (free : Nat) : List α → Option α
  | [] => none
  | [x] => some x
  | x :: y :: rest => (x :: y :: rest)[free % (rest.length + 2)]?

/-- `draw({0, ..., n})` (R12). -/
def drawUpTo (free n : Nat) : Nat := free % (n + 1)

/-- `draw({z integer : |z| <= n})` (R12, R237). -/
def drawWithin (free n : Nat) : Int := (free % (2 * n + 1) : Nat) - (n : Int)

end Sys2Proof.Machine
end

