-- ==== Sys2Proof/Machine/Ops.lean ====
section
/-! DEFINITION. The operations that every family shares: raising a fault (60_exceptions R295), refusing an operation
(30_encoding R97), running one on its instance, `Emit` (42_frame_builder R182), `Out` (43_demultiplexer R212), the
resets (45_system_ops R260, R261) and a fixed sequence of operations (30_encoding R98). -/

namespace Sys2Proof.Machine

/-- What a meaning answers. -/
abbrev Answer := Host.Outcome State Fault Refusal

/-! ## Fault entry (R295)

A fault sets its sticky bit, performs its action, and the operation completes: no control is transferred, nothing is
saved, and there is no return from it (R296). -/

/-- `raise <Fault>` on DEV (R12, R280): the sticky bit, and for `AudioInitFatal` the halt. The actions of the other
faults are what their operations do next. -/
def raiseDev (e : DevFault) (d : Dev) : Dev :=
  { d with dstatus := setDstatus d.dstatus e, halted := d.halted || e == .audioInitFatal }

/-- `raise <Fault>` on HOST (R12, R280), and the writing of an event bit. -/
def raiseHost (e : HostFault) (h : Hst) : Hst :=
  { h with hstatus := setHstatus h.hstatus e }

/-- `OpRefused` (E6): no other state change and no result (R97, R280; log 4). -/
def refuseAt (inst : Inst) (s : State) : Answer :=
  match inst with
  | .dev => .next { s with dev := raiseDev .opRefused s.dev, result := .nothing }
  | .host => .next { s with host := raiseHost .opRefused s.host, result := .nothing }

/-! ## Running an operation on its instance -/

/-- Runs an operation on DEV and holds its result. -/
def runDev (f : Dev → Except Fault (Dev × Result)) (s : State) : Answer :=
  match f s.dev with
  | .ok r => .next { s with dev := r.1, result := r.2 }
  | .error e => .fault e

/-- Runs an operation on HOST and holds its result. -/
def runHost (f : Hst → Except Fault (Hst × Result)) (s : State) : Answer :=
  match f s.host with
  | .ok r => .next { s with host := r.1, result := r.2 }
  | .error e => .fault e

/-- A DEV operation that a halted DEV still accepts (`RD_DSTATUS`, R262); on HOST its code is reserved (R97). -/
def devOpAlways (inst : Inst) (s : State) (f : Dev → Except Fault (Dev × Result)) : Answer :=
  match inst with
  | .host => refuseAt .host s
  | .dev => runDev f s

/-- Any other DEV operation: refused while DEV is halted (R262); on HOST its code is reserved (R97). -/
def devOp (inst : Inst) (s : State) (f : Dev → Except Fault (Dev × Result)) : Answer :=
  match inst with
  | .host => refuseAt .host s
  | .dev => if s.dev.halted then refuseAt .dev s else runDev f s

/-- A HOST operation; on DEV its code is reserved (R97). -/
def hostOp (inst : Inst) (s : State) (f : Hst → Except Fault (Hst × Result)) : Answer :=
  match inst with
  | .dev => refuseAt .dev s
  | .host => runHost f s

/-- A fixed sequence of operations, one after the other (R98); the result is the last one's. -/
def runSequence {α : Type} (f : α → State → Answer) : List α → State → Answer
  | [], s => .next s
  | x :: xs, s =>
    match f x s with
    | .next t => runSequence f xs t
    | .fault e => .fault e
    | .refused r => .refused r

/-! ## Transmit queues (R29, R182) -/

/-- `txq[src]` (R29). -/
def txqOf (q : Txq) : Src → List (List Byte)
  | .aud => q.aud
  | .thm => q.thm
  | .btn => q.btn
  | .dbg => q.dbg

/-- The queues with `txq[src]` replaced. -/
def txqWith (q : Txq) (src : Src) (frames : List (List Byte)) : Txq :=
  match src with
  | .aud => { q with aud := frames }
  | .thm => { q with thm := frames }
  | .btn => { q with btn := frames }
  | .dbg => { q with dbg := frames }

/-- `Emit(src, frame)` at a queue depth; the second part says whether the frame was accepted (R182). -/
def emitWith (depth : Nat) (src : Src) (frame : List Byte) (d : Dev) : Dev × Bool :=
  if (txqOf d.txq src).length < depth then
    ({ d with txq := txqWith d.txq src (txqOf d.txq src ++ [frame]) }, true)
  else (raiseDev .txqOverflow d, false)

/-- `Emit(src, frame)` at the source's `TXQ_DEPTH` (R182). -/
def emit (src : Src) (frame : List Byte) (d : Dev) : Dev × Bool :=
  emitWith (Config.txqDepth src) src frame d

/-! ## Output histories (R56, R212) -/

/-- `Out(kind, value)` (R212). -/
def deliver (e : OutEvent) (h : Hst) : Hst := { h with out := h.out ++ [e] }

/-- The samples of one delivery. -/
def audioOf : OutEvent → List Sample
  | .audio samples => samples
  | _ => []

/-- The audio sample stream (R56). -/
def audioHistory (h : Hst) : List Sample := h.out.flatMap audioOf

/-- The thermal frame stream (R56). -/
def thermalHistory (h : Hst) : List (List F32) :=
  h.out.filterMap fun e => match e with | .thermal t => some t | _ => none

/-- The button event stream (R56). -/
def buttonHistory (h : Hst) : List (BitVec 2) :=
  h.out.filterMap fun e => match e with | .button v => some v | _ => none

/-- The debug text stream (R56). -/
def debugHistory (h : Hst) : List (List Byte) :=
  h.out.filterMap fun e => match e with | .debug t => some t | _ => none

/-! ## Resets (R42, R260, R261) -/

/-- Every element of DEV at its reset value; the sink history is not erased (R260), the draw counter runs on (log 7). -/
def resetDev (d : Dev) : Dev := { Dev.initial with sink := d.sink, draws := d.draws }

/-- Every element of HOST at its reset value; the `Out` histories are not erased (R260), the configuration is no state
and stays (R39, R315; log 18), the draw counter runs on (log 7). -/
def resetHost (h : Hst) : Hst :=
  { Hst.initial with out := h.out, draws := h.draws, gapThreshold := h.gapThreshold, trend := h.trend }

end Sys2Proof.Machine
end

