-- ==== Sys2Proof/Machine/Quantizer.lean ====
section
/-! DEFINITION. The thermal quantizer, unit U2: `Val` and `Rne32` (41_thermal_quantizer R159, R157) and the operations
`Q_ENC`, `Q_DEC`, `THM_DECODE`. A finite `f32` is an exact multiple of `2^-149`, so all of it is natural-number
arithmetic. -/

namespace Sys2Proof.Machine

/-- What an `f32` pattern stands for (R159); a finite value is `units * 2^-149`, negated when `neg`. -/
inductive FVal where
  | nan
  | inf (neg : Bool)
  | fin (neg : Bool) (units : Nat)
  deriving DecidableEq, Repr

/-- `Val(b)` (R159). -/
def val (b : F32) : FVal :=
  let s := b.getLsbD 31
  let e := (b.extractLsb' 23 8).toNat
  let m := (b.extractLsb' 0 23).toNat
  if e = 255 then (if m = 0 then .inf s else .nan)
  else if e = 0 then .fin s m
  else .fin s ((2 ^ 23 + m) * 2 ^ (e - 1))

/-- The clamp to [0.0, 40.0] in units of `2^-149`; nothing for a NaN (R150). -/
def clampTemp : FVal → Option Nat
  | .nan => none
  | .inf neg => some (if neg then Config.tempMin * 2 ^ 149 else Config.tempMax * 2 ^ 149)
  | .fin neg units => some (if neg then Config.tempMin * 2 ^ 149 else
    max (Config.tempMin * 2 ^ 149) (min units (Config.tempMax * 2 ^ 149)))

/-- A natural rounded to 24 significant bits, ties to even: the binary32 value nearest to a number of units of
`2^-149` (R154, R157). -/
def round24 (u : Nat) : Nat :=
  let k := Nat.log2 u + 1 - 24
  let n := u >>> k
  let r := u % 2 ^ k
  let up := decide (2 * r > 2 ^ k) || (decide (2 * r = 2 ^ k) && decide (n % 2 = 1))
  (if up then n + 1 else n) <<< k

/-- `floor(10 * c + 1/2)` under `QMUL`, for `c` in units of `2^-149` (R150, R154). -/
def scaleRoundWith (m : Config.QMul) (c : Nat) : Nat :=
  match m with
  | .exact => (2 * (Config.tempScale * c) + 2 ^ 149) / 2 ^ 150
  | .binary32 => (2 * round24 (Config.tempScale * c) + 2 ^ 149) / 2 ^ 150

/-- The word of an `f32` pattern under `QMUL`; nothing for a NaN (R150). -/
def quantWith (m : Config.QMul) (b : F32) : Option U16 :=
  (clampTemp (val b)).map fun c => BitVec.ofNat 16 (scaleRoundWith m c)

/-- The word of an `f32` pattern (R150). -/
def quant (b : F32) : Option U16 := quantWith Config.qmul b

/-- `Q_ENC b` on DEV, with the word: a NaN raises `QuantNaN` and the word is drawn from 0..400 (R150, R153). -/
def qEnc (b : F32) (d : Dev) : Dev × U16 :=
  match quant b with
  | some w => (d, w)
  | none =>
    ({ raiseDev .quantNaN d with draws := d.draws + 1 },
      BitVec.ofNat 16 (drawUpTo (Config.drawNaN d.draws) Config.qMax))

/-- How far `num / den` is shifted left so that it lies in `[2^23, 2^24)`: `23 - e` of R157. -/
def rneShift (num den : Nat) : Nat :=
  let k := 24 + Nat.log2 den - Nat.log2 num
  if num * 2 ^ k < 2 ^ 24 * den then k else k - 1

/-- `Rne32(num / den)`, for `0 <= num / den <= 6553.5` (R157). -/
def rne32 (num den : Nat) : F32 :=
  if num = 0 then 0
  else
    let k := rneShift num den
    let n := num * 2 ^ k / den
    let r := num * 2 ^ k % den
    let n1 := if 2 * r > den ∨ (2 * r = den ∧ n % 2 = 1) then n + 1 else n
    if n1 = 2 ^ 24 then BitVec.ofNat 32 ((150 - k + 1) * 2 ^ 23)
    else BitVec.ofNat 32 ((150 - k) * 2 ^ 23 + (n1 - 2 ^ 23))

/-- `Q_DEC w` (R156). -/
def qDec (w : U16) : F32 := rne32 w.toNat Config.tempScale

/-- `THM_DECODE f` on HOST: 768 patterns, or nothing when the operand is refused (R158). -/
def thmDecode (f : List Byte) (h : Hst) : Hst × Option (List F32) :=
  if isThermalFrame f then (h, some ((frameWords f).map qDec))
  else (raiseHost .opRefused h, none)

/-- What `THM_DECODE` returns at the command boundary (R95, R158). -/
def tempsResult : Option (List F32) → Result
  | some t => .temps t
  | none => .nothing

/-! ## Meanings -/

/-- `Q_ENC` (R150): the word in `dout[15:0]`. -/
def execQEnc (inst : Inst) (temp : F32) (s : State) : Answer :=
  devOp inst s fun d => .ok ((qEnc temp d).1, .word ((qEnc temp d).2.zeroExtend 32))

/-- `Q_DEC` (R156). -/
def execQDec (inst : Inst) (word : U16) (s : State) : Answer :=
  hostOp inst s fun h => .ok (h, .word (qDec word))

/-- `THM_DECODE` (R158). -/
def execThmDecode (inst : Inst) (frame : List Byte) (s : State) : Answer :=
  hostOp inst s fun h => .ok ((thmDecode frame h).1, tempsResult (thmDecode frame h).2)

end Sys2Proof.Machine
end

