-- ==== Sys2Proof/Machine/Adpcm.lean ====
section
/-! DEFINITION. The ADPCM codec, unit U1: the micro-operations of 40_adpcm_codec R122 to R126 and the operations
`ENC_SAMPLE`, `ENC_RDSTATE`, `DEC_LOAD`, `DEC_NIBBLE`, `DEC_PACKET`, and the decoding of one `ADPCM_CODE`. -/

namespace Sys2Proof.Machine

/-! ## Micro-operations -/

/-- Whether the step index selects an entry of `StepTable` (R22, R34). -/
def indexInTable (c : Codec) : Bool := decide (c.stepIndex.toNat ≤ Config.stepIndexMax)

/-- `StepTable[i]`, for `i` in 0..88 (R120). -/
def stepAt (i : BitVec 7) : Nat := Config.stepTable.getD i.toNat 0

/-- `IndexTable[n]` (R121). -/
def indexDelta (n : Nibble) : Int := Config.indexTable.getD n.toNat 0

/-- `DeltaOf(n, step)` under `DELTA_BASE` (R122). -/
def deltaOfWith (base : Bool) (n : Nibble) (step : Nat) : Nat :=
  (if base then step >>> 3 else 0) + (if n.getLsbD 2 then step else 0) +
    (if n.getLsbD 1 then step >>> 1 else 0) + (if n.getLsbD 0 then step >>> 2 else 0)

/-- `DeltaOf(n, step)` (R122). -/
def deltaOf (n : Nibble) (step : Nat) : Nat := deltaOfWith Config.deltaBase n step

/-- `ApplyDelta(p, n, step)`: the sum is exact, then saturated (R123). -/
def applyDelta (p : Sample) (n : Nibble) (step : Nat) : Sample :=
  clamp16 (if n.getLsbD 3 then p.toInt - deltaOf n step else p.toInt + deltaOf n step)

/-- `NextIndex(i, n)` (R124). -/
def nextIndex (i : BitVec 7) (n : Nibble) : BitVec 7 := clampIdx (i.toNat + indexDelta n)

/-- `DecStep((p, i), n)`: both updates use the old index, and the output sample is the new predictor (R125). -/
def decStep (c : Codec) (n : Nibble) : Codec × Sample :=
  ({ predictor := applyDelta c.predictor n (stepAt c.stepIndex), stepIndex := nextIndex c.stepIndex n },
    applyDelta c.predictor n (stepAt c.stepIndex))

/-- The code of its four bits (R85). -/
def codeOfBits (s m2 m1 m0 : Bool) : Nibble :=
  BitVec.ofBool s ++ BitVec.ofBool m2 ++ BitVec.ofBool m1 ++ BitVec.ofBool m0

/-- The code of a difference: its sign, and its magnitude decomposed against `step`, `step >> 1`, `step >> 2`, the
remainder reduced after a set bit (R85, R126). -/
def quantize (diff : Int) (step : Nat) : Nibble :=
  let a := diff.natAbs
  let a1 := if a ≥ step then a - step else a
  let a2 := if a1 ≥ step >>> 1 then a1 - (step >>> 1) else a1
  codeOfBits (diff < 0) (a ≥ step) (a1 ≥ step >>> 1) (a2 ≥ step >>> 2)

/-- `EncStep((p, i), s)`: the difference is exact, and the state is updated as the decoder will update it (R126). -/
def encStep (c : Codec) (s : Sample) : Codec × Nibble :=
  let n := quantize (s.toInt - c.predictor.toInt) (stepAt c.stepIndex)
  ((decStep c n).1, n)

/-- The decoder run over codes in order: the state behind the last one, and one sample for each (R133). -/
def decCodes (c : Codec) : List Nibble → Codec × List Sample
  | [] => (c, [])
  | n :: ns =>
    let r := decStep c n
    let rs := decCodes r.1 ns
    (rs.1, r.2 :: rs.2)

/-! ## Operations on an instance -/

/-- `ENC_SAMPLE pcm` on DEV (R128). -/
def encSample (pcm : Sample) (d : Dev) : Except Fault (Dev × Nibble) :=
  if indexInTable d.enc then
    .ok ({ d with enc := (encStep d.enc pcm).1 }, (encStep d.enc pcm).2)
  else .error .stepIndexOutsideTable

/-- `dout` of `ENC_RDSTATE`: the step index above the predictor, the top byte 0 (R129). -/
def rdstateWord (c : Codec) : W32 := (c.stepIndex.zeroExtend 16 ++ c.predictor : BitVec 32)

/-- `DEC_LOAD predictor, stepIndex` on HOST (R131). -/
def decLoad (p : Sample) (i : Byte) (h : Hst) : Hst :=
  if i.toNat > Config.stepIndexMax then raiseHost .badStepIndex h
  else { h with dec := { predictor := p, stepIndex := i.setWidth 7 } }

/-- `DEC_NIBBLE n` on HOST (R132). -/
def decNibble (n : Nibble) (h : Hst) : Except Fault (Hst × Sample) :=
  if indexInTable h.dec then
    .ok ({ h with dec := (decStep h.dec n).1 }, (decStep h.dec n).2)
  else .error .stepIndexOutsideTable

/-- `DEC_PACKET f` on HOST: the sequence number and the samples, or nothing when the packet is refused (R133). -/
def decPacket (f : List Byte) (h : Hst) : Hst × Option (U16 × List Sample) :=
  if isAudioFrame f then
    if (frameStepIndex f).toNat > Config.stepIndexMax then (raiseHost .badStepIndex h, none)
    else
      let h1 := decLoad (framePredictor f) (frameStepIndex f) h
      let r := decCodes h1.dec (frameCodes f)
      ({ h1 with dec := r.1 }, some (frameSeq f, r.2))
  else (raiseHost .opRefused h, none)

/-- What `DEC_PACKET` returns at the command boundary (R95, R133). -/
def packetResult : Option (U16 × List Sample) → Result
  | some r => .packet r.1 r.2
  | none => .nothing

/-! ## Meanings -/

/-- `ENC_SAMPLE` (R128): the code in `dout[3:0]`. -/
def execEncSample (inst : Inst) (pcm : Sample) (s : State) : Answer :=
  devOp inst s fun d => (encSample pcm d).map fun r => (r.1, .word (r.2.zeroExtend 32))

/-- `ENC_RDSTATE` (R129). -/
def execEncRdstate (inst : Inst) (s : State) : Answer :=
  devOp inst s fun d => .ok (d, .word (rdstateWord d.enc))

/-- `DEC_LOAD` (R131). -/
def execDecLoad (inst : Inst) (predictor : Sample) (stepIndex : Byte) (s : State) : Answer :=
  hostOp inst s fun h => .ok (decLoad predictor stepIndex h, .nothing)

/-- `DEC_NIBBLE` (R132): the sample in `dout[15:0]`. -/
def execDecNibble (inst : Inst) (code : Nibble) (s : State) : Answer :=
  hostOp inst s fun h => (decNibble code h).map fun r => (r.1, .word (r.2.zeroExtend 32))

/-- `DEC_PACKET` (R133). -/
def execDecPacket (inst : Inst) (frame : List Byte) (s : State) : Answer :=
  hostOp inst s fun h => .ok ((decPacket frame h).1, packetResult (decPacket frame h).2)

/-- One `ADPCM_CODE` (R85): decoded as R133 decodes each code of a payload, by `DEC_NIBBLE` on HOST (log 13). -/
def execAdpcmCode (code : Nibble) (s : State) : Answer :=
  runHost (fun h => (decNibble code h).map fun r => (r.1, .word (r.2.zeroExtend 32))) s

end Sys2Proof.Machine
end

