-- ==== Sys2Proof/Machine/Reconstructor.lean ====
section
/-! DEFINITION. The loss-tolerant reconstructor, unit U6: `Classify`, `Fill`, `Trend`, `Env` (44_reconstructor R232, R237
to R239) and `REC_PACKET`. -/

namespace Sys2Proof.Machine

/-! ## Classification -/

/-- The class of a packet (R232). -/
inductive PacketClass where
  | inorder
  | forward
  | stale
  | far
  deriving DecidableEq, Repr

/-- `gap = (seq - expected + 65536) mod 65536` (R232). -/
def gapOf (expected seq : U16) : Nat := 
  (seq.toNat + Config.seqMod - expected.toNat) % Config.seqMod

/-- The first line of R232 that applies to a gap, under the threshold `t`. -/
def classifyWith (t gap : Nat) : PacketClass :=
  if gap = 0 then .inorder
  else if gap < t then .forward
  else if gap ≥ Config.seqMod - t then .stale
  else .far

/-- `Classify(seq)` on HOST, at the threshold it is configured with (R232). -/
def classify (h : Hst) (seq : U16) : PacketClass :=
  classifyWith h.gapThreshold.val (gapOf h.recon.expected seq)

/-! ## The fill -/

/-- A trend: the weight of `b` at `k` of `M`, as a numerator and a denominator (R238). -/
abbrev TrendFn := Nat → Nat → Nat × Nat

/-- The smoothstep trend `k^2 (3 M - 2 k) / M^3` (R238). -/
def smoothstep : TrendFn := fun k m => (k ^ 2 * (3 * m - 2 * k), m ^ 3)

/-- The common denominator of the weights at `m`: `Trend(0, M) + Trend(M, M) = 1` (R238). -/
def weightsTotal (w : List Nat) (m : Nat) : Nat := w.getD 0 0 + w.getD m 0

/-- The weights have the three properties of R238: non-decreasing, symmetric, and so within [0, 1]. -/
def admissible (w : List Nat) (m : Nat) : Bool :=
  decide (0 < weightsTotal w m) &&
    (List.range (m + 1)).all fun k => decide (w.getD k 0 + w.getD (m - k) 0 = weightsTotal w m) &&
      (decide (k = m) || decide (w.getD k 0 ≤ w.getD (k + 1) 0))

/-- `Trend(k, M)` as configured: the weights that the configuration lists for `M` where they have the properties of R238,
else smoothstep (R8, R238). -/
def trendOf (t : Config.Trend) : TrendFn := fun k m =>
  let w := (t.lookup m).getD []
  if admissible w m then (w.getD k 0, weightsTotal w m) else smoothstep k m

/-- `a + floor((b - a) * num / den + 1/2)`, exactly (R237). -/
def trendValue (w : Nat × Nat) (a b : Int) : Int :=
  a + (2 * ((b - a) * w.1) + w.2) / (2 * w.2)

/-- `Env(k, M, a, b)` at the amplitude `NoiseAmp(a, b)` (R239). -/
def envelope (amp k m : Nat) : Nat := amp * 4 * k * (m - k) / m ^ 2

/-- Fill sample `k` of `M - 1`: the trend and one draw within the envelope, saturated (R237). -/
def fillSample (trend : TrendFn) (amp : Nat) (free : Nat) (a b : Sample) (m k : Nat) : Sample :=
  clamp16 (trendValue (trend k m) a.toInt b.toInt + drawWithin free (envelope amp k m))

/-- `Fill(a, b, n)` for a trend, an amplitude and a supply of free values used from `c` on (R237). -/
def fillWith (trend : TrendFn) (amp : Sample → Sample → Nat) (free : Nat → Nat) (c : Nat) (a b : Sample) (n : Nat) :
    List Sample :=
  (List.range n).map fun i => fillSample trend (amp a b) (free (c + i)) a b (n + 1) (i + 1)

/-- `Fill(a, b, n)` under a configured trend, its draws counted from `c` on (R237 to R239). -/
def fill (t : Config.Trend) (c : Nat) (a b : Sample) (n : Nat) : List Sample :=
  fillWith (trendOf t) Config.noiseAmp Config.drawNoise c a b n

/-! ## The operation -/

/-- The fill before a packet of class `FORWARD`, delivered from the last sample to the packet's first (R231, R234). -/
def deliverFill (first : Sample) (n : Nat) (h : Hst) : Hst :=
  { deliver (.audio (fill h.trend h.draws h.recon.lastSample first n)) (raiseHost .recFill h) with draws := h.draws + n }

/-- What an accepted packet of a class delivers ahead of its samples (R231). -/
def bridge (c : PacketClass) (first : Sample) (gap : Nat) (h : Hst) : Hst :=
  match c with
  | .forward => deliverFill first (gap * Config.samplesPerPacket) h
  | .far => raiseHost .recResync h
  | .inorder => h
  | .stale => h

/-- The packet's samples are delivered, and `rec.*` moves on (R231, R233, R236). -/
def acceptSamples (seq : U16) (samples : List Sample) (h : Hst) : Hst :=
  { deliver (.audio samples) h with
    recon := { expected := seq + 1, lastSample := samples.getD (Config.samplesPerPacket - 1) 0 } }

/-- `REC_PACKET f` on HOST (R231). -/
def recPacket (f : List Byte) (h : Hst) : Hst :=
  if isAudioFrame f then
    let gap := gapOf h.recon.expected (frameSeq f)
    let c := classify h (frameSeq f)
    if c = .stale then raiseHost .recStale h
    else
      match decPacket f h with
      | (h1, none) => h1
      | (h1, some r) => acceptSamples r.1 r.2 (bridge c (r.2.getD 0 0) gap h1)
  else raiseHost .opRefused h

/-- `REC_PACKET` (R231). -/
def execRecPacket (inst : Inst) (frame : List Byte) (s : State) : Answer :=
  hostOp inst s fun h => .ok (recPacket frame h, .nothing)

end Sys2Proof.Machine
end

