-- ==== Sys2Proof/Machine/Demux.lean ====
section
/-! DEFINITION. The frame demultiplexer, unit U5: the scan of 43_demultiplexer R203, `Dispatch`, `DispatchText` and
`DMX_FEED`; and the wire frames of 30_encoding R81 to R84, R92, R93 as bytes that arrive at HOST (log 13). -/

namespace Sys2Proof.Machine

/-! ## Dispatch -/

/-- `Dispatch(f)` of a binary frame, with unit U6 or without it (R210). -/
def dispatchWith (u6 : Bool) (f : List Byte) (h : Hst) : Hst :=
  if byteAt f 1 = Config.typeThermal then
    match thmDecode f h with
    | (h1, some t) => deliver (.thermal t) h1
    | (h1, none) => h1
  else if u6 then recPacket f h
  else
    match decPacket f h with
    | (h1, some r) => deliver (.audio r.2) h1
    | (h1, none) => h1

/-- `Dispatch(f)` (R210). -/
def dispatch (f : List Byte) (h : Hst) : Hst := dispatchWith Config.unitU6 f h

/-- `DispatchText(L)` of a line without its terminator (R207). -/
def dispatchText (line : List Byte) (h : Hst) : Hst :=
  match parseLine line with
  | .button v => deliver (.button v) h
  | .debug text => deliver (.debug text) h
  | .malformed => raiseHost .textMalformed h

/-! ## The scan -/

/-- What stands at the scan position (R201 to R206), with the bytes behind it. -/
inductive ScanItem where
  /-- No byte, a lone `CA`, or a frame or line that is not complete yet: wait (R205, R206, R208). -/
  | wait
  /-- A byte that begins no start pattern (R204). -/
  | discard (rest : List Byte)
  /-- A whole binary frame (R205). -/
  | frame (f rest : List Byte)
  /-- A whole text line, its terminator left out (R207). -/
  | line (text rest : List Byte)
  deriving DecidableEq, Repr

/-- `FrameLen(t)` of a recognised type byte (R90, R202). -/
def frameLen (t : Byte) : Option Nat :=
  if t = Config.typeThermal then some Config.thermalFrameBytes
  else if t = Config.typeAudio then some Config.audioFrameBytes
  else none

/-- The first `n` elements and the rest, where there are so many (R205). -/
def takeExactly {α : Type} : Nat → List α → Option (List α × List α)
  | 0, bs => some ([], bs)
  | _ + 1, [] => none
  | n + 1, b :: bs =>
    match takeExactly n bs with
    | some r => some (b :: r.1, r.2)
    | none => none

/-- The bytes before the first `0A` and those behind it, where there is one (R206). -/
def takeLine : List Byte → Option (List Byte × List Byte)
  | [] => none
  | b :: bs =>
    if b = 0x0A then some ([], bs)
    else
      match takeLine bs with
      | some r => some (b :: r.1, r.2)
      | none => none

/-- What stands at the front of the bytes (R203). -/
def scanItem (bs : List Byte) : ScanItem :=
  match bs with
  | [] => .wait
  | c :: rest =>
    if c = Config.sync then
      match rest with
      | [] => .wait
      | t :: _ =>
        match frameLen t with
        | some len =>
          match takeExactly len bs with
          | some r => .frame r.1 r.2
          | none => .wait
        | none => .discard rest
    else if c = 0x62 ∨ c = 0x64 then
      match takeLine bs with
      | some r => .line r.1 r.2
      | none => .wait
    else .discard rest

/-- The scan loop of R203 over the bytes `bs`: what is left, and HOST after the dispatches. Each turn takes at least
one byte, so as much fuel as bytes lets it run to its end. -/
def scan : Nat → List Byte → Hst → List Byte × Hst
  | 0, bs, h => (bs, h)
  | fuel + 1, bs, h =>
    match scanItem bs with
    | .wait => (bs, h)
    | .discard rest => scan fuel rest (raiseHost .dmxDiscard h)
    | .frame f rest => scan fuel rest (dispatch f h)
    | .line text rest => scan fuel rest (dispatchText text h)

/-- The repeat loop of R203 at a buffer bound: while the scan leaves too much, the oldest byte is dropped and the scan
runs again (R209). Each turn after the first has a shorter buffer, so one more fuel than bytes suffices. -/
def feedLoop (bound : Nat) : Nat → List Byte → Hst → Hst
  | 0, bs, h => { h with dmxBuf := bs }
  | fuel + 1, bs, h =>
    let r := scan bs.length bs h
    if r.1.length > bound then feedLoop bound fuel r.1.tail (raiseHost .dmxOverflow r.2)
    else { r.2 with dmxBuf := r.1 }

/-- `DMX_FEED chunk` on HOST at a buffer bound (R203). -/
def dmxFeedWith (bound : Nat) (chunk : List Byte) (h : Hst) : Hst :=
  feedLoop bound ((h.dmxBuf ++ chunk).length + 1) (h.dmxBuf ++ chunk) h

/-- `DMX_FEED chunk` on HOST (R203). -/
def dmxFeed (chunk : List Byte) (h : Hst) : Hst := dmxFeedWith Config.dmxMaxBuf chunk h

/-! ## Meanings -/

/-- `DMX_FEED` (R203). -/
def execDmxFeed (inst : Inst) (chunk : List Byte) (s : State) : Answer :=
  hostOp inst s fun h => .ok (dmxFeed chunk h, .nothing)

/-- The bytes of a wire frame arrive at HOST as one chunk (R57, R203; log 13). -/
def wireArrives (bytes : List Byte) (s : State) : Answer :=
  runHost (fun h => .ok (dmxFeed bytes h, .nothing)) s

/-- `FRAME_THERMAL` (R81). -/
def execFrameThermal (words : List U16) (s : State) : Answer :=
  wireArrives (tagThermal ++ leWords words) s

/-- `FRAME_AUDIO` (R82). -/
def execFrameAudio (seq : U16) (predictor : Sample) (stepIndex : Byte) (payload : List Byte) (s : State) : Answer :=
  wireArrives (tagAudio ++ (le16 seq ++ (le16 predictor ++ (stepIndex :: payload)))) s

/-- `FRAME_BTN` (R83). -/
def execFrameBtn (line : List Byte) (s : State) : Answer := wireArrives (tagBtn ++ line) s

/-- `FRAME_DEBUG` (R84). -/
def execFrameDebug (line : List Byte) (s : State) : Answer := wireArrives (tagDebug ++ line) s

/-- `FRAME_LEGACY_AA55` (R92): not recognised, so the scan treats it as any other bytes (R93, R94). -/
def execFrameLegacyAA55 (button : Byte) (payload : List Byte) (s : State) : Answer :=
  wireArrives (tagLegacyAA55 ++ (button :: payload)) s

/-- `FRAME_LEGACY_CSV` (R93): a text start whose line is malformed. -/
def execFrameLegacyCsv (line : List Byte) (s : State) : Answer := wireArrives (tagLegacyCsv ++ line) s

end Sys2Proof.Machine
end

