-- ==== Sys2Proof/Machine/Builder.lean ====
section
/-! DEFINITION. The frame builder and the multiplexer, units U3 and U4: the frame constructors of 42_frame_builder_mux
R174, R175, R180, the operations `AUD_PUSH`, `THM_PUSH`, `BTN_POLL`, `DBG_TEXT` and the transmitter's `TX_STEP`. -/

namespace Sys2Proof.Machine

/-! ## Frame constructors -/

/-- `MkAudioFrame(seq, p, i, buf)` (R174). -/
def mkAudioFrame (seq : U16) (p : Sample) (i : Byte) (buf : List Byte) : List Byte :=
  tagAudio ++ (le16 seq ++ (le16 p ++ (i :: buf)))

/-- `MkThermalFrame(words)` (R175). -/
def mkThermalFrame (words : List U16) : List Byte := tagThermal ++ leWords words

/-- `MkBtnFrame(n)` (R180). -/
def mkBtnFrame (n : BitVec 2) : List Byte := tagBtn ++ [0x30 + n.zeroExtend 8, 0x0A]

/-- `MkDbgFrame(text)` (R180). -/
def mkDbgFrame (text : List Byte) : List Byte := tagDebug ++ (text ++ [0x0A])

/-! ## Audio packetizer -/

/-- Header capture: at `pkt.count = 0` the encoder's state is copied (R171). -/
def captureHeader (d : Dev) : Dev :=
  if d.pkt.count = 0 then
    { d with pkt := { d.pkt with hdrPredictor := d.enc.predictor, hdrStepIndex := d.enc.stepIndex.zeroExtend 8 } }
  else d

/-- The payload byte with a code packed into it: the low nibble with a zero high nibble for an even count, the high
nibble alone for an odd one (R172). -/
def packNibble (count : BitVec 7) (old : Byte) (n : Nibble) : Byte :=
  if count.getLsbD 0 then n ++ old.extractLsb' 0 4 else n.zeroExtend 8

/-- The code goes to `pkt.buf[pkt.count >> 1]`, and the count advances (R170, R172). -/
def packCode (n : Nibble) (d : Dev) : Dev :=
  let j := d.pkt.count.toNat >>> 1
  { d with pkt := { d.pkt with
      buf := d.pkt.buf.setIfInBounds j (packNibble d.pkt.count (d.pkt.buf.toList.getD j 0) n)
      count := d.pkt.count + 1 } }

/-- At 118 samples the frame is offered, the sequence number advances, accepted or not, and the next packet starts
(R170, R173). -/
def completePacket (d : Dev) : Dev :=
  if d.pkt.count.toNat = Config.samplesPerPacket then
    let d1 := (emit .aud (mkAudioFrame d.pkt.seq d.pkt.hdrPredictor d.pkt.hdrStepIndex d.pkt.buf.toList) d).1
    { d1 with pkt := { d1.pkt with seq := d1.pkt.seq + 1, count := 0 } }
  else d

/-- `AUD_PUSH pcm` on DEV (R170). -/
def audPush (pcm : Sample) (d : Dev) : Except Fault Dev :=
  if d.pkt.count.toNat < Config.samplesPerPacket then
    (encSample pcm (captureHeader d)).map fun r => completePacket (packCode r.2 r.1)
  else .error .packetIndexOutsideBuffer

/-! ## Thermal frame builder -/

/-- The word goes to `thf.words[thf.count]`, and the count advances (R176). -/
def storeWord (w : U16) (d : Dev) : Dev :=
  { d with thf := { words := d.thf.words.setIfInBounds d.thf.count.toNat w, count := d.thf.count + 1 } }

/-- At 768 pixels the frame is offered and the next one starts (R176). -/
def completeThermal (d : Dev) : Dev :=
  if d.thf.count.toNat = Config.thermalPixels then
    let d1 := (emit .thm (mkThermalFrame d.thf.words.toList) d).1
    { d1 with thf := { d1.thf with count := 0 } }
  else d

/-- `THM_PUSH b` on DEV (R176). -/
def thmPush (b : F32) (d : Dev) : Except Fault Dev :=
  if d.thf.count.toNat < Config.thermalPixels then
    .ok (completeThermal (storeWord (qEnc b d).2 (qEnc b d).1))
  else .error .thermalIndexOutsideBuffer

/-! ## Button events and debug text -/

/-- `BTN_POLL n` on DEV: an event on a change, remembered only when its frame was accepted (R178). -/
def btnPoll (n : BitVec 2) (d : Dev) : Dev :=
  if n.toNat > Config.buttonMax then raiseDev .btnRange d
  else if n = d.btnLast then d
  else
    let r := emit .btn (mkBtnFrame n) d
    if r.2 then { r.1 with btnLast := n } else r.1

/-- Whether `DBG_TEXT` refuses a text at a bound: too long, or a line feed in it (R179). -/
def textRefusedWith (bound : Nat) (text : List Byte) : Bool :=
  decide (text.length > bound) || text.contains 0x0A

/-- `DBG_TEXT text` on DEV (R179). -/
def dbgText (text : List Byte) (d : Dev) : Dev :=
  if textRefusedWith Config.dbgMax text then raiseDev .dbgRefused d
  else (emit .dbg (mkDbgFrame text) d).1

/-! ## Transmitter -/

/-- The sources whose queue is not empty (R184). -/
def pendingSources (q : Txq) : List Src :=
  [Src.aud, .btn, .thm, .dbg].filter fun src => !(txqOf q src).isEmpty

/-- Whether `TX_STEP` is enabled (R184). -/
def txEnabled (d : Dev) : Bool := !d.halted && (d.tx.busy || !(pendingSources d.txq).isEmpty)

/-- The head of a queue becomes the frame in flight (R184). -/
def startFrame (src : Src) (d : Dev) : Dev :=
  { d with
      tx := { busy := true, frame := (txqOf d.txq src).headD [], idx := 0 }
      txq := txqWith d.txq src (txqOf d.txq src).tail }

/-- While no frame is in flight the arbiter draws a source among those with a frame (R184, R186). -/
def selectFrame (d : Dev) : Dev :=
  if d.tx.busy then d
  else
    match drawFrom (Config.drawArbiter d.draws) (pendingSources d.txq) with
    | some src => startFrame src { d with draws := d.draws + 1 }
    | none => d

/-- One byte of the frame in flight goes to the sink; the last one ends the frame (R184). -/
def writeByte (d : Dev) : Except Fault Dev :=
  match d.tx.frame[d.tx.idx]? with
  | some b =>
    .ok { d with
      sink := d.sink ++ [b]
      tx := { d.tx with idx := d.tx.idx + 1, busy := d.tx.idx + 1 != d.tx.frame.length } }
  | none => .error .txIndexOutsideFrame

/-- `TX_STEP` on DEV (R184); nothing happens where it is not enabled (log 3). -/
def txStep (d : Dev) : Except Fault Dev :=
  if txEnabled d then writeByte (selectFrame d) else .ok d

/-! ## Meanings -/

/-- `AUD_PUSH` (R170). -/
def execAudPush (inst : Inst) (pcm : Sample) (s : State) : Answer :=
  devOp inst s fun d => (audPush pcm d).map fun d1 => (d1, .nothing)

/-- `THM_PUSH` (R176). -/
def execThmPush (inst : Inst) (temp : F32) (s : State) : Answer :=
  devOp inst s fun d => (thmPush temp d).map fun d1 => (d1, .nothing)

/-- `BTN_POLL` (R178). -/
def execBtnPoll (inst : Inst) (count : BitVec 2) (s : State) : Answer :=
  devOp inst s fun d => .ok (btnPoll count d, .nothing)

/-- `DBG_TEXT` (R179). -/
def execDbgText (inst : Inst) (text : List Byte) (s : State) : Answer :=
  devOp inst s fun d => .ok (dbgText text d, .nothing)

/-- `TX_STEP` (R184): no command, so no refusal while halted; it is then not enabled. -/
def execTxStep (s : State) : Answer :=
  runDev (fun d => (txStep d).map fun d1 => (d1, .nothing)) s

end Sys2Proof.Machine
end

