-- ==== Sys2Proof/Machine/Pseudo.lean ====
section
/-! DEFINITION. The pseudo-operations of 30_encoding R98: fixed sequences of operations of DEV, run one after the
other in one step of the model (log 14). -/

namespace Sys2Proof.Machine

/-- `AUD_PACKET`: one `AUD_PUSH` for each sample, in order (R98). -/
def execAudPacket (samples : List Sample) (s : State) : Answer :=
  runSequence (execAudPush .dev) samples s

/-- `THM_FRAME`: one `THM_PUSH` for each pixel, in order (R98). -/
def execThmFrame (temps : List F32) (s : State) : Answer :=
  runSequence (execThmPush .dev) temps s

/-- `THM_ZERO`: `THM_FRAME` with all 768 operands `0x00000000` (R98, R177). -/
def execThmZero (s : State) : Answer :=
  runSequence (execThmPush .dev) (List.replicate Config.thermalPixels 0) s

end Sys2Proof.Machine
end

