-- ==== Sys2Proof/Machine/Reserved.lean ====
section
/-! DEFINITION. The reserved operation codes of 30_encoding R97: each raises `OpRefused` in the instance it is presented
to and changes nothing else. -/

namespace Sys2Proof.Machine

/-- `RESERVED_0A` (R97). -/
def execReserved0A (inst : Inst) (s : State) : Answer := refuseAt inst s

/-- `RESERVED_0B` (R97). -/
def execReserved0B (inst : Inst) (s : State) : Answer := refuseAt inst s

/-- `RESERVED_0C` (R97). -/
def execReserved0C (inst : Inst) (s : State) : Answer := refuseAt inst s

/-- `RESERVED_0D` (R97). -/
def execReserved0D (inst : Inst) (s : State) : Answer := refuseAt inst s

/-- `RESERVED_0E` (R97). -/
def execReserved0E (inst : Inst) (s : State) : Answer := refuseAt inst s

/-- `RESERVED_0F` (R97). -/
def execReserved0F (inst : Inst) (s : State) : Answer := refuseAt inst s

/-- `RESERVED_19` (R97). -/
def execReserved19 (inst : Inst) (s : State) : Answer := refuseAt inst s

/-- `RESERVED_1A` (R97). -/
def execReserved1A (inst : Inst) (s : State) : Answer := refuseAt inst s

/-- `RESERVED_1B` (R97). -/
def execReserved1B (inst : Inst) (s : State) : Answer := refuseAt inst s

/-- `RESERVED_1C` (R97). -/
def execReserved1C (inst : Inst) (s : State) : Answer := refuseAt inst s

/-- `RESERVED_1D` (R97). -/
def execReserved1D (inst : Inst) (s : State) : Answer := refuseAt inst s

/-- `RESERVED_1E` (R97). -/
def execReserved1E (inst : Inst) (s : State) : Answer := refuseAt inst s

/-- `RESERVED_1F` (R97). -/
def execReserved1F (inst : Inst) (s : State) : Answer := refuseAt inst s

end Sys2Proof.Machine
end

