-- ==== Sys2Proof/Machine/System.lean ====
section
/-! DEFINITION. The system operations of 45_system_ops: `NOP`, `HW_RESET`, `SESSION_RESET`, `DEV_INIT`, `RD_DSTATUS`,
`RD_HSTATUS`. -/

namespace Sys2Proof.Machine

/-- `DEV_INIT` on DEV: a failed audio initialisation halts it; the sensor's outcome is not recorded (R262). -/
def devInit (audioOk _thermalOk : Bool) (d : Dev) : Dev :=
  if audioOk then d else raiseDev .audioInitFatal d

/-- `NOP`, accepted by both instances and while halted (R265). -/
def execNop (inst : Inst) (s : State) : Answer :=
  match inst with
  | .dev => .next { s with result := .nothing }
  | .host => .next { s with result := .nothing }

/-- `HW_RESET` of one instance, accepted in every state (R42, R260). -/
def execHwReset (inst : Inst) (s : State) : Answer :=
  match inst with
  | .dev => .next { s with dev := resetDev s.dev, result := .nothing }
  | .host => .next { s with host := resetHost s.host, result := .nothing }

/-- `SESSION_RESET` (R261): on HOST the same effect as its `HW_RESET` (R42). -/
def execSessionReset (inst : Inst) (s : State) : Answer :=
  hostOp inst s fun h => .ok (resetHost h, .nothing)

/-- `DEV_INIT` (R262). -/
def execDevInit (inst : Inst) (audioOk thermalOk : Bool) (s : State) : Answer :=
  devOp inst s fun d => .ok (devInit audioOk thermalOk d, .nothing)

/-- `RD_DSTATUS`, accepted while halted (R263). -/
def execRdDstatus (inst : Inst) (s : State) : Answer :=
  devOpAlways inst s fun d => .ok (d, .word (d.dstatus.zeroExtend 32))

/-- `RD_HSTATUS` (R264). -/
def execRdHstatus (inst : Inst) (s : State) : Answer :=
  hostOp inst s fun h => .ok (h, .word (h.hstatus.zeroExtend 32))

end Sys2Proof.Machine
end

