-- ==== Sys2Proof/Machine/Dispatch.lean ====
section
/-! DEFINITION. One arm for each instruction. -/

namespace Sys2Proof.Machine

def exec (i : Instr) (s : State) : Host.Outcome State Fault Refusal :=
  match i with
  | .nop inst => Sys2Proof.Machine.execNop inst s
  | .encSample inst pcm => Sys2Proof.Machine.execEncSample inst pcm s
  | .encRdstate inst => Sys2Proof.Machine.execEncRdstate inst s
  | .audPush inst pcm => Sys2Proof.Machine.execAudPush inst pcm s
  | .qEnc inst temp => Sys2Proof.Machine.execQEnc inst temp s
  | .thmPush inst temp => Sys2Proof.Machine.execThmPush inst temp s
  | .btnPoll inst count => Sys2Proof.Machine.execBtnPoll inst count s
  | .dbgText inst text => Sys2Proof.Machine.execDbgText inst text s
  | .devInit inst audioOk thermalOk => Sys2Proof.Machine.execDevInit inst audioOk thermalOk s
  | .rdDstatus inst => Sys2Proof.Machine.execRdDstatus inst s
  | .decLoad inst predictor stepIndex => Sys2Proof.Machine.execDecLoad inst predictor stepIndex s
  | .decNibble inst code => Sys2Proof.Machine.execDecNibble inst code s
  | .decPacket inst frame => Sys2Proof.Machine.execDecPacket inst frame s
  | .qDec inst word => Sys2Proof.Machine.execQDec inst word s
  | .thmDecode inst frame => Sys2Proof.Machine.execThmDecode inst frame s
  | .dmxFeed inst chunk => Sys2Proof.Machine.execDmxFeed inst chunk s
  | .recPacket inst frame => Sys2Proof.Machine.execRecPacket inst frame s
  | .sessionReset inst => Sys2Proof.Machine.execSessionReset inst s
  | .rdHstatus inst => Sys2Proof.Machine.execRdHstatus inst s
  | .reserved0A inst => Sys2Proof.Machine.execReserved0A inst s
  | .reserved0B inst => Sys2Proof.Machine.execReserved0B inst s
  | .reserved0C inst => Sys2Proof.Machine.execReserved0C inst s
  | .reserved0D inst => Sys2Proof.Machine.execReserved0D inst s
  | .reserved0E inst => Sys2Proof.Machine.execReserved0E inst s
  | .reserved0F inst => Sys2Proof.Machine.execReserved0F inst s
  | .reserved19 inst => Sys2Proof.Machine.execReserved19 inst s
  | .reserved1A inst => Sys2Proof.Machine.execReserved1A inst s
  | .reserved1B inst => Sys2Proof.Machine.execReserved1B inst s
  | .reserved1C inst => Sys2Proof.Machine.execReserved1C inst s
  | .reserved1D inst => Sys2Proof.Machine.execReserved1D inst s
  | .reserved1E inst => Sys2Proof.Machine.execReserved1E inst s
  | .reserved1F inst => Sys2Proof.Machine.execReserved1F inst s
  | .hwReset inst => Sys2Proof.Machine.execHwReset inst s
  | .txStep => Sys2Proof.Machine.execTxStep s
  | .audPacket samples => Sys2Proof.Machine.execAudPacket samples s
  | .thmFrame temps => Sys2Proof.Machine.execThmFrame temps s
  | .thmZero => Sys2Proof.Machine.execThmZero s
  | .frameThermal words => Sys2Proof.Machine.execFrameThermal words s
  | .frameAudio seq predictor stepIndex payload => Sys2Proof.Machine.execFrameAudio seq predictor stepIndex payload s
  | .frameBtn line => Sys2Proof.Machine.execFrameBtn line s
  | .frameDebug line => Sys2Proof.Machine.execFrameDebug line s
  | .frameLegacyAA55 button payload => Sys2Proof.Machine.execFrameLegacyAA55 button payload s
  | .frameLegacyCsv line => Sys2Proof.Machine.execFrameLegacyCsv line s
  | .adpcmCode code => Sys2Proof.Machine.execAdpcmCode code s

end Sys2Proof.Machine
end

