-- ==== Sys2Proof/Machine/Fetch.lean ====
section
/-! DEFINITION. What the next step runs: the request at the head of `pending`, decoded; and where none is pending, the
transmitter's own step (logs 1 and 2). -/

namespace Sys2Proof.Machine

/-- The request at the head of `pending`, with the state in which its instruction runs: the request is taken off, the
bytes behind a wire frame stay to be presented (log 1). -/
def fetch (s : State) : Option (Request × State) :=
  match s.pending with
  | [] => none
  | r :: rest => some (r, { s with pending := leftover r ++ rest })

/-- A step in which nothing is presented: `TX_STEP` if it is enabled, else no change (R184; log 2). -/
def idleStep (s : State) : Answer := execTxStep s

/-- The request of a word of the opcode table at the head of `pending`, before all others (log 1). -/
def presentWord (s : State) (nbits w : Nat) : State :=
  { s with pending := tableRequest nbits w :: s.pending }

end Sys2Proof.Machine
end

