-- ==== Sys2Proof/Machine/Step.lean ====
section
/-! DEFINITION. One step of the machine: the request that is presented next is decoded and its instruction executed. -/

namespace Sys2Proof.Machine

/-- One step (R13): the next request's instruction, or the transmitter's own step where nothing is presented. No request
stops the block (R57, R58). -/
def step (s : State) : Host.Outcome State Fault Refusal :=
  match fetch s with
  | none => idleStep s
  | some (r, s1) => exec (requestedInstr r) s1

/-- `s` with the instruction of a word of the opcode table presented first, so that the next step runs it (log 1). -/
def State.withFetchWord (s : State) (nbits w : Nat) : State := presentWord s nbits w

end Sys2Proof.Machine
end

