-- ==== Sys2Proof/WellFormed.lean ====
section
/-! DEFINITION. What the encodings of 30_encoding can carry: the lengths of the binary frames and of the
pseudo-operations' operands, and the form of the text lines. -/

namespace Sys2Proof

/-- A line that ends at its first `0A` (R83, R84, R100). -/
def lineTerminated : List Byte → Bool
  | [] => false
  | b :: bs => if b = 0x0A then bs.isEmpty else lineTerminated bs

/-- The rest of a button line: one digit `30`..`32` and `0A` (R83). -/
def buttonLine (line : List Byte) : Bool :=
  line == [0x30, 0x0A] || line == [0x31, 0x0A] || line == [0x32, 0x0A]

/-- The rest of a debug line: text without `0A`, then `0A` (R84). DEV's bound `DBG_MAX` on the text is checked by
`DBG_TEXT` (R179); a receiver accepts a line of any length (R89). -/
def debugLine (line : List Byte) : Bool := lineTerminated line

/-- A well-formed instruction: every operand is one its encoding carries. The coded operations' operands are bounded by
their types; an operand that an operation itself refuses (a button count of 3, a step index above 88) is
well-formed. -/
def Instr.wf : Instr → Bool
  | .nop _ => true
  | .encSample _ _ => true
  | .encRdstate _ => true
  | .audPush _ _ => true
  | .qEnc _ _ => true
  | .thmPush _ _ => true
  | .btnPoll _ _ => true
  | .dbgText _ _ => true
  | .devInit _ _ _ => true
  | .rdDstatus _ => true
  | .decLoad _ _ _ => true
  | .decNibble _ _ => true
  | .decPacket _ _ => true
  | .qDec _ _ => true
  | .thmDecode _ _ => true
  | .dmxFeed _ _ => true
  | .recPacket _ _ => true
  | .sessionReset _ => true
  | .rdHstatus _ => true
  | .reserved0A _ => true
  | .reserved0B _ => true
  | .reserved0C _ => true
  | .reserved0D _ => true
  | .reserved0E _ => true
  | .reserved0F _ => true
  | .reserved19 _ => true
  | .reserved1A _ => true
  | .reserved1B _ => true
  | .reserved1C _ => true
  | .reserved1D _ => true
  | .reserved1E _ => true
  | .reserved1F _ => true
  | .hwReset _ => true
  | .txStep => true
  | .audPacket samples => samples.length == Config.samplesPerPacket
  | .thmFrame temps => temps.length == Config.thermalPixels
  | .thmZero => true
  | .frameThermal words => words.length == Config.thermalPixels
  | .frameAudio _ _ _ payload => payload.length == Config.payloadBytes
  | .frameBtn line => buttonLine line
  | .frameDebug line => debugLine line
  | .frameLegacyAA55 _ payload => payload.length == 1536
  | .frameLegacyCsv line => lineTerminated line
  | .adpcmCode _ => true

end Sys2Proof
end

