-- ==== Sys2Proof/Safety.lean ====
section
/-! DEFINITION. The terms that claims about the block use: whole frames (30_encoding R81 to R84), the invariant of
reachable states (10_state R43), the sink as a history of whole frames (42_frame_builder_mux R185), the owner of an
instruction (00_scope R3), and exact values of `f32` patterns (41_thermal_quantizer R159). -/

namespace Sys2Proof.Machine

/-! ## Whole frames -/

/-- A button frame (R83). -/
def isBtnFrame (f : List Byte) : Bool :=
  f == mkBtnFrame 0 || f == mkBtnFrame 1 || f == mkBtnFrame 2

/-- A debug frame with a text DEV may send (R84). -/
def IsDbgFrame (f : List Byte) : Prop :=
  ∃ text : List Byte, text.length ≤ Config.dbgMax ∧ (0x0A : Byte) ∉ text ∧ f = mkDbgFrame text

/-- An audio frame with a step index in its range (R82). -/
def isAudioFrameInRange (f : List Byte) : Bool :=
  isAudioFrame f && decide ((frameStepIndex f).toNat ≤ Config.stepIndexMax)

/-- A whole frame of the format that a source emits (R80, R81 to R84). -/
def FrameOf : Src → List Byte → Prop
  | .aud, f => isAudioFrameInRange f = true
  | .thm, f => isThermalFrame f = true
  | .btn, f => isBtnFrame f = true
  | .dbg, f => IsDbgFrame f

/-- A whole frame of one of the four formats (R80). -/
def WholeFrame (f : List Byte) : Prop := ∃ src, FrameOf src f

/-! ## Invariants of reachable states -/

/-- What R43 says of DEV, with the bounds of R20, R29 and R32. -/
structure DevInv (d : Dev) : Prop where
  encIndex : d.enc.stepIndex.toNat ≤ 88
  packetCount : d.pkt.count.toNat ≤ 117
  headerIndex : d.pkt.hdrStepIndex.toNat ≤ 88
  thermalCount : d.thf.count.toNat ≤ 767
  thermalWords : ∀ w ∈ d.thf.words.toList, w.toNat ≤ 400
  button : d.btnLast.toNat ≤ 2
  queueDepth : ∀ src, (txqOf d.txq src).length ≤ Config.txqDepth src
  queueFrames : ∀ src, ∀ f ∈ txqOf d.txq src, FrameOf src f
  inFlight : d.tx.busy = true → WholeFrame d.tx.frame ∧ d.tx.idx < d.tx.frame.length
  haltedBit : dstatusHas d.dstatus .audioInitFatal = d.halted
  dstatusUnused : d.dstatus.extractLsb' 6 10 = 0

/-- What R43 says of HOST, with the bounds of R33 and R37, and that the buffer waits for more bytes (R203 e). -/
structure HostInv (h : Hst) : Prop where
  decIndex : h.dec.stepIndex.toNat ≤ 88
  bufferBound : h.dmxBuf.length ≤ Config.dmxMaxBuf
  bufferWaits : scanItem h.dmxBuf = .wait
  hstatusUnused : h.hstatus.extractLsb' 8 8 = 0

/-- The invariant of both instances (R43). -/
structure BlockInv (s : State) : Prop where
  dev : DevInv s.dev
  host : HostInv s.host

/-! ## The sink as a history of whole frames -/

/-- The bytes of the frame in flight that are already on the sink (R185). -/
def inFlightBytes (tx : Tx) : List Byte := if tx.busy then tx.frame.take tx.idx else []

/-- The frame in flight as one of a source's frames, where that source is the one it was taken from. -/
def inFlightOf (origin src : Src) (tx : Tx) : List (List Byte) :=
  if tx.busy ∧ origin = src then [tx.frame] else []

/-- The frames of one source among frames with their sources. -/
def framesOf (src : Src) (sent : List (Src × List Byte)) : List (List Byte) :=
  (sent.filter fun p => p.1 == src).map Prod.snd

/-- R185 as a relation between DEV and the frames `accepted src` that `Emit` has accepted from each source, in the order
of acceptance: the sink is a sequence of whole frames followed by the bytes of the frame in flight, and the accepted
frames of a source are, in order, those already sent, the one in flight, and those queued. -/
def SinkHistory (accepted : Src → List (List Byte)) (d : Dev) : Prop :=
  ∃ (sent : List (Src × List Byte)) (origin : Src),
    d.sink = (sent.map Prod.snd).flatten ++ inFlightBytes d.tx ∧
    (∀ src, accepted src = framesOf src sent ++ inFlightOf origin src d.tx ++ txqOf d.txq src)

/-! ## Ownership -/

/-- The instance whose state an instruction may touch (R3, R67, R97). -/
def touches : Instr → Inst
  | .nop inst => inst
  | .encSample inst _ => inst
  | .encRdstate inst => inst
  | .audPush inst _ => inst
  | .qEnc inst _ => inst
  | .thmPush inst _ => inst
  | .btnPoll inst _ => inst
  | .dbgText inst _ => inst
  | .devInit inst _ _ => inst
  | .rdDstatus inst => inst
  | .decLoad inst _ _ => inst
  | .decNibble inst _ => inst
  | .decPacket inst _ => inst
  | .qDec inst _ => inst
  | .thmDecode inst _ => inst
  | .dmxFeed inst _ => inst
  | .recPacket inst _ => inst
  | .sessionReset inst => inst
  | .rdHstatus inst => inst
  | .reserved0A inst => inst
  | .reserved0B inst => inst
  | .reserved0C inst => inst
  | .reserved0D inst => inst
  | .reserved0E inst => inst
  | .reserved0F inst => inst
  | .reserved19 inst => inst
  | .reserved1A inst => inst
  | .reserved1B inst => inst
  | .reserved1C inst => inst
  | .reserved1D inst => inst
  | .reserved1E inst => inst
  | .reserved1F inst => inst
  | .hwReset inst => inst
  | .txStep => .dev
  | .audPacket _ => .dev
  | .thmFrame _ => .dev
  | .thmZero => .dev
  | .frameThermal _ => .host
  | .frameAudio _ _ _ _ => .host
  | .frameBtn _ => .host
  | .frameDebug _ => .host
  | .frameLegacyAA55 _ _ => .host
  | .frameLegacyCsv _ => .host
  | .adpcmCode _ => .host

/-- The instance a request is presented to. -/
def presentedTo : Request → Inst
  | .command inst _ _ _ => inst
  | .resetInput inst => inst
  | .txStep => .dev
  | .audPacket _ => .dev
  | .thmFrame _ => .dev
  | .thmZero => .dev
  | .wire _ => .host
  | .nibble _ => .host

/-- The state after `OpRefused` at an instance (R97, R280 E6). -/
def refusedState (inst : Inst) (s : State) : State :=
  match inst with
  | .dev => { s with dev := { s.dev with dstatus := s.dev.dstatus ||| 0x20 }, result := .nothing }
  | .host => { s with host := { s.host with hstatus := s.host.hstatus ||| 0x80 }, result := .nothing }

/-- Whether a code is none of the instance's own: reserved, or the other instance's (R95, R97). -/
def codeRefused (inst : Inst) (op : BitVec 5) : Bool :=
  match inst with
  | .dev => decide (op.toNat ≥ 0x0A)
  | .host => decide (1 ≤ op.toNat ∧ op.toNat ≤ 0x0F) || decide (op.toNat ≥ 0x19)

/-! ## The configuration -/

/-- The configuration that HOST holds (R8, R315; log 18). -/
def hostConfig (h : Hst) : Config.GapThreshold × Config.Trend := (h.gapThreshold, h.trend)

/-! ## Runs that went wrong -/

/-- No fault bit of E1 to E6 is set in DEV (R296). -/
def devClean (d : Dev) : Bool := d.dstatus &&& 0x3F == 0

/-- No fault bit of E6 to E10 is set in HOST; the event bits V1 to V3 are not faults (R296). -/
def hostClean (h : Hst) : Bool := h.hstatus &&& 0x8F == 0

/-! ## Reference values -/

/-- The exact value of a finite pattern (R159). -/
def valQ (b : F32) : Option ℚ :=
  let e := (b.extractLsb' 23 8).toNat
  let m := (b.extractLsb' 0 23).toNat
  let sign : ℚ := if b.getLsbD 31 then -1 else 1
  if e = 255 then none
  else if e = 0 then some (sign * m * (2 : ℚ) ^ (-149 : Int))
  else some (sign * (2 ^ 23 + m) * (2 : ℚ) ^ ((e : Int) - 150))

/-- `Trend(k, M)` as HOST is configured with it (R238). -/
def trendWeight (t : Config.Trend) (k m : Nat) : ℚ := ((trendOf t k m).1 : ℚ) / (trendOf t k m).2

/-- The encoder's predictor after each of the samples (R127). -/
def encTrack (c : Codec) : List Sample → List Sample
  | [] => []
  | x :: xs => (encStep c x).1.predictor :: encTrack (encStep c x).1 xs

/-- The codes the encoder gives for the samples, in order (R127). -/
def encCodes (c : Codec) : List Sample → List Nibble
  | [] => []
  | x :: xs => (encStep c x).2 :: encCodes (encStep c x).1 xs

/-- The encoder's state after the samples. -/
def encRun (c : Codec) : List Sample → Codec
  | [] => c
  | x :: xs => encRun (encStep c x).1 xs

/-- The delta that R122 writes, for a code and a step. -/
def deltaSpec (n : Nibble) (step : Nat) : Nat :=
  step / 8 + (if n.getLsbD 2 then step else 0) + (if n.getLsbD 1 then step / 2 else 0) +
    (if n.getLsbD 0 then step / 4 else 0)

/-- A frame as the demultiplexer dispatches it when it stands whole in the buffer (R205, R207). -/
def receive (f : List Byte) (h : Hst) : Hst :=
  if byteAt f 0 = Config.sync then dispatch f h else dispatchText f.dropLast h

/-- A frame that a receiver takes whole: a binary frame of its fixed length, or a text line begun by `b` or `d` and ended by
its first `0A` (R100, R205, R206). -/
def ReceivableFrame (f : List Byte) : Prop :=
  isAudioFrame f = true ∨ isThermalFrame f = true ∨
    ((byteAt f 0 = 0x62 ∨ byteAt f 0 = 0x64) ∧ lineTerminated f = true)

/-- `DMX_FEED` of the chunk itself overflows (R209): it sets `DMX_OVF` even where the status word was clear before it, so
that a bit left set by an earlier feed does not count. -/
def feedOverflows (chunk : List Byte) (h : Hst) : Bool :=
  hstatusHas (dmxFeed chunk { h with hstatus := 0 }).hstatus .dmxOverflow

/-- Bytes that hold no start pattern (R215): no `62`, no `64`, and no `CA` followed by a recognised type byte. -/
def noStart : List Byte → Bool
  | [] => true
  | [c] => c != 0x62 && c != 0x64
  | c :: t :: rest => c != 0x62 && c != 0x64 && !(c == Config.sync && (frameLen t).isSome) && noStart (t :: rest)

end Sys2Proof.Machine
end

