-- ==== Sys2Proof/Certificates/Slice0/Obligations.lean ====
section
/-! DEFINITION. The statements for the provers. The docstring of each names the rules of spec/ it formalises. A clause that
rests on a choice of the model names its log entry. -/

open Sys2Proof Sys2Proof.Machine

/-! ## Reset, system operations, refusals -/

/-- The state after reset holds the reset values of R20 and R310, at the default configuration of R8 (held in HOST: the
model's choice, log 18). That the histories are empty, the counters of draws 0,
the result nothing and no request pending is the model's choice (log 7). -/
def Obligations.ResetStateHoldsResetValues : Prop :=
  State.reset.dev =
      { enc := ⟨0, 0⟩, pkt := ⟨0, 0, 0, 0, Vector.replicate 59 0⟩, thf := ⟨0, Vector.replicate 768 0⟩, btnLast := 0,
        txq := ⟨[], [], [], []⟩, tx := ⟨false, [], 0⟩, halted := false, dstatus := 0, sink := [], draws := 0 } ∧
    State.reset.host =
      { dmxBuf := [], dec := ⟨0, 0⟩, recon := ⟨0, 0⟩, hstatus := 0, out := [], draws := 0, gapThreshold := 1000,
        trend := [] } ∧
    State.reset.result = .nothing ∧ State.reset.pending = []

/-- The state after reset meets the invariant of R43, with the bounds of R20, and its sink is the empty history. -/
def Obligations.ResetStateMeetsInvariant : Prop :=
  BlockInv State.reset ∧ SinkHistory (fun _ => []) State.reset.dev

/-- R42: each reset gives every element of its instance the reset value of R20; the histories are not erased and the
configuration stays. That the draw counters run on, the result is nothing and HOST holds the configuration is the
model's choice (logs 4, 7, 18). -/
def Obligations.ResetsGiveEveryElementItsResetValue : Prop :=
  ∀ s : State,
    exec (.hwReset .dev) s = .next { s with
      dev := { enc := ⟨0, 0⟩, pkt := ⟨0, 0, 0, 0, Vector.replicate 59 0⟩, thf := ⟨0, Vector.replicate 768 0⟩,
               btnLast := 0, txq := ⟨[], [], [], []⟩, tx := ⟨false, [], 0⟩, halted := false, dstatus := 0,
               sink := s.dev.sink, draws := s.dev.draws }
      result := .nothing } ∧
    exec (.hwReset .host) s = .next { s with
      host := { dmxBuf := [], dec := ⟨0, 0⟩, recon := ⟨0, 0⟩, hstatus := 0, out := s.host.out,
                draws := s.host.draws, gapThreshold := s.host.gapThreshold, trend := s.host.trend }
      result := .nothing } ∧
    exec (.sessionReset .host) s = exec (.hwReset .host) s ∧
    exec (.sessionReset .dev) s = .next (refusedState .dev s)

/-- R265: `NOP` is code 0 of both instances and changes nothing, halted or not. -/
def Obligations.NopChangesNothing : Prop :=
  ∀ (inst : Inst) (din : W32) (bulk : List Byte) (s : State),
    decode (.command inst 0x00 din bulk) = .ok (.nop inst) ∧
    exec (.nop inst) s = .next { s with result := .nothing }

/-- R263, R264: the status reads return the status word below 16 zero bits and change no state, halted or not. -/
def Obligations.StatusReadsReturnStatusWords : Prop :=
  ∀ (din : W32) (bulk : List Byte) (s : State),
    decode (.command .dev 0x09 din bulk) = .ok (.rdDstatus .dev) ∧
    exec (.rdDstatus .dev) s = .next { s with result := .word (0#16 ++ s.dev.dstatus : BitVec 32) } ∧
    decode (.command .host 0x18 din bulk) = .ok (.rdHstatus .host) ∧
    exec (.rdHstatus .host) s = .next { s with result := .word (0#16 ++ s.host.hstatus : BitVec 32) }

/-- R129: `ENC_RDSTATE` returns the predictor in bits 15:0 and the step index in bits 23:16, bits 31:24 being 0, and
changes nothing else; a halted DEV refuses it. That a refused operation returns no result is the model's choice (log
4). -/
def Obligations.EncRdstateReturnsCodecState : Prop :=
  ∀ (din : W32) (bulk : List Byte) (s : State),
    decode (.command .dev 0x02 din bulk) = .ok (.encRdstate .dev) ∧
    (s.dev.halted = true → exec (.encRdstate .dev) s = .next (refusedState .dev s)) ∧
    (s.dev.halted = false → ∃ w : W32,
      exec (.encRdstate .dev) s = .next { s with result := .word w } ∧
      w.extractLsb' 0 16 = s.dev.enc.predictor ∧
      (w.extractLsb' 16 8).toNat = s.dev.enc.stepIndex.toNat ∧
      w.extractLsb' 24 8 = 0)

/-- R262: `DEV_INIT` with a failed audio initialisation halts DEV and sets `HALTED`; with a good one it changes nothing,
whatever the sensor's outcome; a halted DEV refuses it. That a refused operation returns no result is the model's
choice (log 4). -/
def Obligations.DevInitHaltsOnAudioFailure : Prop :=
  ∀ (thermalOk : Bool) (s : State),
    (s.dev.halted = false →
      exec (.devInit .dev false thermalOk) s = .next { s with
        dev := { s.dev with halted := true, dstatus := s.dev.dstatus ||| 0x10 }, result := .nothing } ∧
      exec (.devInit .dev true thermalOk) s = .next { s with result := .nothing }) ∧
    (s.dev.halted = true → ∀ audioOk,
      exec (.devInit .dev audioOk thermalOk) s = .next (refusedState .dev s))

/-- R31, R262: while DEV is halted a `TX_STEP` is not enabled and writes nothing, and every well-formed instruction for
DEV but `NOP`, `RD_DSTATUS`, `HW_RESET` and `TX_STEP` does nothing but raise `OpRefused`. What the model answers to a
`TX_STEP` that is not enabled (log 3), that a refused operation returns no result (log 4), and that a pseudo-operation
is one step (log 14) are the model's choices. -/
def Obligations.HaltedDevRefusesEverythingElse : Prop :=
  ∀ (i : Instr) (s : State), s.dev.halted = true →
    exec .txStep s = .next { s with result := .nothing } ∧
    (i.wf = true → touches i = .dev → i ≠ .nop .dev → i ≠ .rdDstatus .dev → i ≠ .hwReset .dev → i ≠ .txStep →
      exec i s = .next (refusedState .dev s))

/-- R97: a code that is reserved, or the other instance's, decodes to an instruction that changes no state but the
`OP_REFUSED` bit of the instance it is presented to. That such a step returns no result is the model's choice (log 4). -/
def Obligations.RefusedCodesOnlySetOpRefused : Prop :=
  (∀ (inst : Inst) (op : BitVec 5) (din : W32) (bulk : List Byte) (s : State), codeRefused inst op = true →
    ∃ i, decode (.command inst op din bulk) = .ok i ∧ exec i s = .next (refusedState inst s)) ∧
  (∀ (inst : Inst) (s : State), ∀ i ∈ [Instr.reserved0A inst, .reserved0B inst, .reserved0C inst, .reserved0D inst,
      .reserved0E inst, .reserved0F inst, .reserved19 inst, .reserved1A inst, .reserved1B inst, .reserved1C inst,
      .reserved1D inst, .reserved1E inst, .reserved1F inst],
    exec i s = .next (refusedState inst s))

/-! ## The codec -/

/-- R122, R123, R124: `DeltaOf` is the sum of its terms and at most 61436; the predictor's sum is exact and saturates; the
index sum lies in -1..96 and saturates to 0..88. -/
def Obligations.CodecUpdateArithmetic : Prop :=
  ∀ (p : Sample) (i : BitVec 7) (n : Nibble) (step : Nat), step ≤ 32767 → i.toNat ≤ 88 →
    let v : Int := if n.getLsbD 3 then p.toInt - deltaSpec n step else p.toInt + deltaSpec n step
    let x : Int := i.toNat + Config.indexTable.getD n.toNat 0
    deltaOf n step = deltaSpec n step ∧ deltaSpec n step ≤ 61436 ∧ deltaOf 7 32767 = 61436 ∧ deltaOf 7 7 = 11 ∧
    -94204 ≤ v ∧ v ≤ 94203 ∧ (applyDelta p n step).toInt = max (-32768) (min 32767 v) ∧
    -1 ≤ x ∧ x ≤ 96 ∧ ((nextIndex i n).toNat : Int) = max 0 (min 88 x)

/-- R126, R128: `ENC_SAMPLE` returns the code whose bits are the sign and the greedy decomposition of the difference, and
moves the encoder's state by that code; nothing else changes. -/
def Obligations.EncSampleEmitsGreedyCode : Prop :=
  ∀ (s : State) (pcm : Sample), s.dev.halted = false → s.dev.enc.stepIndex.toNat ≤ 88 →
    ∃ (n : Nibble) (c : Codec),
      let step := Config.stepTable.getD s.dev.enc.stepIndex.toNat 0
      let p := s.dev.enc.predictor.toInt
      let diff := pcm.toInt - p
      let a := diff.natAbs
      let a1 := if step ≤ a then a - step else a
      let a2 := if step / 2 ≤ a1 then a1 - step / 2 else a1
      exec (.encSample .dev pcm) s =
        .next { s with dev := { s.dev with enc := c }, result := .word (0#28 ++ n : BitVec 32) } ∧
      n.getLsbD 3 = decide (diff < 0) ∧ n.getLsbD 2 = decide (step ≤ a) ∧
      n.getLsbD 1 = decide (step / 2 ≤ a1) ∧ n.getLsbD 0 = decide (step / 4 ≤ a2) ∧
      c.predictor.toInt =
        max (-32768) (min 32767 (if diff < 0 then p - deltaSpec n step else p + deltaSpec n step)) ∧
      (c.stepIndex.toNat : Int) =
        max 0 (min 88 (s.dev.enc.stepIndex.toNat + Config.indexTable.getD n.toNat 0))

/-- R125, R132, R85: `DEC_NIBBLE` and one `ADPCM_CODE` return the new predictor and move the decoder's state by the step
at the old index; nothing else changes. That an `ADPCM_CODE` runs so is the model's choice (log 13). -/
def Obligations.DecodersApplyTheCode : Prop :=
  ∀ (s : State) (n : Nibble), s.host.dec.stepIndex.toNat ≤ 88 →
    ∃ c : Codec,
      let step := Config.stepTable.getD s.host.dec.stepIndex.toNat 0
      let p := s.host.dec.predictor.toInt
      let t := { s with host := { s.host with dec := c }, result := .word (0#16 ++ c.predictor : BitVec 32) }
      exec (.decNibble .host n) s = .next t ∧ exec (.adpcmCode n) s = .next t ∧
      c.predictor.toInt =
        max (-32768) (min 32767 (if n.getLsbD 3 then p - deltaSpec n step else p + deltaSpec n step)) ∧
      (c.stepIndex.toNat : Int) =
        max 0 (min 88 (s.host.dec.stepIndex.toNat + Config.indexTable.getD n.toNat 0))

/-- R131: `DEC_LOAD`, code `0x10`, writes both parts of the decoder's state, or, at a step index above 88, nothing but
`BAD_STEPIDX`. -/
def Obligations.DecLoadChecksStepIndex : Prop :=
  (∀ (din : W32) (bulk : List Byte), decode (.command .host 0x10 din bulk) =
    .ok (.decLoad .host (din.extractLsb' 0 16) (din.extractLsb' 16 8))) ∧
  ∀ (s : State) (p : Sample) (i : Byte),
    (i.toNat ≤ 88 → ∃ j : BitVec 7, j.toNat = i.toNat ∧
      exec (.decLoad .host p i) s = .next { s with host := { s.host with dec := ⟨p, j⟩ }, result := .nothing }) ∧
    (88 < i.toNat →
      exec (.decLoad .host p i) s =
        .next { s with host := { s.host with hstatus := s.host.hstatus ||| 0x8 }, result := .nothing })

/-- R133: `DEC_PACKET` of an audio frame decodes its 118 codes from the header's state; at a bad step index it does
nothing but set `BAD_STEPIDX`, and any other operand is refused. That a refused operation returns no result is the
model's choice (log 4). -/
def Obligations.DecPacketDecodesFromHeader : Prop :=
  ∀ (s : State) (f : List Byte),
    (isAudioFrame f = true → (frameStepIndex f).toNat ≤ 88 →
      ∃ samples : List Sample, samples.length = 118 ∧
        samples = (decCodes ⟨framePredictor f, (frameStepIndex f).setWidth 7⟩ (frameCodes f)).2 ∧
        exec (.decPacket .host f) s = .next { s with
          host := { s.host with dec :=
            (decCodes ⟨framePredictor f, (frameStepIndex f).setWidth 7⟩ (frameCodes f)).1 }
          result := .packet (frameSeq f) samples } ∧
        (decCodes ⟨framePredictor f, (frameStepIndex f).setWidth 7⟩ (frameCodes f)).1.predictor =
          samples.getD 117 0) ∧
    (isAudioFrame f = true → 88 < (frameStepIndex f).toNat →
      exec (.decPacket .host f) s =
        .next { s with host := { s.host with hstatus := s.host.hstatus ||| 0x8 }, result := .nothing }) ∧
    (isAudioFrame f = false → exec (.decPacket .host f) s = .next (refusedState .host s))

/-- R98, R133: `DEC_PACKET` has the effect on HOST of its expansion, a `DEC_LOAD` of the header followed by 118
`DEC_NIBBLE`. -/
def Obligations.DecPacketEqualsItsExpansion : Prop :=
  ∀ (s : State) (f : List Byte), isAudioFrame f = true → (frameStepIndex f).toNat ≤ 88 →
    ∃ t u : State,
      exec (.decPacket .host f) s = .next t ∧
      (frameCodes f).length = 118 ∧
      runSequence exec (.decLoad .host (framePredictor f) (frameStepIndex f) ::
        (frameCodes f).map (fun n => Instr.decNibble .host n)) s = .next u ∧
      t.host = u.host ∧ t.dev = u.dev

/-- R134 b: what `DEC_PACKET` of an audio frame returns depends on the frame's bytes alone. -/
def Obligations.DecPacketIgnoresHostState : Prop :=
  ∀ (s1 s2 t1 t2 : State) (f : List Byte), isAudioFrame f = true →
    exec (.decPacket .host f) s1 = .next t1 → exec (.decPacket .host f) s2 = .next t2 → t1.result = t2.result

/-- R127: a decoder fed the encoder's code has the encoder's new state and outputs its predictor, after one code and
after every code of a sequence. -/
def Obligations.EncoderDecoderLockStep : Prop :=
  (∀ (c : Codec) (x : Sample), decStep c (encStep c x).2 = ((encStep c x).1, (encStep c x).1.predictor)) ∧
  (∀ (c : Codec) (xs : List Sample), decCodes c (encCodes c xs) = (encRun c xs, encTrack c xs))

/-- R98, R127, R170 to R173: `AUD_PACKET`, issued at `pkt.count = 0`, offers exactly one audio frame, and `DEC_PACKET`
of that frame on any HOST ends in the encoder's state and returns the encoder's predictor after each sample. That
the pseudo-operation is one step of the model is the model's choice (log 14). -/
def Obligations.AudioPacketDecodesToEncoderTrack : Prop :=
  ∀ (s h : State) (samples : List Sample), samples.length = 118 → s.dev.halted = false →
    s.dev.enc.stepIndex.toNat ≤ 88 → s.dev.pkt.count = 0 →
    ∃ (t u : State) (f : List Byte),
      exec (.audPacket samples) s = .next t ∧
      (if s.dev.txq.aud.length < Config.txqDepth .aud
        then t.dev.txq = { s.dev.txq with aud := s.dev.txq.aud ++ [f] } ∧ t.dev.dstatus = s.dev.dstatus
        else t.dev.txq = s.dev.txq ∧ t.dev.dstatus = s.dev.dstatus ||| 0x1) ∧
      t.dev.enc = encRun s.dev.enc samples ∧ t.dev.pkt.count = 0 ∧ t.dev.pkt.seq = s.dev.pkt.seq + 1 ∧
      t = { s with
        dev := { s.dev with enc := t.dev.enc, pkt := t.dev.pkt, txq := t.dev.txq, dstatus := t.dev.dstatus }
        result := .nothing } ∧
      exec (.decPacket .host f) h = .next u ∧ u.host.dec = t.dev.enc ∧
      u.result = .packet s.dev.pkt.seq (encTrack s.dev.enc samples)

/-! ## The thermal quantizer -/

/-- R150, R153: `Q_ENC` of a finite pattern returns `floor(10 * clamp(v) + 1/2)`; an infinity gives 400 or 0; a NaN sets
`Q_NAN` and gives a word of 0..400; nothing else changes. That a NaN counts one draw is the model's choice (log 6).
So is that a refused operation returns no result (log 4). -/
def Obligations.QEncRoundsTenfoldTemperature : Prop :=
  ∀ (s : State) (b : F32),
    (s.dev.halted = true → exec (.qEnc .dev b) s = .next (refusedState .dev s)) ∧
    (s.dev.halted = false →
      (∀ v : ℚ, valQ b = some v → ∃ w : U16, (w.toNat : ℤ) = ⌊10 * max 0 (min 40 v) + 1 / 2⌋ ∧
        exec (.qEnc .dev b) s = .next { s with result := .word (0#16 ++ w : BitVec 32) }) ∧
      (b = 0x7F800000 → exec (.qEnc .dev b) s = .next { s with result := .word 400 }) ∧
      (b = 0xFF800000 → exec (.qEnc .dev b) s = .next { s with result := .word 0 }) ∧
      (b.extractLsb' 23 8 = 0xFF → b.extractLsb' 0 23 ≠ 0 → ∃ w : U16, w.toNat ≤ 400 ∧
        exec (.qEnc .dev b) s = .next { s with
          dev := { s.dev with dstatus := s.dev.dstatus ||| 0x2, draws := s.dev.draws + 1 }
          result := .word (0#16 ++ w : BitVec 32) }))

/-- R155: for a temperature in [0, 40] the word's tenth is within 1/20 of it, with equality exactly at the ties. -/
def Obligations.QuantizationErrorBound : Prop :=
  ∀ (s : State) (b : F32) (v : ℚ), s.dev.halted = false → valQ b = some v → 0 ≤ v → v ≤ 40 →
    ∃ w : U16, exec (.qEnc .dev b) s = .next { s with result := .word (0#16 ++ w : BitVec 32) } ∧
      |(w.toNat : ℚ) / 10 - v| ≤ 1 / 20 ∧
      (|(w.toNat : ℚ) / 10 - v| = 1 / 20 ↔ ∃ k : ℕ, 10 * v = k + 1 / 2)

/-- R156, R157: `Q_DEC` of any word returns a finite pattern whose value is as near to the word's tenth as that of any
finite pattern; nothing else changes. -/
def Obligations.QDecIsNearestBinary32 : Prop :=
  ∀ (s : State) (w : U16), ∃ (r : F32) (v : ℚ),
    exec (.qDec .host w) s = .next { s with result := .word r } ∧ valQ r = some v ∧
    ∀ (b : F32) (v' : ℚ), valQ b = some v' → |v - (w.toNat : ℚ) / 10| ≤ |v' - (w.toNat : ℚ) / 10|

/-- R160: every word of 0..400 survives decoding and encoding, and so does a thermal frame of such words. -/
def Obligations.QuantizedWordsRoundTrip : Prop :=
  (∀ w : U16, w.toNat ≤ 400 → quant (qDec w) = some w) ∧
  (∀ f : List Byte, isThermalFrame f = true → (∀ w ∈ frameWords f, w.toNat ≤ 400) →
    mkThermalFrame ((frameWords f).filterMap fun w => quant (qDec w)) = f)

/-- R158: `THM_DECODE` of a thermal frame returns its 768 words decoded in order and changes nothing else; any other
operand is refused. That a refused operation returns no result is the model's choice (log 4). -/
def Obligations.ThmDecodeReturnsTemperatures : Prop :=
  ∀ (s : State) (f : List Byte),
    (isThermalFrame f = true → (frameWords f).length = 768 ∧
      (∀ k, k < 768 → ((frameWords f).getD k 0).toNat =
        (byteAt f (2 + 2 * k)).toNat + 256 * (byteAt f (3 + 2 * k)).toNat) ∧
      exec (.thmDecode .host f) s = .next { s with result := .temps ((frameWords f).map qDec) }) ∧
    (isThermalFrame f = false → exec (.thmDecode .host f) s = .next (refusedState .host s))

/-- R86: `seq` is unsigned, `predictor` two's complement, both from little-endian bytes; `stepIndex` is one byte. -/
def Obligations.HeaderFieldsAreLittleEndian : Prop :=
  ∀ f : List Byte, isAudioFrame f = true →
    (frameSeq f).toNat = (byteAt f 2).toNat + 256 * (byteAt f 3).toNat ∧
    (framePredictor f).toInt =
      (if (byteAt f 4).toNat + 256 * (byteAt f 5).toNat < 32768
        then ((byteAt f 4).toNat + 256 * (byteAt f 5).toNat : Int)
        else ((byteAt f 4).toNat + 256 * (byteAt f 5).toNat : Int) - 65536) ∧
    frameStepIndex f = byteAt f 6

/-! ## The frame builder and the multiplexer -/

/-- R170 to R173: `AUD_PUSH` captures the header before the first sample, encodes, packs the code into the low or the high
nibble, and at the 118th sample offers the frame, advances the sequence number and starts the next packet; nothing else
changes. -/
def Obligations.AudPushPacksOneCode : Prop :=
  ∀ (s : State) (pcm : Sample), s.dev.halted = false → s.dev.enc.stepIndex.toNat ≤ 88 → s.dev.pkt.count.toNat ≤ 117 →
    ∃ (enc : Codec) (pkt : Pkt) (txq : Txq) (dstatus : BitVec 16),
      let d := s.dev
      let c := d.pkt.count.toNat
      let n := (encStep d.enc pcm).2
      let frame := mkAudioFrame d.pkt.seq pkt.hdrPredictor pkt.hdrStepIndex pkt.buf.toList
      exec (.audPush .dev pcm) s = .next { s with
        dev := { d with enc := enc, pkt := pkt, txq := txq, dstatus := dstatus }, result := .nothing } ∧
      enc = (encStep d.enc pcm).1 ∧
      pkt.hdrPredictor = (if c = 0 then d.enc.predictor else d.pkt.hdrPredictor) ∧
      pkt.hdrStepIndex.toNat = (if c = 0 then d.enc.stepIndex.toNat else d.pkt.hdrStepIndex.toNat) ∧
      pkt.buf.toList = d.pkt.buf.toList.set (c / 2)
        (if c % 2 = 0 then (0#4 ++ n : BitVec 8)
          else (n ++ (d.pkt.buf.toList.getD (c / 2) 0).extractLsb' 0 4 : BitVec 8)) ∧
      (if c < 117 then pkt.count.toNat = c + 1 ∧ pkt.seq = d.pkt.seq ∧ txq = d.txq ∧ dstatus = d.dstatus
        else pkt.count = 0 ∧ pkt.seq.toNat = (d.pkt.seq.toNat + 1) % 65536 ∧
          (if d.txq.aud.length < Config.txqDepth .aud
            then txq = { d.txq with aud := d.txq.aud ++ [frame] } ∧ dstatus = d.dstatus
            else txq = d.txq ∧ dstatus = d.dstatus ||| 0x1))

/-- R176, R153: `THM_PUSH` stores the pixel's word (a NaN's word is any of 0..400 and sets `Q_NAN`) and at the 768th
pixel offers the frame and starts the next one; nothing else changes. That a NaN counts one draw is the model's choice
(log 6). -/
def Obligations.ThmPushStoresOneWord : Prop :=
  ∀ (s : State) (b : F32), s.dev.halted = false → s.dev.thf.count.toNat ≤ 767 →
    ∃ (w : U16) (thf : Thf) (txq : Txq),
      let d := s.dev
      let c := d.thf.count.toNat
      let full := decide (Config.txqDepth .thm ≤ d.txq.thm.length)
      exec (.thmPush .dev b) s = .next { s with
        dev := { d with
          thf := thf, txq := txq, draws := d.draws + (if quant b = none then 1 else 0)
          dstatus := d.dstatus ||| (if quant b = none then 0x2 else 0) |||
            (if c = 767 ∧ full = true then 0x1 else 0) }
        result := .nothing } ∧
      w.toNat ≤ 400 ∧ (∀ v, quant b = some v → w = v) ∧
      thf.words.toList = d.thf.words.toList.set c w ∧
      thf.count.toNat = (if c = 767 then 0 else c + 1) ∧
      txq = (if c = 767 ∧ full = false
        then { d.txq with thm := d.txq.thm ++ [mkThermalFrame thf.words.toList] } else d.txq)

/-- R98, R177: `THM_FRAME`, issued at `thf.count = 0`, offers exactly one thermal frame of the pixels' words, and
`THM_ZERO` one of `CA 01` and 1536 zero bytes; a full queue drops it and sets `TXQ_OVF`. That each is one step of
the model is the model's choice (log 14). -/
def Obligations.ThermalPseudoOpsEmitOneFrame : Prop :=
  ∀ (s : State) (temps : List F32), s.dev.halted = false → s.dev.thf.count = 0 → temps.length = 768 →
    (∃ (t : State) (words : List U16), exec (.thmFrame temps) s = .next t ∧
      words.length = 768 ∧
      (∀ k, k < 768 → (words.getD k 0).toNat ≤ 400 ∧
        (∀ v, quant (temps.getD k 0) = some v → words.getD k 0 = v)) ∧
      (if s.dev.txq.thm.length < Config.txqDepth .thm
        then t.dev.txq = { s.dev.txq with thm := s.dev.txq.thm ++ [mkThermalFrame words] }
        else t.dev.txq = s.dev.txq) ∧
      t.dev.thf.count = 0 ∧
      t = { s with
        dev := { s.dev with thf := t.dev.thf, txq := t.dev.txq, dstatus := t.dev.dstatus, draws := t.dev.draws }
        result := .nothing } ∧
      t.dev.dstatus = s.dev.dstatus ||| (if ∃ b ∈ temps, quant b = none then 0x2 else 0) |||
        (if s.dev.txq.thm.length < Config.txqDepth .thm then 0 else 0x1)) ∧
    (∃ t : State, exec .thmZero s = .next t ∧
      (if s.dev.txq.thm.length < Config.txqDepth .thm
        then t.dev.dstatus = s.dev.dstatus ∧ t.dev.txq = { s.dev.txq with
          thm := s.dev.txq.thm ++ [[(0xCA : Byte), 0x01] ++ List.replicate 1536 0] }
        else t.dev.dstatus = s.dev.dstatus ||| 0x1 ∧ t.dev.txq = s.dev.txq) ∧
      t.dev.thf.count = 0 ∧
      t = { s with
        dev := { s.dev with thf := t.dev.thf, txq := t.dev.txq, dstatus := t.dev.dstatus }, result := .nothing })

/-- R178: `BTN_POLL` refuses 3, does nothing on no change, and on a change offers the button frame, remembering the
count only when the frame was accepted; a halted DEV refuses it. That a refused operation returns no result is the
model's choice (log 4). -/
def Obligations.BtnPollEmitsOnChange : Prop :=
  ∀ (s : State) (n : BitVec 2),
    let d := s.dev
    let frame : List Byte := [0x62, 0x74, 0x6E, 0x3A, 0x30 + n.zeroExtend 8, 0x0A]
    exec (.btnPoll .dev n) s =
      if d.halted = true then .next (refusedState .dev s)
      else if n = 3 then
        .next { s with dev := { d with dstatus := d.dstatus ||| 0x4 }, result := .nothing }
      else if n = d.btnLast then .next { s with result := .nothing }
      else if d.txq.btn.length < Config.txqDepth .btn then
        .next { s with
          dev := { d with btnLast := n, txq := { d.txq with btn := d.txq.btn ++ [frame] } }, result := .nothing }
      else .next { s with dev := { d with dstatus := d.dstatus ||| 0x1 }, result := .nothing }

/-- R179: `DBG_TEXT` refuses a text with a line feed or longer than `DBG_MAX`, and offers any other as one frame; a
halted DEV refuses it. That a refused operation returns no result is the model's choice (log 4). -/
def Obligations.DbgTextChecksItsText : Prop :=
  ∀ (s : State) (text : List Byte),
    let d := s.dev
    let frame : List Byte := [0x64, 0x65, 0x62, 0x75, 0x67, 0x3A] ++ text ++ [0x0A]
    exec (.dbgText .dev text) s =
      if d.halted = true then .next (refusedState .dev s)
      else if Config.dbgMax < text.length ∨ (0x0A : Byte) ∈ text then
        .next { s with dev := { d with dstatus := d.dstatus ||| 0x8 }, result := .nothing }
      else if d.txq.dbg.length < Config.txqDepth .dbg then
        .next { s with dev := { d with txq := { d.txq with dbg := d.txq.dbg ++ [frame] } }, result := .nothing }
      else .next { s with dev := { d with dstatus := d.dstatus ||| 0x1 }, result := .nothing }

/-- R182: `Emit` appends the whole frame to the tail of its source's queue, or, at its `TXQ_DEPTH` frames, drops it whole and
sets `TXQ_OVF`; the other queues stay. -/
def Obligations.EmitAppendsOrDropsWhole : Prop :=
  ∀ (src : Src) (frame : List Byte) (d : Dev),
    ((txqOf d.txq src).length < Config.txqDepth src →
      ∃ q : Txq, emit src frame d = ({ d with txq := q }, true) ∧
        txqOf q src = txqOf d.txq src ++ [frame] ∧ ∀ src', src' ≠ src → txqOf q src' = txqOf d.txq src') ∧
    (Config.txqDepth src ≤ (txqOf d.txq src).length →
      emit src frame d = ({ d with dstatus := d.dstatus ||| 0x1 }, false))

/-- R184: an enabled `TX_STEP` writes one byte of the frame in flight, first taking the head of some queue that is not
empty where no frame is in flight, and the last byte ends the frame; where it is not enabled nothing happens (the
model's choice, log 3). -/
def Obligations.TxStepWritesOneByte : Prop :=
  ∀ s : State,
    ((s.dev.halted = true ∨ (s.dev.tx.busy = false ∧ ∀ src, txqOf s.dev.txq src = [])) →
      exec .txStep s = .next { s with result := .nothing }) ∧
    (s.dev.halted = false → s.dev.tx.busy = true → s.dev.tx.idx < s.dev.tx.frame.length →
      exec .txStep s = .next { s with
        dev := { s.dev with
          sink := s.dev.sink ++ [s.dev.tx.frame.getD s.dev.tx.idx 0]
          tx := { busy := decide (s.dev.tx.idx + 1 ≠ s.dev.tx.frame.length), frame := s.dev.tx.frame,
                  idx := s.dev.tx.idx + 1 } }
        result := .nothing }) ∧
    (s.dev.halted = false → s.dev.tx.busy = false → (∃ src, txqOf s.dev.txq src ≠ []) →
      (∀ src, ([] : List Byte) ∉ txqOf s.dev.txq src) →
      ∃ (src : Src) (b : Byte) (f : List Byte) (rest : List (List Byte)) (draws : Nat),
        txqOf s.dev.txq src = (b :: f) :: rest ∧
        exec .txStep s = .next { s with
          dev := { s.dev with
            txq := txqWith s.dev.txq src rest
            sink := s.dev.sink ++ [b]
            tx := { busy := decide (f ≠ []), frame := b :: f, idx := 1 }
            draws := draws }
          result := .nothing })

/-- R62 a and b, R185: in every step but a reset of DEV the sink stays a sequence of whole accepted frames followed by the
bytes of the frame in flight, and each source's accepted frames appear once each and in order. A `TX_STEP` accepts no
frame; any other step accepts just the whole frames that it appends to a source's queue, the frames before them staying
where they are. -/
def Obligations.SinkIsHistoryOfWholeFrames : Prop :=
  ∀ (i : Instr) (s t : State) (accepted : Src → List (List Byte)),
    BlockInv s → SinkHistory accepted s.dev → (∀ src, ∀ f ∈ accepted src, FrameOf src f) →
    i ≠ .hwReset .dev → exec i s = .next t →
    ∃ offered : Src → List (List Byte),
      SinkHistory (fun src => accepted src ++ offered src) t.dev ∧
      (∀ src, ∀ f ∈ accepted src ++ offered src, FrameOf src f) ∧
      (i = .txStep → ∀ src, offered src = []) ∧
      (i ≠ .txStep → ∀ src, txqOf t.dev.txq src = txqOf s.dev.txq src ++ offered src)

/-! ## The whole machine -/

/-- R43, R20, R203 e: every step from a state that meets the invariant ends in one that meets it. -/
def Obligations.EveryStepKeepsInvariant : Prop :=
  ∀ s t : State, BlockInv s → step s = .next t → BlockInv t

/-- R295, R52, R58: from a state that meets the invariant every step completes, whatever is presented: no request and no
byte of the link faults it or stops it. -/
def Obligations.EveryStepCompletes : Prop :=
  ∀ s : State, BlockInv s → ∃ t, step s = .next t

/-- R3, R67, R300: an instruction changes the state of one instance only. Its last clause, that no pending request changes,
speaks of `pending`, the model's own list of requests: that clause is the model's choice (log 1). -/
def Obligations.InstructionsTouchOneInstance : Prop :=
  ∀ (i : Instr) (s t : State), exec i s = .next t →
    (touches i = .dev → t.host = s.host) ∧ (touches i = .host → t.dev = s.dev) ∧ t.pending = s.pending

/-- R32, R37, R296: a bit of a status word once set stays set until a reset of its instance. -/
def Obligations.StickyBitsStaySet : Prop :=
  ∀ (i : Instr) (s t : State), exec i s = .next t →
    (i ≠ .hwReset .dev → s.dev.dstatus &&& t.dev.dstatus = s.dev.dstatus) ∧
    (i ≠ .hwReset .host → i ≠ .sessionReset .host → s.host.hstatus &&& t.host.hstatus = s.host.hstatus)

/-- R50, R55, R56, R312: the histories only grow, resets included, and only `TX_STEP` writes the sink, one byte at
most. -/
def Obligations.HistoriesOnlyGrow : Prop :=
  ∀ (i : Instr) (s t : State), exec i s = .next t →
    s.host.out <+: t.host.out ∧ (i ≠ .txStep → t.dev.sink = s.dev.sink) ∧
    (t.dev.sink = s.dev.sink ∨ ∃ b, t.dev.sink = s.dev.sink ++ [b])

/-! ## The demultiplexer -/

/-- R203 e, R209: `DMX_FEED` of any chunk completes and leaves a buffer within `DMX_MAX_BUF` that is empty or begins with
a start pattern waiting for more bytes; DEV stays as it is. -/
def Obligations.DmxFeedLeavesBoundedWaitingBuffer : Prop :=
  ∀ (s : State) (chunk : List Byte), ∃ h : Hst,
    exec (.dmxFeed .host chunk) s = .next { s with host := h, result := .nothing } ∧
    h.dmxBuf.length ≤ Config.dmxMaxBuf ∧ scanItem h.dmxBuf = .wait ∧
    (h.dmxBuf = [] ∨ h.dmxBuf = [0xCA] ∨ byteAt h.dmxBuf 0 = 0x62 ∨ byteAt h.dmxBuf 0 = 0x64 ∨
      (byteAt h.dmxBuf 0 = 0xCA ∧ (byteAt h.dmxBuf 1 = 0x01 ∨ byteAt h.dmxBuf 1 = 0x02)))

/-- R213: where neither feed overflows, two chunks leave the state that their concatenation leaves, whatever bits were set
before (an earlier `DMX_OVF` among them). That the two runs deliver the same comfort noise and leave the same count of
draws is the model's choice (log 6): each draw is a function of a counter that starts equal in both runs. -/
def Obligations.ChunkBoundariesDoNotMatter : Prop :=
  ∀ (s t1 t2 t : State) (c1 c2 : List Byte),
    exec (.dmxFeed .host c1) s = .next t1 → exec (.dmxFeed .host c2) t1 = .next t2 →
    exec (.dmxFeed .host (c1 ++ c2)) s = .next t →
    feedOverflows c1 s.host = false → feedOverflows c2 t1.host = false →
    t2 = t

/-- R214: a concatenation of whole frames, fed to an empty buffer, is dispatched frame by frame in order, nothing is
discarded, and the buffer is empty again. -/
def Obligations.CleanStreamIsDispatchedExactly : Prop :=
  ∀ (s : State) (frames : List (List Byte)), s.host.dmxBuf = [] → (∀ f ∈ frames, ReceivableFrame f) →
    ∃ h : Hst,
      exec (.dmxFeed .host frames.flatten) s = .next { s with host := h, result := .nothing } ∧
      h = frames.foldl (fun h f => receive f h) s.host ∧ h.dmxBuf = [] ∧
      hstatusHas h.hstatus .dmxDiscard = hstatusHas s.host.hstatus .dmxDiscard ∧
      hstatusHas h.hstatus .dmxOverflow = hstatusHas s.host.hstatus .dmxOverflow

/-- R204, R215: garbage without a start pattern before a whole frame is discarded and the frame is dispatched. -/
def Obligations.GarbageBeforeFrameIsDiscarded : Prop :=
  ∀ (s : State) (garbage f : List Byte), s.host.dmxBuf = [] → noStart garbage = true → ReceivableFrame f →
    exec (.dmxFeed .host (garbage ++ f)) s = .next { s with
      host := receive f (if garbage = [] then s.host
        else { s.host with hstatus := s.host.hstatus ||| 0x1 })
      result := .nothing }

/-- R216: the three concrete scenarios on a HOST just reset. -/
def Obligations.SourceScenariosOfDemultiplexer : Prop :=
  ∀ s : State, s.host = State.reset.host →
    exec (.dmxFeed .host ([(0xCA : Byte), 0x01] ++ List.replicate 1536 0)) s =
      .next { s with host := { s.host with out := [.thermal (List.replicate 768 0)] }, result := .nothing } ∧
    exec (.dmxFeed .host ([(0xCA : Byte), 0x02, 0, 0, 0, 0, 0] ++ List.replicate 59 0)) s =
      .next { s with
        host := { s.host with out := [.audio (List.replicate 118 0)], recon := ⟨1, 0⟩ }, result := .nothing } ∧
    exec (.dmxFeed .host [0x62, 0x74, 0x6E, 0x3A, 0x32, 0x0A]) s =
      .next { s with host := { s.host with out := [.button 2] }, result := .nothing }

/-- R83, R84, R89, R93, R207: a button line, a debug line and a first-generation line that arrive at an empty buffer are
delivered as a button event, delivered as a debug text, and dropped as malformed. That a wire frame runs as its arrival
at HOST is the model's choice (log 13). -/
def Obligations.TextFramesArriveAsLines : Prop :=
  ∀ (s : State) (v : BitVec 2) (text : List Byte), s.host.dmxBuf = [] → v ≠ 3 → (0x0A : Byte) ∉ text →
    exec (.frameBtn [0x30 + v.zeroExtend 8, 0x0A]) s =
      .next { s with host := { s.host with out := s.host.out ++ [.button v] }, result := .nothing } ∧
    exec (.frameDebug (text ++ [0x0A])) s =
      .next { s with host := { s.host with out := s.host.out ++ [.debug text] }, result := .nothing } ∧
    exec (.frameLegacyCsv (text ++ [0x0A])) s =
      .next { s with host := { s.host with hstatus := s.host.hstatus ||| 0x4 }, result := .nothing }

/-- R81, R82, R92, R205, R210: a thermal frame that arrives at an empty buffer is delivered decoded; an audio frame goes
to `REC_PACKET`; a second-generation frame is not recognised, and its bytes are discarded where they hold no start
pattern. That a wire frame runs as its arrival at HOST is the model's choice (log 13). -/
def Obligations.BinaryFramesArriveWhole : Prop :=
  ∀ (s : State), s.host.dmxBuf = [] →
    (∀ words : List U16, words.length = 768 →
      exec (.frameThermal words) s = .next { s with
        host := { s.host with out := s.host.out ++ [.thermal (words.map qDec)] }, result := .nothing }) ∧
    (∀ (seq : U16) (p : Sample) (i : Byte) (payload : List Byte), payload.length = 59 →
      ∃ f : List Byte, f = tagAudio ++ (le16 seq ++ (le16 p ++ (i :: payload))) ∧ isAudioFrame f = true ∧
        frameSeq f = seq ∧ framePredictor f = p ∧ frameStepIndex f = i ∧
        exec (.frameAudio seq p i payload) s =
          .next { s with host := recPacket f s.host, result := .nothing }) ∧
    (∀ (b : Byte) (payload : List Byte),
      (∃ h : Hst, exec (.frameLegacyAA55 b payload) s = .next { s with host := h, result := .nothing } ∧
        hstatusHas h.hstatus .dmxDiscard = true) ∧
      (noStart (b :: payload) = true → (b :: payload).getLast? ≠ some 0xCA →
        exec (.frameLegacyAA55 b payload) s =
          .next { s with host := { s.host with hstatus := s.host.hstatus ||| 0x1 }, result := .nothing }))

/-! ## The reconstructor -/

/-- R232: for every threshold that HOST is configured with, 0..32768, the four classes are the four bands of the gap, and
the gap is the modular distance of the sequence numbers; the default is 1000. -/
def Obligations.PacketClassesPartitionGaps : Prop :=
  Config.gapThresholdDefault.val = 1000 ∧
  ∀ (h : Hst) (seq : U16),
    let t := h.gapThreshold.val
    let gap := gapOf h.recon.expected seq
    t ≤ 32768 ∧ gap = (seq.toNat + 65536 - h.recon.expected.toNat) % 65536 ∧ gap < 65536 ∧
    (gap = 0 ↔ seq = h.recon.expected) ∧
    (classify h seq = .inorder ↔ gap = 0) ∧
    (classify h seq = .forward ↔ 0 < gap ∧ gap < t) ∧
    (classify h seq = .stale ↔ 65536 - t ≤ gap) ∧
    (classify h seq = .far ↔ gap ≠ 0 ∧ t ≤ gap ∧ gap < 65536 - t)

/-- R231, R233, R234, R236, R240: a packet that is not stale and has a step index of 0..88 is decoded from its header and
delivered, in order as it is, `FORWARD` after `gap * 118` fill samples from the last sample to its first and with
`REC_FILL`, `FAR` with `REC_RESYNC`; `rec.*` moves on and nothing else changes. That each fill sample counts one draw is
the model's choice (log 6). -/
def Obligations.RecPacketAcceptsByClass : Prop :=
  ∀ (s : State) (f : List Byte), isAudioFrame f = true → (frameStepIndex f).toNat ≤ 88 →
    classify s.host (frameSeq f) ≠ .stale →
    ∃ (samples filled : List Sample),
      let gap := gapOf s.host.recon.expected (frameSeq f)
      let c := classify s.host (frameSeq f)
      let r := decCodes ⟨framePredictor f, (frameStepIndex f).setWidth 7⟩ (frameCodes f)
      samples = r.2 ∧ samples.length = 118 ∧
      filled = (if c = .forward
        then fill s.host.trend s.host.draws s.host.recon.lastSample (samples.getD 0 0) (gap * 118) else []) ∧
      filled.length = (if c = .forward then gap * 118 else 0) ∧
      exec (.recPacket .host f) s = .next { s with
        host := { s.host with
          dec := r.1
          recon := { expected := frameSeq f + 1, lastSample := samples.getD 117 0 }
          out := s.host.out ++ (if c = .forward then [.audio filled, .audio samples] else [.audio samples])
          hstatus := s.host.hstatus ||| (if c = .forward then 0x10 else if c = .far then 0x40 else 0)
          draws := s.host.draws + filled.length }
        result := .nothing }

/-- R235: a stale packet delivers nothing and changes nothing but `REC_STALE`, whatever its step index. -/
def Obligations.StalePacketChangesNothing : Prop :=
  ∀ (s : State) (f : List Byte), isAudioFrame f = true → classify s.host (frameSeq f) = .stale →
    exec (.recPacket .host f) s =
      .next { s with host := { s.host with hstatus := s.host.hstatus ||| 0x20 }, result := .nothing }

/-- R245, R231: a packet that is not stale and has a bad step index changes nothing but `BAD_STEPIDX`; an operand that
is no audio frame is refused. That a refused operation returns no result is the model's choice (log 4). -/
def Obligations.RefusedPacketIsNotAccepted : Prop :=
  ∀ (s : State) (f : List Byte),
    (isAudioFrame f = true → classify s.host (frameSeq f) ≠ .stale → 88 < (frameStepIndex f).toNat →
      exec (.recPacket .host f) s =
        .next { s with host := { s.host with hstatus := s.host.hstatus ||| 0x8 }, result := .nothing }) ∧
    (isAudioFrame f = false → exec (.recPacket .host f) s = .next (refusedState .host s))

/-- R241: an accepted packet of class `INORDER` or `FORWARD` makes the audio history longer by 118 samples for every
sequence number by which `rec.expected` advances. -/
def Obligations.EverySequenceNumberYields118Samples : Prop :=
  ∀ (s t : State) (f : List Byte), isAudioFrame f = true → (frameStepIndex f).toNat ≤ 88 →
    (classify s.host (frameSeq f) = .inorder ∨ classify s.host (frameSeq f) = .forward) →
    exec (.recPacket .host f) s = .next t →
    (audioHistory t.host).length = (audioHistory s.host).length +
      ((t.host.recon.expected.toNat + 65536 - s.host.recon.expected.toNat - 1) % 65536 + 1) * 118

/-- R237, R238, R239: the weights of every configured trend lie in [0, 1]; for every trend whose weights do, every amplitude and every
draw, `Fill` returns `n` samples; without noise each lies between the two endpoints, and noise moves a sample by at most
the envelope. -/
def Obligations.FillStaysWithinEnvelope : Prop :=
  (∀ (t : Config.Trend) (k m : Nat), k ≤ m → 0 < m → (trendOf t k m).1 ≤ (trendOf t k m).2 ∧ 0 < (trendOf t k m).2) ∧
  ∀ (trend : TrendFn) (amp : Sample → Sample → Nat) (free : Nat → Nat) (c n : Nat) (a b : Sample),
    (∀ k, k ≤ n → (trend k (n + 1)).1 ≤ (trend k (n + 1)).2 ∧ 0 < (trend k (n + 1)).2) →
    (fillWith trend amp free c a b n).length = n ∧
    ∀ i, i < n →
      let x := ((fillWith trend amp free c a b n).getD i 0).toInt
      let y := ((fillWith trend (fun _ _ => 0) free c a b n).getD i 0).toInt
      min a.toInt b.toInt ≤ y ∧ y ≤ max a.toInt b.toInt ∧
      |x - y| ≤ amp a b * 4 * (i + 1) * (n - i) / (n + 1) ^ 2

/-- R242: packets 0, 1, 3 and 4, presented to a HOST just reset, deliver 590 samples, whatever they carry, at every
threshold above 1, which makes the gap of 1 a `FORWARD` one (R232), and at every trend. -/
def Obligations.GapScenarioDelivers590Samples : Prop :=
  ∀ (s t : State) (threshold : Config.GapThreshold) (trend : Config.Trend) (f0 f1 f3 f4 : List Byte), 1 < threshold.val →
    s.host = { State.reset.host with gapThreshold := threshold, trend := trend } →
    (∀ f ∈ [f0, f1, f3, f4], isAudioFrame f = true ∧ (frameStepIndex f).toNat ≤ 88) →
    frameSeq f0 = 0 → frameSeq f1 = 1 → frameSeq f3 = 3 → frameSeq f4 = 4 →
    runSequence (fun f => exec (.recPacket .host f)) [f0, f1, f3, f4] s = .next t →
    (audioHistory t.host).length = 590 ∧ t.host.recon.expected = 5 ∧ t.host.hstatus = 0x10

/-! ## Encodings and the step -/

/-- R81 to R95, R98: decoding the encoding of a well-formed instruction gives the instruction, and nothing is left over. -/
def Obligations.DecodeInvertsEncode : Prop :=
  ∀ i : Instr, i.wf = true → decode (encode i) = .ok i ∧ leftover (encode i) = []

/-- R80, R100: a well-formed wire frame is told, with its length, from the front of any bytes that begin with it. -/
def Obligations.WireFramesAreSelfDelimiting : Prop :=
  ∀ (i : Instr) (bytes rest : List Byte), i.wf = true → encode i = .wire bytes →
    decodeWire (bytes ++ rest) = .ok (i, rest)

/-- R81 to R85, R95: some requests written out from the encoding tables. -/
def Obligations.DecodeReadsEncodingWords : Prop :=
  decode (.command .dev 0b00011 0x000000FA []) = .ok (.audPush .dev 250) ∧
  decode (.command .dev 0b00101 0x41A00000 []) = .ok (.thmPush .dev 0x41A00000) ∧
  decode (.command .dev 0b01000 0x00000002 []) = .ok (.devInit .dev false true) ∧
  decode (.command .host 0b10000 0x00247225 []) = .ok (.decLoad .host 0x7225 36) ∧
  decode (.command .host 0b10101 0 [0xCA]) = .ok (.dmxFeed .host [0xCA]) ∧
  decode (.wire [0x62, 0x74, 0x6E, 0x3A, 0x32, 0x0A]) = .ok (.frameBtn [0x32, 0x0A]) ∧
  decode (.nibble 0b1011) = .ok (.adpcmCode 11)

/-- A step runs the instruction that the request at the head decodes to, with that request taken off and the bytes
behind a wire frame still to be presented; with no request it is the transmitter's step. Requests and idle steps are
the model's choice (logs 1, 2). -/
def Obligations.StepRunsDecodedInstruction : Prop :=
  ∀ s : State,
    (∀ (r : Request) (rest : List Request) (i : Instr), s.pending = r :: rest → decode r = .ok i →
      step s = exec i { s with pending := leftover r ++ rest }) ∧
    (s.pending = [] → step s = exec .txStep s)

/-- The instruction that a word of the opcode table decodes to is the one the next step runs when that word is presented
(the model's choice, log 1). -/
def Obligations.PresentedWordRunsNext : Prop :=
  ∀ (s : State) (nbits w : Nat) (i : Instr), decodeTableWord nbits w = some i →
    step (s.withFetchWord nbits w) =
      exec i { s with pending := leftover (tableRequest nbits w) ++ s.pending }

/-! ## Configuration -/

/-- R315: no step changes the configuration that HOST holds, resets included. That HOST holds it is the model's choice
(log 18). -/
def Obligations.ConfigurationNeverChanges : Prop :=
  ∀ s t : State, step s = .next t →
    t.host.gapThreshold = s.host.gapThreshold ∧ t.host.trend = s.host.trend

/-- R238: the trend that HOST is configured with lies in [0, 1], does not decrease and is symmetric; the default is
smoothstep; and every trend with these properties is one that HOST may be configured with, at every `M` up to any bound.
That HOST holds it as a table of weights is the model's choice (log 18). -/
def Obligations.ConfiguredTrendsAreTheTrendsOfTheSpec : Prop :=
  (∀ (t : Config.Trend) (k k' m : Nat), 0 < m → k ≤ k' → k' ≤ m →
    0 ≤ trendWeight t k m ∧ trendWeight t k m ≤ 1 ∧ trendWeight t k m ≤ trendWeight t k' m ∧
    trendWeight t k m + trendWeight t (m - k) m = 1) ∧
  (∀ k m : Nat, 0 < m → k ≤ m →
    trendWeight Config.trendDefault k m = 3 * ((k : ℚ) / m) ^ 2 - 2 * ((k : ℚ) / m) ^ 3) ∧
  (∀ (f : Nat → Nat → ℚ) (bound : Nat),
    (∀ k m : Nat, k ≤ m → 0 ≤ f k m ∧ f k m + f (m - k) m = 1) →
    (∀ k k' m : Nat, k ≤ k' → k' ≤ m → f k m ≤ f k' m) →
    ∃ t : Config.Trend, ∀ k m : Nat, k ≤ m → m ≤ bound → trendWeight t k m = f k m)

/-! ## The link -/

/-- R57, R58, R203: whatever bytes a request presents on the link, the step completes, and bytes from their front are the
operand of one `DMX_FEED`, unchanged. Where that chunk ends (behind one wire frame where the bytes begin with one, else
behind all of them) is the model's choice (logs 13, 16). That the bytes behind the chunk stay presented as a request of
their own ahead of the others, so that a step loses none of them, is the model's choice too (log 1): R57 lets the link
delay, alter or delete bytes before they are presented. -/
def Obligations.LinkBytesReachDemultiplexer : Prop :=
  ∀ (s : State) (bytes : List Byte) (rest : List Request), s.pending = .wire bytes :: rest →
    ∃ chunk more : List Byte, bytes = chunk ++ more ∧ (bytes ≠ [] → chunk ≠ []) ∧
      ((∃ i, decodeWire bytes = .ok (i, more)) ∨ (more = [] ∧ ∃ e, decodeWire bytes = .error e)) ∧
      step s = .next { s with
        host := dmxFeed chunk s.host
        result := .nothing
        pending := (if more = [] then rest else .wire more :: rest) }
end

