-- ==== Sys2Proof/Laws/State.lean ====
section
/-! SUPPORT. One lemma for each field of each named state update, so that no later proof unfolds a record update. -/

namespace Sys2Proof.Machine

/-! ## `raiseDev` -/

@[simp] theorem raiseDev_enc (e : DevFault) (d : Dev) : (raiseDev e d).enc = d.enc := rfl
@[simp] theorem raiseDev_pkt (e : DevFault) (d : Dev) : (raiseDev e d).pkt = d.pkt := rfl
@[simp] theorem raiseDev_thf (e : DevFault) (d : Dev) : (raiseDev e d).thf = d.thf := rfl
@[simp] theorem raiseDev_btnLast (e : DevFault) (d : Dev) : (raiseDev e d).btnLast = d.btnLast := rfl
@[simp] theorem raiseDev_txq (e : DevFault) (d : Dev) : (raiseDev e d).txq = d.txq := rfl
@[simp] theorem raiseDev_tx (e : DevFault) (d : Dev) : (raiseDev e d).tx = d.tx := rfl
@[simp] theorem raiseDev_halted (e : DevFault) (d : Dev) : (raiseDev e d).halted = (d.halted || e == .audioInitFatal) := rfl
@[simp] theorem raiseDev_dstatus (e : DevFault) (d : Dev) : (raiseDev e d).dstatus = setDstatus d.dstatus e := rfl
@[simp] theorem raiseDev_sink (e : DevFault) (d : Dev) : (raiseDev e d).sink = d.sink := rfl
@[simp] theorem raiseDev_draws (e : DevFault) (d : Dev) : (raiseDev e d).draws = d.draws := rfl

/-! ## `raiseHost` -/

@[simp] theorem raiseHost_dmxBuf (e : HostFault) (h : Hst) : (raiseHost e h).dmxBuf = h.dmxBuf := rfl
@[simp] theorem raiseHost_dec (e : HostFault) (h : Hst) : (raiseHost e h).dec = h.dec := rfl
@[simp] theorem raiseHost_recon (e : HostFault) (h : Hst) : (raiseHost e h).recon = h.recon := rfl
@[simp] theorem raiseHost_hstatus (e : HostFault) (h : Hst) : (raiseHost e h).hstatus = setHstatus h.hstatus e := rfl
@[simp] theorem raiseHost_out (e : HostFault) (h : Hst) : (raiseHost e h).out = h.out := rfl
@[simp] theorem raiseHost_draws (e : HostFault) (h : Hst) : (raiseHost e h).draws = h.draws := rfl
@[simp] theorem raiseHost_gapThreshold (e : HostFault) (h : Hst) :
    (raiseHost e h).gapThreshold = h.gapThreshold := rfl
@[simp] theorem raiseHost_trend (e : HostFault) (h : Hst) :
    (raiseHost e h).trend = h.trend := rfl

/-! ## `deliver` -/

@[simp] theorem deliver_dmxBuf (e : OutEvent) (h : Hst) : (deliver e h).dmxBuf = h.dmxBuf := rfl
@[simp] theorem deliver_dec (e : OutEvent) (h : Hst) : (deliver e h).dec = h.dec := rfl
@[simp] theorem deliver_recon (e : OutEvent) (h : Hst) : (deliver e h).recon = h.recon := rfl
@[simp] theorem deliver_hstatus (e : OutEvent) (h : Hst) : (deliver e h).hstatus = h.hstatus := rfl
@[simp] theorem deliver_out (e : OutEvent) (h : Hst) : (deliver e h).out = h.out ++ [e] := rfl
@[simp] theorem deliver_draws (e : OutEvent) (h : Hst) : (deliver e h).draws = h.draws := rfl
@[simp] theorem deliver_gapThreshold (e : OutEvent) (h : Hst) :
    (deliver e h).gapThreshold = h.gapThreshold := rfl
@[simp] theorem deliver_trend (e : OutEvent) (h : Hst) :
    (deliver e h).trend = h.trend := rfl

/-! ## `resetDev` -/

@[simp] theorem resetDev_enc (d : Dev) : (resetDev d).enc = Codec.reset := rfl
@[simp] theorem resetDev_pkt (d : Dev) : (resetDev d).pkt = Pkt.reset := rfl
@[simp] theorem resetDev_thf (d : Dev) : (resetDev d).thf = Thf.reset := rfl
@[simp] theorem resetDev_btnLast (d : Dev) : (resetDev d).btnLast = 0 := rfl
@[simp] theorem resetDev_txq (d : Dev) : (resetDev d).txq = Txq.reset := rfl
@[simp] theorem resetDev_tx (d : Dev) : (resetDev d).tx = Tx.reset := rfl
@[simp] theorem resetDev_halted (d : Dev) : (resetDev d).halted = false := rfl
@[simp] theorem resetDev_dstatus (d : Dev) : (resetDev d).dstatus = 0 := rfl
@[simp] theorem resetDev_sink (d : Dev) : (resetDev d).sink = d.sink := rfl
@[simp] theorem resetDev_draws (d : Dev) : (resetDev d).draws = d.draws := rfl

/-! ## `resetHost` -/

@[simp] theorem resetHost_dmxBuf (h : Hst) : (resetHost h).dmxBuf = [] := rfl
@[simp] theorem resetHost_dec (h : Hst) : (resetHost h).dec = Codec.reset := rfl
@[simp] theorem resetHost_recon (h : Hst) : (resetHost h).recon = { expected := 0, lastSample := 0 } := rfl
@[simp] theorem resetHost_hstatus (h : Hst) : (resetHost h).hstatus = 0 := rfl
@[simp] theorem resetHost_out (h : Hst) : (resetHost h).out = h.out := rfl
@[simp] theorem resetHost_draws (h : Hst) : (resetHost h).draws = h.draws := rfl
@[simp] theorem resetHost_gapThreshold (h : Hst) :
    (resetHost h).gapThreshold = h.gapThreshold := rfl
@[simp] theorem resetHost_trend (h : Hst) :
    (resetHost h).trend = h.trend := rfl

/-! ## `packCode` -/

@[simp] theorem packCode_enc (n : Nibble) (d : Dev) : (packCode n d).enc = d.enc := rfl
@[simp] theorem packCode_thf (n : Nibble) (d : Dev) : (packCode n d).thf = d.thf := rfl
@[simp] theorem packCode_btnLast (n : Nibble) (d : Dev) : (packCode n d).btnLast = d.btnLast := rfl
@[simp] theorem packCode_txq (n : Nibble) (d : Dev) : (packCode n d).txq = d.txq := rfl
@[simp] theorem packCode_tx (n : Nibble) (d : Dev) : (packCode n d).tx = d.tx := rfl
@[simp] theorem packCode_halted (n : Nibble) (d : Dev) : (packCode n d).halted = d.halted := rfl
@[simp] theorem packCode_dstatus (n : Nibble) (d : Dev) : (packCode n d).dstatus = d.dstatus := rfl
@[simp] theorem packCode_sink (n : Nibble) (d : Dev) : (packCode n d).sink = d.sink := rfl
@[simp] theorem packCode_draws (n : Nibble) (d : Dev) : (packCode n d).draws = d.draws := rfl
@[simp] theorem packCode_count (n : Nibble) (d : Dev) : (packCode n d).pkt.count = d.pkt.count + 1 := rfl
@[simp] theorem packCode_seq (n : Nibble) (d : Dev) : (packCode n d).pkt.seq = d.pkt.seq := rfl
@[simp] theorem packCode_hdrPredictor (n : Nibble) (d : Dev) :
    (packCode n d).pkt.hdrPredictor = d.pkt.hdrPredictor := rfl
@[simp] theorem packCode_hdrStepIndex (n : Nibble) (d : Dev) :
    (packCode n d).pkt.hdrStepIndex = d.pkt.hdrStepIndex := rfl
@[simp] theorem packCode_buf (n : Nibble) (d : Dev) :
    (packCode n d).pkt.buf = d.pkt.buf.setIfInBounds (d.pkt.count.toNat >>> 1)
      (packNibble d.pkt.count (d.pkt.buf.toList.getD (d.pkt.count.toNat >>> 1) 0) n) := rfl

/-! ## `storeWord` -/

@[simp] theorem storeWord_enc (w : U16) (d : Dev) : (storeWord w d).enc = d.enc := rfl
@[simp] theorem storeWord_pkt (w : U16) (d : Dev) : (storeWord w d).pkt = d.pkt := rfl
@[simp] theorem storeWord_btnLast (w : U16) (d : Dev) : (storeWord w d).btnLast = d.btnLast := rfl
@[simp] theorem storeWord_txq (w : U16) (d : Dev) : (storeWord w d).txq = d.txq := rfl
@[simp] theorem storeWord_tx (w : U16) (d : Dev) : (storeWord w d).tx = d.tx := rfl
@[simp] theorem storeWord_halted (w : U16) (d : Dev) : (storeWord w d).halted = d.halted := rfl
@[simp] theorem storeWord_dstatus (w : U16) (d : Dev) : (storeWord w d).dstatus = d.dstatus := rfl
@[simp] theorem storeWord_sink (w : U16) (d : Dev) : (storeWord w d).sink = d.sink := rfl
@[simp] theorem storeWord_draws (w : U16) (d : Dev) : (storeWord w d).draws = d.draws := rfl
@[simp] theorem storeWord_count (w : U16) (d : Dev) : (storeWord w d).thf.count = d.thf.count + 1 := rfl
@[simp] theorem storeWord_words (w : U16) (d : Dev) :
    (storeWord w d).thf.words = d.thf.words.setIfInBounds d.thf.count.toNat w := rfl

/-! ## `startFrame` -/

@[simp] theorem startFrame_enc (src : Src) (d : Dev) : (startFrame src d).enc = d.enc := rfl
@[simp] theorem startFrame_pkt (src : Src) (d : Dev) : (startFrame src d).pkt = d.pkt := rfl
@[simp] theorem startFrame_thf (src : Src) (d : Dev) : (startFrame src d).thf = d.thf := rfl
@[simp] theorem startFrame_btnLast (src : Src) (d : Dev) : (startFrame src d).btnLast = d.btnLast := rfl
@[simp] theorem startFrame_txq (src : Src) (d : Dev) : (startFrame src d).txq = txqWith d.txq src (txqOf d.txq src).tail := rfl
@[simp] theorem startFrame_tx (src : Src) (d : Dev) : (startFrame src d).tx = { busy := true, frame := (txqOf d.txq src).headD [], idx := 0 } := rfl
@[simp] theorem startFrame_halted (src : Src) (d : Dev) : (startFrame src d).halted = d.halted := rfl
@[simp] theorem startFrame_dstatus (src : Src) (d : Dev) : (startFrame src d).dstatus = d.dstatus := rfl
@[simp] theorem startFrame_sink (src : Src) (d : Dev) : (startFrame src d).sink = d.sink := rfl
@[simp] theorem startFrame_draws (src : Src) (d : Dev) : (startFrame src d).draws = d.draws := rfl

/-! ## `deliverFill` -/

@[simp] theorem deliverFill_dmxBuf (first : Sample) (n : Nat) (h : Hst) : (deliverFill first n h).dmxBuf = h.dmxBuf := rfl
@[simp] theorem deliverFill_dec (first : Sample) (n : Nat) (h : Hst) : (deliverFill first n h).dec = h.dec := rfl
@[simp] theorem deliverFill_recon (first : Sample) (n : Nat) (h : Hst) : (deliverFill first n h).recon = h.recon := rfl
@[simp] theorem deliverFill_hstatus (first : Sample) (n : Nat) (h : Hst) : (deliverFill first n h).hstatus = setHstatus h.hstatus .recFill := rfl
@[simp] theorem deliverFill_out (first : Sample) (n : Nat) (h : Hst) : (deliverFill first n h).out = h.out ++ [.audio (fill h.trend h.draws h.recon.lastSample first n)] := rfl
@[simp] theorem deliverFill_draws (first : Sample) (n : Nat) (h : Hst) : (deliverFill first n h).draws = h.draws + n := rfl
@[simp] theorem deliverFill_gapThreshold (first : Sample) (n : Nat) (h : Hst) :
    (deliverFill first n h).gapThreshold = h.gapThreshold := rfl
@[simp] theorem deliverFill_trend (first : Sample) (n : Nat) (h : Hst) :
    (deliverFill first n h).trend = h.trend := rfl

/-! ## `acceptSamples` -/

@[simp] theorem acceptSamples_dmxBuf (seq : U16) (samples : List Sample) (h : Hst) : (acceptSamples seq samples h).dmxBuf = h.dmxBuf := rfl
@[simp] theorem acceptSamples_dec (seq : U16) (samples : List Sample) (h : Hst) : (acceptSamples seq samples h).dec = h.dec := rfl
@[simp] theorem acceptSamples_recon (seq : U16) (samples : List Sample) (h : Hst) : (acceptSamples seq samples h).recon = { expected := seq + 1, lastSample := samples.getD (Config.samplesPerPacket - 1) 0 } := rfl
@[simp] theorem acceptSamples_hstatus (seq : U16) (samples : List Sample) (h : Hst) : (acceptSamples seq samples h).hstatus = h.hstatus := rfl
@[simp] theorem acceptSamples_out (seq : U16) (samples : List Sample) (h : Hst) : (acceptSamples seq samples h).out = h.out ++ [.audio samples] := rfl
@[simp] theorem acceptSamples_draws (seq : U16) (samples : List Sample) (h : Hst) : (acceptSamples seq samples h).draws = h.draws := rfl
@[simp] theorem acceptSamples_gapThreshold (seq : U16) (samples : List Sample) (h : Hst) :
    (acceptSamples seq samples h).gapThreshold = h.gapThreshold := rfl
@[simp] theorem acceptSamples_trend (seq : U16) (samples : List Sample) (h : Hst) :
    (acceptSamples seq samples h).trend = h.trend := rfl

/-! ## Updates that depend on the state -/

theorem captureHeader_eq (d : Dev) :
    captureHeader d = { d with pkt := { d.pkt with
      hdrPredictor := if d.pkt.count = 0 then d.enc.predictor else d.pkt.hdrPredictor
      hdrStepIndex := if d.pkt.count = 0 then d.enc.stepIndex.zeroExtend 8 else d.pkt.hdrStepIndex } } := by
  unfold captureHeader
  split <;> rfl

@[simp] theorem captureHeader_enc (d : Dev) : (captureHeader d).enc = d.enc := by rw [captureHeader_eq]
@[simp] theorem captureHeader_thf (d : Dev) : (captureHeader d).thf = d.thf := by rw [captureHeader_eq]
@[simp] theorem captureHeader_btnLast (d : Dev) : (captureHeader d).btnLast = d.btnLast := by rw [captureHeader_eq]
@[simp] theorem captureHeader_txq (d : Dev) : (captureHeader d).txq = d.txq := by rw [captureHeader_eq]
@[simp] theorem captureHeader_tx (d : Dev) : (captureHeader d).tx = d.tx := by rw [captureHeader_eq]
@[simp] theorem captureHeader_halted (d : Dev) : (captureHeader d).halted = d.halted := by rw [captureHeader_eq]
@[simp] theorem captureHeader_dstatus (d : Dev) : (captureHeader d).dstatus = d.dstatus := by rw [captureHeader_eq]
@[simp] theorem captureHeader_sink (d : Dev) : (captureHeader d).sink = d.sink := by rw [captureHeader_eq]
@[simp] theorem captureHeader_draws (d : Dev) : (captureHeader d).draws = d.draws := by rw [captureHeader_eq]
@[simp] theorem captureHeader_seq (d : Dev) : (captureHeader d).pkt.seq = d.pkt.seq := by rw [captureHeader_eq]
@[simp] theorem captureHeader_count (d : Dev) : (captureHeader d).pkt.count = d.pkt.count := by rw [captureHeader_eq]
@[simp] theorem captureHeader_buf (d : Dev) : (captureHeader d).pkt.buf = d.pkt.buf := by rw [captureHeader_eq]

/-! ## The queues -/

@[simp] theorem txqOf_txqWith_same (q : Txq) (src : Src) (fs : List (List Byte)) :
    txqOf (txqWith q src fs) src = fs := by
  cases src <;> rfl

theorem txqOf_txqWith_other (q : Txq) {src src' : Src} (fs : List (List Byte)) (h : src' ≠ src) :
    txqOf (txqWith q src fs) src' = txqOf q src' := by
  cases src <;> cases src' <;> first | rfl | exact absurd rfl h

theorem txqOf_txqWith (q : Txq) (src src' : Src) (fs : List (List Byte)) :
    txqOf (txqWith q src fs) src' = if src' = src then fs else txqOf q src' := by
  split
  · next h => rw [h, txqOf_txqWith_same]
  · next h => exact txqOf_txqWith_other q fs h

end Sys2Proof.Machine
end

