-- ==== Sys2Proof/Laws/Ops.lean ====
section
/-! SUPPORT. For each shared operation one lemma that says what it can do: raising, refusing, running on an instance,
`Emit`, draws, sequences. -/

namespace Sys2Proof.Machine

/-! ## Status words -/

@[simp] theorem setDstatus_txqOverflow (w : BitVec 16) : setDstatus w .txqOverflow = w ||| 0x1 := rfl
@[simp] theorem setDstatus_quantNaN (w : BitVec 16) : setDstatus w .quantNaN = w ||| 0x2 := rfl
@[simp] theorem setDstatus_btnRange (w : BitVec 16) : setDstatus w .btnRange = w ||| 0x4 := rfl
@[simp] theorem setDstatus_dbgRefused (w : BitVec 16) : setDstatus w .dbgRefused = w ||| 0x8 := rfl
@[simp] theorem setDstatus_audioInitFatal (w : BitVec 16) : setDstatus w .audioInitFatal = w ||| 0x10 := rfl
@[simp] theorem setDstatus_opRefused (w : BitVec 16) : setDstatus w .opRefused = w ||| 0x20 := rfl
@[simp] theorem setHstatus_dmxDiscard (w : BitVec 16) : setHstatus w .dmxDiscard = w ||| 0x1 := rfl
@[simp] theorem setHstatus_dmxOverflow (w : BitVec 16) : setHstatus w .dmxOverflow = w ||| 0x2 := rfl
@[simp] theorem setHstatus_textMalformed (w : BitVec 16) : setHstatus w .textMalformed = w ||| 0x4 := rfl
@[simp] theorem setHstatus_badStepIndex (w : BitVec 16) : setHstatus w .badStepIndex = w ||| 0x8 := rfl
@[simp] theorem setHstatus_recFill (w : BitVec 16) : setHstatus w .recFill = w ||| 0x10 := rfl
@[simp] theorem setHstatus_recStale (w : BitVec 16) : setHstatus w .recStale = w ||| 0x20 := rfl
@[simp] theorem setHstatus_recResync (w : BitVec 16) : setHstatus w .recResync = w ||| 0x40 := rfl
@[simp] theorem setHstatus_opRefused (w : BitVec 16) : setHstatus w .opRefused = w ||| 0x80 := rfl

/-- Setting a bit keeps every set bit. -/
theorem and_setBit (w : BitVec 16) (k : Nat) : w &&& setBit w k = w := by
  unfold setBit
  ext i hi
  simp only [BitVec.getElem_and, BitVec.getElem_or]
  cases w[i] <;> simp

theorem setBit_idem (w : BitVec 16) (k : Nat) : setBit (setBit w k) k = setBit w k := by
  unfold setBit
  rw [BitVec.or_assoc, BitVec.or_self]

/-! ## Raising and refusing -/

/-- A fault of DEV that is not `AudioInitFatal` records its bit and nothing else. -/
theorem raiseDev_eq {e : DevFault} (h : e ≠ .audioInitFatal) (d : Dev) :
    raiseDev e d = { d with dstatus := setDstatus d.dstatus e } := by
  cases e <;> first | (exact absurd rfl h) | simp [raiseDev]

theorem raiseDev_audioInitFatal (d : Dev) :
    raiseDev .audioInitFatal d = { d with dstatus := d.dstatus ||| 0x10, halted := true } := by
  simp [raiseDev]

/-- A refusal is the next state in which only `OP_REFUSED` is set. -/
theorem refuseAt_eq (inst : Inst) (s : State) : refuseAt inst s = .next (refusedState inst s) := by
  cases inst
  · simp only [refuseAt, refusedState, raiseDev_eq (e := .opRefused) (by decide), setDstatus_opRefused]
  · rfl

/-! ## Running on an instance -/

/-- What an operation run on DEV answers. -/
theorem runDev_next {f : Dev → Except Fault (Dev × Result)} {s t : State} (h : runDev f s = .next t) :
    ∃ d r, f s.dev = .ok (d, r) ∧ t = { s with dev := d, result := r } := by
  unfold runDev at h
  split at h
  · next r hr => exact ⟨r.1, r.2, hr, by simpa using h.symm⟩
  · cases h

/-- What an operation run on HOST answers. -/
theorem runHost_next {f : Hst → Except Fault (Hst × Result)} {s t : State} (h : runHost f s = .next t) :
    ∃ g r, f s.host = .ok (g, r) ∧ t = { s with host := g, result := r } := by
  unfold runHost at h
  split at h
  · next r hr => exact ⟨r.1, r.2, hr, by simpa using h.symm⟩
  · cases h

theorem runDev_ok {f : Dev → Except Fault (Dev × Result)} {s : State} {d : Dev} {r : Result}
    (h : f s.dev = .ok (d, r)) : runDev f s = .next { s with dev := d, result := r } := by
  simp [runDev, h]

theorem runHost_ok {f : Hst → Except Fault (Hst × Result)} {s : State} {g : Hst} {r : Result}
    (h : f s.host = .ok (g, r)) : runHost f s = .next { s with host := g, result := r } := by
  simp [runHost, h]

/-- A DEV operation that DEV is ready for runs on DEV. -/
theorem devOp_ready {s : State} (h : s.dev.halted = false) (f : Dev → Except Fault (Dev × Result)) :
    devOp .dev s f = runDev f s := by
  simp [devOp, h]

/-- A halted DEV refuses a DEV operation. -/
theorem devOp_halted {s : State} (h : s.dev.halted = true) (f : Dev → Except Fault (Dev × Result)) :
    devOp .dev s f = .next (refusedState .dev s) := by
  simp [devOp, h, refuseAt_eq]

@[simp] theorem devOp_host (s : State) (f : Dev → Except Fault (Dev × Result)) :
    devOp .host s f = .next (refusedState .host s) := by
  simp [devOp, refuseAt_eq]

@[simp] theorem devOpAlways_host (s : State) (f : Dev → Except Fault (Dev × Result)) :
    devOpAlways .host s f = .next (refusedState .host s) := by
  simp [devOpAlways, refuseAt_eq]

@[simp] theorem hostOp_dev (s : State) (f : Hst → Except Fault (Hst × Result)) :
    hostOp .dev s f = .next (refusedState .dev s) := by
  simp [hostOp, refuseAt_eq]

@[simp] theorem devOpAlways_dev (s : State) (f : Dev → Except Fault (Dev × Result)) :
    devOpAlways .dev s f = runDev f s := rfl

@[simp] theorem hostOp_host (s : State) (f : Hst → Except Fault (Hst × Result)) :
    hostOp .host s f = runHost f s := rfl

/-- Everything a DEV operation can answer. -/
theorem devOp_next {inst : Inst} {s t : State} {f : Dev → Except Fault (Dev × Result)}
    (h : devOp inst s f = .next t) :
    t = refusedState inst s ∨
      (inst = .dev ∧ s.dev.halted = false ∧ ∃ d r, f s.dev = .ok (d, r) ∧ t = { s with dev := d, result := r }) := by
  cases inst
  · cases hh : s.dev.halted
    · rw [devOp_ready hh] at h
      exact .inr ⟨rfl, rfl, runDev_next h⟩
    · rw [devOp_halted hh] at h
      exact .inl (by simpa using h.symm)
  · rw [devOp_host] at h
    exact .inl (by simpa using h.symm)

/-- Everything a HOST operation can answer. -/
theorem hostOp_next {inst : Inst} {s t : State} {f : Hst → Except Fault (Hst × Result)}
    (h : hostOp inst s f = .next t) :
    t = refusedState inst s ∨
      (inst = .host ∧ ∃ g r, f s.host = .ok (g, r) ∧ t = { s with host := g, result := r }) := by
  cases inst
  · rw [hostOp_dev] at h
    exact .inl (by simpa using h.symm)
  · exact .inr ⟨rfl, runHost_next h⟩

/-! ## Sequences -/

/-- An invariant that each operation keeps is kept by a sequence of them. -/
theorem runSequence_keeps {α : Type} {f : α → State → Answer} {P : State → Prop}
    (hstep : ∀ x s t, P s → f x s = .next t → P t) :
    ∀ (xs : List α) (s t : State), P s → runSequence f xs s = .next t → P t
  | [], s, t, hs, h => by
    have : s = t := by simpa [runSequence] using h
    exact this ▸ hs
  | x :: xs, s, t, hs, h => by
    simp only [runSequence] at h
    split at h
    · next u hu => exact runSequence_keeps hstep xs u t (hstep x s u hs hu) h
    · cases h
    · cases h

/-- A relation that is reflexive and transitive and holds over each operation holds over a sequence of them. -/
theorem runSequence_rel {α : Type} {f : α → State → Answer} {R : State → State → Prop}
    (hrefl : ∀ s, R s s) (htrans : ∀ a b c, R a b → R b c → R a c)
    (hstep : ∀ x s t, f x s = .next t → R s t)
    (xs : List α) (s t : State) (h : runSequence f xs s = .next t) : R s t :=
  runSequence_keeps (P := R s) (fun x u v hu hv => htrans s u v hu (hstep x u v hv)) xs s t (hrefl s) h

theorem runSequence_append {α : Type} (f : α → State → Answer) :
    ∀ (xs ys : List α) (s t : State), runSequence f xs s = .next t →
      runSequence f (xs ++ ys) s = runSequence f ys t
  | [], ys, s, t, h => by
    have : s = t := by simpa [runSequence] using h
    simp [this]
  | x :: xs, ys, s, t, h => by
    simp only [runSequence, List.cons_append] at h ⊢
    split at h
    · next u hu => simpa only [hu] using runSequence_append f xs ys u t h
    · cases h
    · cases h

/-! ## `Emit` -/

/-- `Emit` into a queue with room. -/
theorem emit_room {src : Src} {d : Dev} (h : (txqOf d.txq src).length < Config.txqDepth src) (frame : List Byte) :
    emit src frame d = ({ d with txq := txqWith d.txq src (txqOf d.txq src ++ [frame]) }, true) := by
  simp [emit, emitWith, h]

/-- `Emit` into a full queue. -/
theorem emit_full {src : Src} {d : Dev} (h : ¬ (txqOf d.txq src).length < Config.txqDepth src) (frame : List Byte) :
    emit src frame d = ({ d with dstatus := d.dstatus ||| 0x1 }, false) := by
  simp only [emit, emitWith, h, if_false, raiseDev_eq (e := .txqOverflow) (by decide), setDstatus_txqOverflow]

/-- What `Emit` leaves as it is. -/
theorem emit_frame (src : Src) (frame : List Byte) (d : Dev) :
    (emit src frame d).1 =
      { d with txq := (emit src frame d).1.txq, dstatus := (emit src frame d).1.dstatus } := by
  by_cases h : (txqOf d.txq src).length < Config.txqDepth src
  · rw [emit_room h]
  · rw [emit_full h]

/-! ## Draws -/

/-- A draw from a list is one of its elements. -/
theorem drawFrom_mem {α : Type} {free : Nat} {xs : List α} {x : α} (h : drawFrom free xs = some x) : x ∈ xs := by
  match xs, h with
  | [y], h => simp_all [drawFrom]
  | y :: z :: rest, h => exact List.mem_of_getElem? h

/-- There is a draw from every list that is not empty. -/
theorem drawFrom_isSome {α : Type} (free : Nat) {xs : List α} (h : xs ≠ []) : ∃ x, drawFrom free xs = some x := by
  match xs, h with
  | [y], _ => exact ⟨y, rfl⟩
  | y :: z :: rest, _ =>
    have : free % (rest.length + 2) < (y :: z :: rest).length := by
      have := Nat.mod_lt free (show 0 < rest.length + 2 by omega)
      simp only [List.length_cons]
      omega
    exact ⟨_, List.getElem?_eq_getElem this⟩

theorem drawUpTo_le (free n : Nat) : drawUpTo free n ≤ n := by
  have := Nat.mod_lt free (show 0 < n + 1 by omega)
  simp only [drawUpTo]
  omega

/-- A draw within an envelope stays within it. -/
theorem drawWithin_bounds (free n : Nat) : -(n : Int) ≤ drawWithin free n ∧ drawWithin free n ≤ n := by
  have := Nat.mod_lt free (show 0 < 2 * n + 1 by omega)
  simp only [drawWithin]
  omega

/-! ## Exact arithmetic -/

theorem clamp_eq (v lo hi : Int) (h : lo ≤ hi) : clamp v lo hi = max lo (min hi v) := by
  unfold clamp
  split_ifs <;> omega

/-- `clamp16` as an integer. -/
theorem clamp16_toInt (v : Int) : (clamp16 v).toInt = max (-32768) (min 32767 v) := by
  simp only [clamp16, Config.pcmMin, Config.pcmMax, clamp_eq v (-32768) 32767 (by omega), BitVec.toInt_ofInt]
  rw [Int.bmod_eq_of_le] <;> omega

/-- `clampIdx` as a natural. -/
theorem clampIdx_toNat (v : Int) : ((clampIdx v).toNat : Int) = max 0 (min 88 v) := by
  simp only [clampIdx, Config.stepIndexMax, BitVec.toNat_ofInt, clamp_eq v 0 (88 : Nat) (by omega)]
  omega

theorem clampIdx_le (v : Int) : (clampIdx v).toNat ≤ 88 := by
  have := clampIdx_toNat v
  omega

end Sys2Proof.Machine
end

