-- ==== Sys2Proof/Laws/Codec.lean ====
section
/-! SUPPORT. The codec: what its micro-operations compute, in integers, and what a run over codes returns. -/

namespace Sys2Proof.Machine

/-- The tables have the lengths of R7. -/
theorem tables_length : Config.stepTable.length = Config.stepTableLen ∧
    Config.indexTable.length = Config.indexTableLen := ⟨rfl, rfl⟩

/-- Every entry of `StepTable` is positive and fits 15 bits (R120). -/
theorem stepTable_bounds : ∀ x ∈ Config.stepTable, 7 ≤ x ∧ x ≤ 32767 := by decide

/-- Every entry of `IndexTable` lies in -1..8 (R121). -/
theorem indexTable_bounds : ∀ n : Nibble, -1 ≤ indexDelta n ∧ indexDelta n ≤ 8 := by decide

theorem stepAt_le (i : BitVec 7) : stepAt i ≤ 32767 := by
  unfold stepAt
  by_cases h : i.toNat < Config.stepTable.length
  · rw [List.getD_eq_getElem _ _ h]
    exact (stepTable_bounds _ (List.getElem_mem h)).2
  · rw [List.getD_eq_default _ _ (by omega)]; exact Nat.zero_le _

/-- `DeltaOf` in divisions (R122). -/
theorem deltaOf_eq (n : Nibble) (step : Nat) : deltaOf n step = deltaSpec n step := by
  simp only [deltaOf, deltaOfWith, deltaSpec, Config.deltaBase, if_true, Nat.shiftRight_eq_div_pow]

/-- The largest delta of a step (R122). -/
theorem deltaSpec_le (n : Nibble) {step : Nat} (h : step ≤ 32767) : deltaSpec n step ≤ 61436 := by
  unfold deltaSpec
  split_ifs <;> omega

/-- `ApplyDelta` in integers (R123). -/
theorem applyDelta_toInt (p : Sample) (n : Nibble) (step : Nat) :
    (applyDelta p n step).toInt =
      max (-32768) (min 32767
        (if n.getLsbD 3 then p.toInt - deltaSpec n step else p.toInt + deltaSpec n step)) := by
  rw [applyDelta, clamp16_toInt, deltaOf_eq]

/-- `NextIndex` in integers (R124). -/
theorem nextIndex_toNat (i : BitVec 7) (n : Nibble) :
    ((nextIndex i n).toNat : Int) = max 0 (min 88 (i.toNat + indexDelta n)) :=
  clampIdx_toNat _

theorem nextIndex_le (i : BitVec 7) (n : Nibble) : (nextIndex i n).toNat ≤ 88 := clampIdx_le _

@[simp] theorem decStep_predictor (c : Codec) (n : Nibble) :
    (decStep c n).1.predictor = applyDelta c.predictor n (stepAt c.stepIndex) := rfl
@[simp] theorem decStep_stepIndex (c : Codec) (n : Nibble) :
    (decStep c n).1.stepIndex = nextIndex c.stepIndex n := rfl
/-- The output sample is the new predictor (R125). -/
theorem decStep_sample (c : Codec) (n : Nibble) : (decStep c n).2 = (decStep c n).1.predictor := rfl
/-- The encoder updates its state as the decoder will (R126). -/
theorem encStep_state (c : Codec) (x : Sample) : (encStep c x).1 = (decStep c (encStep c x).2).1 := rfl

/-- The four bits of a code (R85). -/
theorem codeOfBits_bits : ∀ s m2 m1 m0 : Bool,
    (codeOfBits s m2 m1 m0).getLsbD 3 = s ∧ (codeOfBits s m2 m1 m0).getLsbD 2 = m2 ∧
    (codeOfBits s m2 m1 m0).getLsbD 1 = m1 ∧ (codeOfBits s m2 m1 m0).getLsbD 0 = m0 := by decide

/-! ## Runs over codes -/

theorem decCodes_length (c : Codec) : ∀ ns : List Nibble, (decCodes c ns).2.length = ns.length
  | [] => rfl
  | n :: ns => by simp [decCodes, decCodes_length _ ns]

theorem decCodes_index (c : Codec) (h : c.stepIndex.toNat ≤ 88) :
    ∀ ns : List Nibble, (decCodes c ns).1.stepIndex.toNat ≤ 88
  | [] => h
  | _ :: ns => decCodes_index _ (nextIndex_le _ _) ns

/-- The state behind a run of codes holds the last output sample as its predictor. -/
theorem decCodes_predictor (c : Codec) : ∀ ns : List Nibble,
    (decCodes c ns).1.predictor = ((decCodes c ns).2.getLast?).getD c.predictor
  | [] => rfl
  | n :: ns => by
    have := decCodes_predictor (decStep c n).1 ns
    simp only [decCodes]
    rw [this, List.getLast?_cons, Option.getD_some]
    rfl

theorem codesOf_length : ∀ bs : List Byte, (codesOf bs).length = 2 * bs.length
  | [] => rfl
  | b :: bs => by simp [codesOf, codesOf_length bs]; omega

theorem isAudioFrame_length {f : List Byte} (h : isAudioFrame f = true) : f.length = 66 := by
  simp [isAudioFrame, Config.audioFrameBytes] at h
  exact h.1.1

theorem isThermalFrame_length {f : List Byte} (h : isThermalFrame f = true) : f.length = 1538 := by
  simp [isThermalFrame, Config.thermalFrameBytes] at h
  exact h.1.1

/-- An audio frame carries 118 codes (R82). -/
theorem frameCodes_length {f : List Byte} (h : isAudioFrame f = true) : (frameCodes f).length = 118 := by
  simp [frameCodes, codesOf_length, isAudioFrame_length h]

/-- The code packed first comes out first (R54, R172). -/
theorem codesOf_packed (lo hi : Nibble) (bs : List Byte) :
    codesOf ((hi ++ lo : BitVec 8) :: bs) = lo :: hi :: codesOf bs := by
  have h1 : (hi ++ lo : BitVec 8).extractLsb' 0 4 = lo := by
    revert hi lo; decide
  have h2 : (hi ++ lo : BitVec 8).extractLsb' 4 4 = hi := by
    revert hi lo; decide
  simp [codesOf, h1, h2]

/-! ## The operations -/

/-- `ENC_SAMPLE` at a step index in the table. -/
theorem encSample_ok {d : Dev} (h : d.enc.stepIndex.toNat ≤ 88) (pcm : Sample) :
    encSample pcm d = .ok ({ d with enc := (encStep d.enc pcm).1 }, (encStep d.enc pcm).2) := by
  simp [encSample, indexInTable, Config.stepIndexMax, h]

/-- `DEC_NIBBLE` at a step index in the table. -/
theorem decNibble_ok {g : Hst} (h : g.dec.stepIndex.toNat ≤ 88) (n : Nibble) :
    decNibble n g = .ok ({ g with dec := (decStep g.dec n).1 }, (decStep g.dec n).2) := by
  simp [decNibble, indexInTable, Config.stepIndexMax, h]

theorem decLoad_good {i : Byte} (h : i.toNat ≤ 88) (p : Sample) (g : Hst) :
    decLoad p i g = { g with dec := { predictor := p, stepIndex := i.setWidth 7 } } := by
  simp [decLoad, Config.stepIndexMax, Nat.not_lt.mpr h]

theorem decLoad_bad {i : Byte} (h : 88 < i.toNat) (p : Sample) (g : Hst) :
    decLoad p i g = raiseHost .badStepIndex g := by
  simp [decLoad, Config.stepIndexMax, h]

/-- `DEC_PACKET` of an audio frame with a good step index. -/
theorem decPacket_good {f : List Byte} (hf : isAudioFrame f = true) (hi : (frameStepIndex f).toNat ≤ 88) (g : Hst) :
    decPacket f g =
      ({ g with dec := (decCodes ⟨framePredictor f, (frameStepIndex f).setWidth 7⟩ (frameCodes f)).1 },
        some (frameSeq f, (decCodes ⟨framePredictor f, (frameStepIndex f).setWidth 7⟩ (frameCodes f)).2)) := by
  simp [decPacket, hf, Config.stepIndexMax, Nat.not_lt.mpr hi, decLoad_good hi]

theorem decPacket_bad {f : List Byte} (hf : isAudioFrame f = true) (hi : 88 < (frameStepIndex f).toNat) (g : Hst) :
    decPacket f g = (raiseHost .badStepIndex g, none) := by
  simp [decPacket, hf, Config.stepIndexMax, hi]

theorem decPacket_other {f : List Byte} (hf : isAudioFrame f = false) (g : Hst) :
    decPacket f g = (raiseHost .opRefused g, none) := by
  simp [decPacket, hf]

end Sys2Proof.Machine
end

