-- ==== Sys2Proof/Laws/Decode.lean ====
section
/-! SUPPORT. Byte order, first bytes and lines: what reading gives back of what was written. -/

namespace Sys2Proof

/-- `RdLE16` reads what `LE16` writes (R11). -/
theorem rdLE16_le16 (v : U16) : rdLE16 (v.extractLsb' 0 8) (v.extractLsb' 8 8) = v := by
  apply BitVec.eq_of_toNat_eq
  simp only [rdLE16, BitVec.toNat_ofNat, BitVec.extractLsb'_toNat, Nat.shiftRight_eq_div_pow]
  have := v.isLt
  omega

/-- `LE16` writes what `RdLE16` reads (R11). -/
theorem le16_rdLE16 (b0 b1 : Byte) : le16 (rdLE16 b0 b1) = [b0, b1] := by
  have h0 := b0.isLt
  have h1 := b1.isLt
  have e0 : (rdLE16 b0 b1).extractLsb' 0 8 = b0 := by
    apply BitVec.eq_of_toNat_eq
    simp only [rdLE16, BitVec.toNat_ofNat, BitVec.extractLsb'_toNat, Nat.shiftRight_eq_div_pow]
    omega
  have e1 : (rdLE16 b0 b1).extractLsb' 8 8 = b1 := by
    apply BitVec.eq_of_toNat_eq
    simp only [rdLE16, BitVec.toNat_ofNat, BitVec.extractLsb'_toNat, Nat.shiftRight_eq_div_pow]
    omega
  simp [le16, e0, e1]

theorem rdLE16_toNat (b0 b1 : Byte) : (rdLE16 b0 b1).toNat = b0.toNat + 256 * b1.toNat := by
  have := b0.isLt
  have := b1.isLt
  simp only [rdLE16, BitVec.toNat_ofNat]
  omega

theorem leWords_length : ∀ ws : List U16, (leWords ws).length = 2 * ws.length
  | [] => rfl
  | w :: ws => by simp [leWords, le16, leWords_length ws]; omega

/-- The words read from written words are those words, whatever follows an even number of bytes (R81, R87). -/
theorem rdWords_leWords : ∀ ws : List U16, rdWords (leWords ws) = ws
  | [] => rfl
  | w :: ws => by simp [leWords, le16, rdWords, rdLE16_le16, rdWords_leWords ws]

theorem rdWords_length : ∀ bs : List Byte, (rdWords bs).length = bs.length / 2
  | [] => rfl
  | [_] => by simp [rdWords]
  | _ :: _ :: bs => by simp only [rdWords, List.length_cons, rdWords_length bs]; omega

/-- Reading and writing again an even number of bytes gives them back. -/
theorem leWords_rdWords : ∀ bs : List Byte, bs.length % 2 = 0 → leWords (rdWords bs) = bs
  | [], _ => rfl
  | [_], h => by simp at h
  | b0 :: b1 :: bs, h => by
    have : bs.length % 2 = 0 := by simp at h; omega
    simp [rdWords, leWords, le16_rdLE16, leWords_rdWords bs this]

/-- A tag is found in front of whatever follows it. -/
@[simp] theorem afterTag_append : ∀ tag bs : List Byte, afterTag tag (tag ++ bs) = some bs
  | [], _ => rfl
  | t :: ts, bs => by simp [afterTag, afterTag_append ts bs]

/-- What a tag was found in front of. -/
theorem afterTag_some : ∀ {tag bs r : List Byte}, afterTag tag bs = some r → bs = tag ++ r
  | [], bs, r, h => by simpa [afterTag] using h
  | t :: ts, [], r, h => by simp [afterTag] at h
  | t :: ts, b :: bs, r, h => by
    simp only [afterTag] at h
    split at h
    · next hb => rw [hb, afterTag_some h]; rfl
    · cases h

/-- A line that ends at its first `0A` is split off whatever follows it (R100). -/
theorem splitLine_append : ∀ (line rest : List Byte), lineTerminated line = true →
    splitLine (line ++ rest) = (line, rest)
  | [], _, h => by simp [lineTerminated] at h
  | b :: bs, rest, h => by
    simp only [lineTerminated] at h
    split at h
    · next hb =>
      have : bs = [] := by simpa using h
      simp [splitLine, hb, this]
    · next hb => simp only [splitLine, List.cons_append, if_neg hb, splitLine_append bs rest h]

/-- A line is a text without `0A` and one `0A`. -/
theorem lineTerminated_iff : ∀ line : List Byte,
    lineTerminated line = true ↔ ∃ text, (0x0A : Byte) ∉ text ∧ line = text ++ [0x0A]
  | [] => by simp [lineTerminated]
  | b :: bs => by
    simp only [lineTerminated]
    split
    · next hb =>
      subst hb
      constructor
      · intro h
        exact ⟨[], by simp, by simpa using h⟩
      · rintro ⟨text, ht, h⟩
        cases text with
        | nil => simpa using h
        | cons c cs =>
          simp only [List.cons_append, List.cons.injEq] at h
          exact absurd (h.1 ▸ List.mem_cons_self) ht
    · next hb =>
      rw [lineTerminated_iff bs]
      constructor
      · rintro ⟨text, ht, rfl⟩
        exact ⟨b :: text, fun hm => (List.mem_cons.mp hm).elim (fun e => hb e.symm) ht, rfl⟩
      · rintro ⟨text, ht, h⟩
        cases text with
        | nil => simp at h; exact absurd h.1 hb
        | cons c cs =>
          simp only [List.cons_append, List.cons.injEq] at h
          exact ⟨cs, fun hm => ht (List.mem_cons_of_mem _ hm), h.2⟩

/-- As many operands as a pseudo-operation takes are the operands it gets (R98). -/
theorem operandVector_toList {n : Nat} {operands : List W32} (h : operands.length = n) :
    (operandVector n operands).toList = operands := by
  subst h
  apply List.ext_getElem
  · simp [operandVector]
  · intro i h1 h2
    simp [operandVector]

/-- Splitting a line off loses no byte. -/
theorem splitLine_join : ∀ bs : List Byte, (splitLine bs).1 ++ (splitLine bs).2 = bs
  | [] => rfl
  | b :: bs => by
    simp only [splitLine]
    split
    · rfl
    · simp [splitLine_join bs]

/-- What the decoder takes off the front of bytes is the encoding of the instruction it answers. -/
theorem decodeWire_ok {bytes more : List Byte} {i : Instr} (h : decodeWire bytes = .ok (i, more)) :
    ∃ chunk, bytes = chunk ++ more ∧ chunk ≠ [] ∧ encode i = .wire chunk := by
  unfold decodeWire at h
  split at h
  · next r hr =>
    rw [afterTag_some hr]
    unfold decodeThermal at h
    split at h
    · cases h
    · next hl =>
      cases h
      refine ⟨tagThermal ++ leWords (rdWords (r.take 1536)), ?_, by simp [tagThermal], rfl⟩
      rw [leWords_rdWords _ (by simp; omega), List.append_assoc, List.take_append_drop]
  split at h
  · next r hr =>
    rw [afterTag_some hr]
    unfold decodeAudio at h
    split at h
    · next s0 s1 p0 p1 i rest =>
      split at h
      · cases h
      · cases h
        refine ⟨tagAudio ++ (le16 (rdLE16 s0 s1) ++ (le16 (rdLE16 p0 p1) ++ (i :: rest.take Config.payloadBytes))),
          ?_, by simp [tagAudio], rfl⟩
        simp [le16_rdLE16, List.append_assoc]
    · cases h
  split at h
  · next r hr =>
    cases h
    exact ⟨tagBtn ++ (splitLine r).1, by rw [afterTag_some hr, List.append_assoc, splitLine_join], by simp [tagBtn], rfl⟩
  split at h
  · next r hr =>
    cases h
    exact ⟨tagDebug ++ (splitLine r).1, by rw [afterTag_some hr, List.append_assoc, splitLine_join], by simp [tagDebug],
      rfl⟩
  split at h
  · next r hr =>
    rw [afterTag_some hr]
    unfold decodeLegacyAA55 at h
    split at h
    · next b rest =>
      split at h
      · cases h
      · cases h
        refine ⟨tagLegacyAA55 ++ (b :: rest.take 1536), ?_, by simp [tagLegacyAA55], rfl⟩
        simp [List.append_assoc]
    · cases h
  split at h
  · next r hr =>
    cases h
    exact ⟨tagLegacyCsv ++ (splitLine r).1, by rw [afterTag_some hr, List.append_assoc, splitLine_join],
      by simp [tagLegacyCsv], rfl⟩
  · cases h

/-! ## What a step runs for a request -/

/-- Only bytes of the link are refused by the decoder. -/
theorem decode_error {r : Request} {e : DecodeError} (h : decode r = .error e) :
    ∃ bytes, r = .wire bytes ∧ decodeWire bytes = .error e := by
  cases r <;> simp only [decode, reduceCtorEq] at h
  next bytes =>
    refine ⟨bytes, rfl, ?_⟩
    cases hw : decodeWire bytes <;> simp_all [Except.map]

theorem requestedInstr_ok {r : Request} {i : Instr} (h : decode r = .ok i) : requestedInstr r = i := by
  simp only [requestedInstr, h]

theorem requestedInstr_wire {bytes : List Byte} {e : DecodeError} (h : decodeWire bytes = .error e) :
    requestedInstr (.wire bytes) = .dmxFeed .host bytes ∧ leftover (.wire bytes) = [] := by
  simp [requestedInstr, decode, leftover, linkBytes, h, Except.map]

/-- A button line is terminated. -/
theorem buttonLine_terminated {line : List Byte} (h : buttonLine line = true) : lineTerminated line = true := by
  simp only [buttonLine, Bool.or_eq_true, beq_iff_eq] at h
  rcases h with (rfl | rfl) | rfl <;> decide

end Sys2Proof
end

