-- ==== Sys2Proof/Laws/Exec.lean ====
section
/-! SUPPORT. Each arm of `exec` as the shared operation it runs. -/

namespace Sys2Proof.Machine

theorem exec_encSample (inst : Inst) (pcm : Sample) (s : State) :
    exec (.encSample inst pcm) s =
      devOp inst s fun d => (encSample pcm d).map fun r => (r.1, .word (r.2.zeroExtend 32)) := rfl
theorem exec_encRdstate (inst : Inst) (s : State) :
    exec (.encRdstate inst) s =
      devOp inst s fun d => .ok (d, .word (rdstateWord d.enc)) := rfl
theorem exec_audPush (inst : Inst) (pcm : Sample) (s : State) :
    exec (.audPush inst pcm) s =
      devOp inst s fun d => (audPush pcm d).map fun d1 => (d1, .nothing) := rfl
theorem exec_qEnc (inst : Inst) (temp : F32) (s : State) :
    exec (.qEnc inst temp) s =
      devOp inst s fun d => .ok ((qEnc temp d).1, .word ((qEnc temp d).2.zeroExtend 32)) := rfl
theorem exec_thmPush (inst : Inst) (temp : F32) (s : State) :
    exec (.thmPush inst temp) s =
      devOp inst s fun d => (thmPush temp d).map fun d1 => (d1, .nothing) := rfl
theorem exec_btnPoll (inst : Inst) (count : BitVec 2) (s : State) :
    exec (.btnPoll inst count) s =
      devOp inst s fun d => .ok (btnPoll count d, .nothing) := rfl
theorem exec_dbgText (inst : Inst) (text : List Byte) (s : State) :
    exec (.dbgText inst text) s =
      devOp inst s fun d => .ok (dbgText text d, .nothing) := rfl
theorem exec_devInit (inst : Inst) (audioOk thermalOk : Bool) (s : State) :
    exec (.devInit inst audioOk thermalOk) s =
      devOp inst s fun d => .ok (devInit audioOk thermalOk d, .nothing) := rfl
theorem exec_rdDstatus (inst : Inst) (s : State) :
    exec (.rdDstatus inst) s =
      devOpAlways inst s fun d => .ok (d, .word (d.dstatus.zeroExtend 32)) := rfl
theorem exec_decLoad (inst : Inst) (predictor : Sample) (stepIndex : Byte) (s : State) :
    exec (.decLoad inst predictor stepIndex) s =
      hostOp inst s fun h => .ok (decLoad predictor stepIndex h, .nothing) := rfl
theorem exec_decNibble (inst : Inst) (code : Nibble) (s : State) :
    exec (.decNibble inst code) s =
      hostOp inst s fun h => (decNibble code h).map fun r => (r.1, .word (r.2.zeroExtend 32)) := rfl
theorem exec_decPacket (inst : Inst) (frame : List Byte) (s : State) :
    exec (.decPacket inst frame) s =
      hostOp inst s fun h => .ok ((decPacket frame h).1, packetResult (decPacket frame h).2) := rfl
theorem exec_qDec (inst : Inst) (word : U16) (s : State) :
    exec (.qDec inst word) s =
      hostOp inst s fun h => .ok (h, .word (qDec word)) := rfl
theorem exec_thmDecode (inst : Inst) (frame : List Byte) (s : State) :
    exec (.thmDecode inst frame) s =
      hostOp inst s fun h => .ok ((thmDecode frame h).1, tempsResult (thmDecode frame h).2) := rfl
theorem exec_dmxFeed (inst : Inst) (chunk : List Byte) (s : State) :
    exec (.dmxFeed inst chunk) s =
      hostOp inst s fun h => .ok (dmxFeed chunk h, .nothing) := rfl
theorem exec_recPacket (inst : Inst) (frame : List Byte) (s : State) :
    exec (.recPacket inst frame) s =
      hostOp inst s fun h => .ok (recPacket frame h, .nothing) := rfl
theorem exec_sessionReset (inst : Inst) (s : State) :
    exec (.sessionReset inst) s =
      hostOp inst s fun h => .ok (resetHost h, .nothing) := rfl
theorem exec_rdHstatus (inst : Inst) (s : State) :
    exec (.rdHstatus inst) s =
      hostOp inst s fun h => .ok (h, .word (h.hstatus.zeroExtend 32)) := rfl
theorem exec_reserved0A (inst : Inst) (s : State) :
    exec (.reserved0A inst) s =
      refuseAt inst s := rfl
theorem exec_reserved0B (inst : Inst) (s : State) :
    exec (.reserved0B inst) s =
      refuseAt inst s := rfl
theorem exec_reserved0C (inst : Inst) (s : State) :
    exec (.reserved0C inst) s =
      refuseAt inst s := rfl
theorem exec_reserved0D (inst : Inst) (s : State) :
    exec (.reserved0D inst) s =
      refuseAt inst s := rfl
theorem exec_reserved0E (inst : Inst) (s : State) :
    exec (.reserved0E inst) s =
      refuseAt inst s := rfl
theorem exec_reserved0F (inst : Inst) (s : State) :
    exec (.reserved0F inst) s =
      refuseAt inst s := rfl
theorem exec_reserved19 (inst : Inst) (s : State) :
    exec (.reserved19 inst) s =
      refuseAt inst s := rfl
theorem exec_reserved1A (inst : Inst) (s : State) :
    exec (.reserved1A inst) s =
      refuseAt inst s := rfl
theorem exec_reserved1B (inst : Inst) (s : State) :
    exec (.reserved1B inst) s =
      refuseAt inst s := rfl
theorem exec_reserved1C (inst : Inst) (s : State) :
    exec (.reserved1C inst) s =
      refuseAt inst s := rfl
theorem exec_reserved1D (inst : Inst) (s : State) :
    exec (.reserved1D inst) s =
      refuseAt inst s := rfl
theorem exec_reserved1E (inst : Inst) (s : State) :
    exec (.reserved1E inst) s =
      refuseAt inst s := rfl
theorem exec_reserved1F (inst : Inst) (s : State) :
    exec (.reserved1F inst) s =
      refuseAt inst s := rfl
theorem exec_txStep (s : State) :
    exec .txStep s =
      runDev (fun d => (txStep d).map fun d1 => (d1, .nothing)) s := rfl
theorem exec_audPacket (samples : List Sample) (s : State) :
    exec (.audPacket samples) s =
      runSequence (execAudPush .dev) samples s := rfl
theorem exec_thmFrame (temps : List F32) (s : State) :
    exec (.thmFrame temps) s =
      runSequence (execThmPush .dev) temps s := rfl
theorem exec_thmZero (s : State) :
    exec .thmZero s =
      runSequence (execThmPush .dev) (List.replicate Config.thermalPixels 0) s := rfl
theorem exec_frameThermal (words : List U16) (s : State) :
    exec (.frameThermal words) s =
      wireArrives (tagThermal ++ leWords words) s := rfl
theorem exec_frameAudio (seq : U16) (predictor : Sample) (stepIndex : Byte) (payload : List Byte) (s : State) :
    exec (.frameAudio seq predictor stepIndex payload) s =
      wireArrives (tagAudio ++ (le16 seq ++ (le16 predictor ++ (stepIndex :: payload)))) s := rfl
theorem exec_frameBtn (line : List Byte) (s : State) :
    exec (.frameBtn line) s =
      wireArrives (tagBtn ++ line) s := rfl
theorem exec_frameDebug (line : List Byte) (s : State) :
    exec (.frameDebug line) s =
      wireArrives (tagDebug ++ line) s := rfl
theorem exec_frameLegacyAA55 (button : Byte) (payload : List Byte) (s : State) :
    exec (.frameLegacyAA55 button payload) s =
      wireArrives (tagLegacyAA55 ++ (button :: payload)) s := rfl
theorem exec_frameLegacyCsv (line : List Byte) (s : State) :
    exec (.frameLegacyCsv line) s =
      wireArrives (tagLegacyCsv ++ line) s := rfl

/-- Bytes of the link arrive as one chunk (R57, R203). -/
theorem wireArrives_eq (bytes : List Byte) (s : State) :
    wireArrives bytes s = .next { s with host := dmxFeed bytes s.host, result := .nothing } := by
  simp only [wireArrives, runHost]

/-- An instruction that a wire request presents is the arrival of its bytes (log 13). -/
theorem exec_wire {i : Instr} {bytes : List Byte} (h : encode i = .wire bytes) (s : State) :
    exec i s = wireArrives bytes s := by
  cases i <;> simp only [encode, encodeWord, encodeBulk, Request.wire.injEq, reduceCtorEq] at h <;> subst h <;> rfl

theorem exec_adpcmCode (code : Nibble) (s : State) :
    exec (.adpcmCode code) s =
      runHost (fun h => (decNibble code h).map fun r => (r.1, .word (r.2.zeroExtend 32))) s := rfl

end Sys2Proof.Machine
end

