-- ==== Sys2Proof/Laws/Builder.lean ====
section
/-! SUPPORT. The frame builder and the multiplexer: what `AUD_PUSH`, `THM_PUSH` and `TX_STEP` do to DEV, and what the frame
constructors' frames read back as. -/

namespace Sys2Proof.Machine

/-! ## Frames -/

/-- The fields of the frame that `MkAudioFrame` makes (R82, R86, R174). -/
theorem mkAudioFrame_fields (seq : U16) (p : Sample) (i : Byte) {buf : List Byte} (h : buf.length = 59) :
    isAudioFrame (mkAudioFrame seq p i buf) = true ∧ frameSeq (mkAudioFrame seq p i buf) = seq ∧
    framePredictor (mkAudioFrame seq p i buf) = p ∧ frameStepIndex (mkAudioFrame seq p i buf) = i ∧
    frameCodes (mkAudioFrame seq p i buf) = codesOf buf := by
  refine ⟨?_, ?_, ?_, rfl, rfl⟩
  · simp [isAudioFrame, mkAudioFrame, tagAudio, le16, h, byteAt, Config.audioFrameBytes]
  · exact rdLE16_le16 seq
  · exact rdLE16_le16 p

/-- The words of the frame that `MkThermalFrame` makes (R81, R87, R175). -/
theorem mkThermalFrame_fields {words : List U16} (h : words.length = 768) :
    isThermalFrame (mkThermalFrame words) = true ∧ frameWords (mkThermalFrame words) = words := by
  refine ⟨?_, rdWords_leWords words⟩
  simp [isThermalFrame, mkThermalFrame, tagThermal, leWords_length, h, byteAt, Config.thermalFrameBytes]

/-- An audio frame is the frame that `MkAudioFrame` makes of its fields. -/
theorem isAudioFrame_eq {f : List Byte} (h : isAudioFrame f = true) :
    f = mkAudioFrame (frameSeq f) (framePredictor f) (frameStepIndex f) (f.drop 7) := by
  have hl := isAudioFrame_length h
  match f, hl with
  | a :: b :: c :: d :: e :: g :: k :: rest, _ =>
    simp [isAudioFrame, byteAt] at h
    simp [mkAudioFrame, tagAudio, frameSeq, framePredictor, frameStepIndex, byteAt, le16_rdLE16, h]

/-- A thermal frame is the frame that `MkThermalFrame` makes of its words. -/
theorem isThermalFrame_eq {f : List Byte} (h : isThermalFrame f = true) : f = mkThermalFrame (frameWords f) := by
  have hl := isThermalFrame_length h
  match f, hl with
  | a :: b :: rest, hl =>
    simp [isThermalFrame, byteAt] at h
    simp only [mkThermalFrame, frameWords, List.drop_succ_cons, List.drop_zero]
    rw [leWords_rdWords rest (by simp at hl; omega)]
    simp [tagThermal, h]

/-! ## `AUD_PUSH` -/

theorem packNibble_even {count : BitVec 7} (h : count.toNat % 2 = 0) (old : Byte) (n : Nibble) :
    packNibble count old n = (0#4 ++ n : BitVec 8) := by
  have : count.getLsbD 0 = false := by
    rw [BitVec.getLsbD, Nat.testBit_zero]
    simp [h]
  rw [packNibble, this, BitVec.zeroExtend, BitVec.setWidth_eq_append (by omega)]
  rfl

theorem packNibble_odd {count : BitVec 7} (h : count.toNat % 2 = 1) (old : Byte) (n : Nibble) :
    packNibble count old n = (n ++ old.extractLsb' 0 4 : BitVec 8) := by
  have : count.getLsbD 0 = true := by
    rw [BitVec.getLsbD, Nat.testBit_zero]
    simp [h]
  rw [packNibble, this]
  rfl

/-- DEV behind the encoding and the packing of one sample, before the frame is offered (R170 to R172). -/
def pushed (pcm : Sample) (d : Dev) : Dev :=
  packCode (encStep d.enc pcm).2 { captureHeader d with enc := (encStep d.enc pcm).1 }

/-- `AUD_PUSH` within its ranges. -/
theorem audPush_eq {d : Dev} (hi : d.enc.stepIndex.toNat ≤ 88) (hc : d.pkt.count.toNat ≤ 117) (pcm : Sample) :
    audPush pcm d = .ok (completePacket (pushed pcm d)) := by
  have : d.pkt.count.toNat < Config.samplesPerPacket := by
    simp only [Config.samplesPerPacket]
    omega
  simp only [audPush, if_pos this, encSample_ok (d := captureHeader d) (by simpa using hi), captureHeader_enc, Except.map]
  rfl

/-- What the encoding and the packing change. -/
theorem pushed_eq (pcm : Sample) (d : Dev) :
    pushed pcm d = { d with enc := (encStep d.enc pcm).1, pkt := (pushed pcm d).pkt } := by
  simp only [pushed, packCode, captureHeader_eq]

theorem pushed_count {d : Dev} (h : d.pkt.count.toNat ≤ 117) (pcm : Sample) :
    (pushed pcm d).pkt.count.toNat = d.pkt.count.toNat + 1 := by
  simp only [pushed, packCode_count, captureHeader_count, BitVec.toNat_add]
  simp
  omega

theorem pushed_seq (d : Dev) (pcm : Sample) : (pushed pcm d).pkt.seq = d.pkt.seq := by
  simp [pushed]

theorem count_eq_zero (d : Dev) : d.pkt.count = 0 ↔ d.pkt.count.toNat = 0 := by
  rw [← BitVec.toNat_inj]
  rfl

/-- The header is captured before the first sample (R171). -/
theorem pushed_header (d : Dev) (pcm : Sample) :
    (pushed pcm d).pkt.hdrPredictor = (if d.pkt.count.toNat = 0 then d.enc.predictor else d.pkt.hdrPredictor) ∧
    (pushed pcm d).pkt.hdrStepIndex =
      (if d.pkt.count.toNat = 0 then d.enc.stepIndex.zeroExtend 8 else d.pkt.hdrStepIndex) := by
  simp only [pushed, packCode_hdrPredictor, packCode_hdrStepIndex, captureHeader_eq, count_eq_zero, and_self]

/-- The code goes into the low or the high nibble of its byte (R172). -/
theorem pushed_buf (d : Dev) (pcm : Sample) :
    (pushed pcm d).pkt.buf.toList = d.pkt.buf.toList.set (d.pkt.count.toNat / 2)
      (if d.pkt.count.toNat % 2 = 0 then (0#4 ++ (encStep d.enc pcm).2 : BitVec 8)
        else ((encStep d.enc pcm).2 ++ (d.pkt.buf.toList.getD (d.pkt.count.toNat / 2) 0).extractLsb' 0 4 : BitVec 8)) := by
  simp only [pushed, packCode_buf, captureHeader_buf, captureHeader_count, Vector.toList_setIfInBounds,
    Nat.shiftRight_eq_div_pow, Nat.pow_one]
  congr 1
  split_ifs with h
  · rw [packNibble_even h]
  · rw [packNibble_odd (by omega)]

theorem completePacket_mid {d : Dev} (h : d.pkt.count.toNat ≠ 118) : completePacket d = d := by
  simp [completePacket, Config.samplesPerPacket, h]

/-- A full packet is offered, accepted or not, and the next one starts (R173). -/
theorem completePacket_end {d : Dev} (h : d.pkt.count.toNat = 118) :
    completePacket d =
      { (emit .aud (mkAudioFrame d.pkt.seq d.pkt.hdrPredictor d.pkt.hdrStepIndex d.pkt.buf.toList) d).1 with
        pkt := { d.pkt with seq := d.pkt.seq + 1, count := 0 } } := by
  simp only [completePacket, Config.samplesPerPacket, h, if_true]
  rw [emit_frame]

/-! ## `THM_PUSH` -/

/-- The lower bound of a temperature, in units (R7). -/
theorem tempMin_units : Config.tempMin * 2 ^ 149 = 0 := Nat.zero_mul _

theorem quant_le {b : F32} {w : U16} (h : quant b = some w) : w.toNat ≤ 400 := by
  have key : ∀ c, c ≤ Config.tempMax * 2 ^ 149 → scaleRoundWith Config.qmul c ≤ 400 := by
    intro c hc
    simp only [scaleRoundWith, Config.qmul, Config.tempScale, Config.tempMax] at hc ⊢
    omega
  simp only [quant, quantWith, Option.map_eq_some_iff] at h
  obtain ⟨c, hc, rfl⟩ := h
  have hle : c ≤ Config.tempMax * 2 ^ 149 := by
    have hz := tempMin_units
    cases hv : val b <;> rw [hv] at hc <;> simp only [clampTemp, Option.some.injEq, reduceCtorEq] at hc
    · rw [← hc]; split_ifs <;> omega
    · rw [← hc]; split_ifs <;> omega
  have := key c hle
  rw [BitVec.toNat_ofNat, Nat.mod_eq_of_lt (by omega)]
  exact this

/-- `Q_ENC` on a pattern that is no NaN. -/
theorem qEnc_some {b : F32} {w : U16} (h : quant b = some w) (d : Dev) : qEnc b d = (d, w) := by
  simp [qEnc, h]

/-- `Q_ENC` on a NaN: the bit, one draw, and some word of 0..400 (R153). -/
theorem qEnc_nan {b : F32} (h : quant b = none) (d : Dev) :
    ∃ w : U16, w.toNat ≤ 400 ∧
      qEnc b d = ({ d with dstatus := d.dstatus ||| 0x2, draws := d.draws + 1 }, w) := by
  refine ⟨BitVec.ofNat 16 (drawUpTo (Config.drawNaN d.draws) Config.qMax), ?_, ?_⟩
  · have := drawUpTo_le (Config.drawNaN d.draws) Config.qMax
    simp only [Config.qMax] at this ⊢
    rw [BitVec.toNat_ofNat]
    omega
  · simp only [qEnc, h, raiseDev_eq (e := .quantNaN) (by decide), setDstatus_quantNaN]

/-- `Q_ENC` of any pattern. -/
theorem qEnc_cases (b : F32) (d : Dev) :
    ∃ w : U16, w.toNat ≤ 400 ∧ (∀ v, quant b = some v → w = v) ∧
      qEnc b d = ({ d with
        dstatus := d.dstatus ||| (if quant b = none then 0x2 else 0)
        draws := d.draws + (if quant b = none then 1 else 0) }, w) := by
  cases h : quant b with
  | none =>
    obtain ⟨w, hw, he⟩ := qEnc_nan h d
    exact ⟨w, hw, by simp, by simp [he]⟩
  | some w => exact ⟨w, quant_le h, by simp, by simp [qEnc_some h]⟩

theorem completeThermal_mid {d : Dev} (h : d.thf.count.toNat ≠ 768) : completeThermal d = d := by
  simp [completeThermal, Config.thermalPixels, h]

/-- A full thermal frame is offered, and the next one starts (R176). -/
theorem completeThermal_end {d : Dev} (h : d.thf.count.toNat = 768) :
    completeThermal d =
      { (emit .thm (mkThermalFrame d.thf.words.toList) d).1 with thf := { d.thf with count := 0 } } := by
  simp only [completeThermal, Config.thermalPixels, h, if_true]
  rw [emit_frame]

/-- `THM_PUSH` within its range. -/
theorem thmPush_eq {d : Dev} (hc : d.thf.count.toNat ≤ 767) (b : F32) :
    thmPush b d = .ok (completeThermal (storeWord (qEnc b d).2 (qEnc b d).1)) := by
  have : d.thf.count.toNat < Config.thermalPixels := by
    simp only [Config.thermalPixels]
    omega
  simp only [thmPush, if_pos this]

/-! ## `TX_STEP` -/

theorem mem_pendingSources (q : Txq) (src : Src) : src ∈ pendingSources q ↔ txqOf q src ≠ [] := by
  cases src <;> simp [pendingSources, List.mem_filter]

theorem pendingSources_eq_nil (q : Txq) : pendingSources q = [] ↔ ∀ src, txqOf q src = [] := by
  constructor
  · intro h src
    by_contra hne
    have := (mem_pendingSources q src).mpr hne
    rw [h] at this
    cases this
  · intro h
    simp [pendingSources, h]

/-- `TX_STEP` where it is not enabled (R184; log 3). -/
theorem txStep_disabled {d : Dev} (h : d.halted = true ∨ (d.tx.busy = false ∧ ∀ src, txqOf d.txq src = [])) :
    txStep d = .ok d := by
  rcases h with h | ⟨h1, h2⟩
  · simp [txStep, txEnabled, h]
  · simp [txStep, txEnabled, h1, (pendingSources_eq_nil d.txq).mpr h2]

/-- One byte of the frame in flight (R184). -/
theorem writeByte_eq {d : Dev} (h : d.tx.idx < d.tx.frame.length) :
    writeByte d = .ok { d with
      sink := d.sink ++ [d.tx.frame.getD d.tx.idx 0]
      tx := { d.tx with idx := d.tx.idx + 1, busy := d.tx.idx + 1 != d.tx.frame.length } } := by
  simp only [writeByte, List.getElem?_eq_getElem h]
  rw [List.getD_eq_getElem _ _ h]

/-- `TX_STEP` with a frame in flight. -/
theorem txStep_busy {d : Dev} (h : d.halted = false) (hb : d.tx.busy = true) : txStep d = writeByte d := by
  simp [txStep, txEnabled, h, hb, selectFrame]

/-- `TX_STEP` with no frame in flight starts one of the sources that have a frame (R184, R186). -/
theorem txStep_start {d : Dev} (h : d.halted = false) (hb : d.tx.busy = false) (hq : ∃ src, txqOf d.txq src ≠ []) :
    ∃ src, txqOf d.txq src ≠ [] ∧ txStep d = writeByte (startFrame src { d with draws := d.draws + 1 }) := by
  have hne : pendingSources d.txq ≠ [] := by
    intro e
    obtain ⟨src, hs⟩ := hq
    exact hs ((pendingSources_eq_nil d.txq).mp e src)
  obtain ⟨src, hs⟩ := drawFrom_isSome (Config.drawArbiter d.draws) hne
  refine ⟨src, (mem_pendingSources _ _).mp (drawFrom_mem hs), ?_⟩
  simp [txStep, txEnabled, h, hb, hne, selectFrame, hs]

end Sys2Proof.Machine
end

