-- ==== Sys2Proof/Laws/Demux.lean ====
section
/-! SUPPORT. The demultiplexer's scan: what one item takes off the bytes, what more bytes behind it change, and that the
loops run to their end. -/

namespace Sys2Proof.Machine

/-! ## Taking a frame or a line -/

theorem takeExactly_eq {α : Type} : ∀ (n : Nat) (bs : List α),
    takeExactly n bs = if n ≤ bs.length then some (bs.take n, bs.drop n) else none
  | 0, bs => by simp [takeExactly]
  | n + 1, [] => by simp [takeExactly]
  | n + 1, b :: bs => by
    simp only [takeExactly, takeExactly_eq n bs, List.length_cons, Nat.add_le_add_iff_right]
    by_cases h : n ≤ bs.length <;> simp [h]

/-- What a line was taken from (R206). -/
theorem takeLine_some : ∀ {bs : List Byte} {r : List Byte × List Byte}, takeLine bs = some r →
    bs = r.1 ++ 0x0A :: r.2 ∧ (0x0A : Byte) ∉ r.1
  | [], r, h => by simp [takeLine] at h
  | b :: bs, r, h => by
    simp only [takeLine] at h
    split at h
    · next hb =>
      have : r = ([], bs) := by simpa using h.symm
      simp [this, hb]
    · next hb =>
      split at h
      · next q hq =>
        have : r = (b :: q.1, q.2) := by simpa using h.symm
        obtain ⟨h1, h2⟩ := takeLine_some hq
        subst this
        exact ⟨by simpa using h1, fun hm => (List.mem_cons.mp hm).elim (fun e => hb e.symm) h2⟩
      · cases h

/-- A line stands in front of whatever follows its terminator (R206). -/
theorem takeLine_append : ∀ (line rest : List Byte), (0x0A : Byte) ∉ line →
    takeLine (line ++ 0x0A :: rest) = some (line, rest)
  | [], rest, _ => by simp [takeLine]
  | b :: bs, rest, h => by
    have hb : b ≠ 0x0A := fun e => h (e ▸ List.mem_cons_self)
    have hbs : (0x0A : Byte) ∉ bs := fun e => h (List.mem_cons_of_mem _ e)
    simp only [takeLine, List.cons_append, if_neg hb, takeLine_append bs rest hbs]

/-! ## One scan item -/

/-- The bytes behind an item. -/
def scanRest : ScanItem → Option (List Byte)
  | .wait => none
  | .discard rest => some rest
  | .frame _ rest => some rest
  | .line _ rest => some rest

/-- The item with more bytes behind it. -/
def scanExtend (more : List Byte) : ScanItem → ScanItem
  | .wait => .wait
  | .discard rest => .discard (rest ++ more)
  | .frame f rest => .frame f (rest ++ more)
  | .line text rest => .line text (rest ++ more)

theorem frameLen_pos {t : Byte} {len : Nat} (h : frameLen t = some len) : 66 ≤ len := by
  simp only [frameLen, Config.thermalFrameBytes, Config.audioFrameBytes] at h
  split_ifs at h <;> simp at h <;> omega

/-- An item that is no wait takes at least one byte. -/
theorem scanItem_shorter {bs rest : List Byte} (h : scanRest (scanItem bs) = some rest) : rest.length < bs.length := by
  unfold scanItem at h
  split at h
  · simp [scanRest] at h
  · next c tl =>
    split_ifs at h with h1 h2
    · split at h
      · simp [scanRest] at h
      · next t tl' =>
        split at h
        · next len hlen =>
          have := frameLen_pos hlen
          rw [takeExactly_eq] at h
          split_ifs at h with h3
          · simp only [scanRest, Option.some.injEq] at h
            subst h
            simp only [List.length_drop, List.length_cons] at h3 ⊢
            omega
          · simp [scanRest] at h
        · simp only [scanRest, Option.some.injEq] at h
          subst h
          simp
    · split at h
      · next r hr =>
        simp only [scanRest, Option.some.injEq] at h
        subst h
        have := congrArg List.length (takeLine_some hr).1
        simp only [List.length_append, List.length_cons] at this ⊢
        omega
      · simp [scanRest] at h
    · simp only [scanRest, Option.some.injEq] at h
      subst h
      simp

/-- More bytes behind an item that is no wait do not change it (R213). -/
theorem scanItem_append {bs : List Byte} (more : List Byte) (h : scanItem bs ≠ .wait) :
    scanItem (bs ++ more) = scanExtend more (scanItem bs) := by
  unfold scanItem at h ⊢
  cases bs with
  | nil => simp at h
  | cons c tl =>
    simp only [List.cons_append] at h ⊢
    split_ifs at h ⊢ with h1 h2
    · cases tl with
      | nil => simp at h
      | cons t tl' =>
        simp only [List.cons_append] at h ⊢
        cases hlen : frameLen t with
        | none => simp [scanExtend]
        | some len =>
          simp only [hlen, takeExactly_eq] at h ⊢
          split_ifs at h with h3
          · have h4 : len ≤ (c :: t :: (tl' ++ more)).length := by
              simp only [List.length_cons, List.length_append] at h3 ⊢
              omega
            have e1 : (c :: t :: (tl' ++ more)).take len = (c :: t :: tl').take len := by
              have := List.take_append_of_le_length (l₂ := more) h3
              simpa using this
            have e2 : (c :: t :: (tl' ++ more)).drop len = (c :: t :: tl').drop len ++ more := by
              have := List.drop_append_of_le_length (l₂ := more) h3
              simpa using this
            simp only [if_pos h3, if_pos h4, scanExtend, e1, e2]
          · simp at h
    · cases hl : takeLine (c :: tl) with
      | none => simp [hl] at h
      | some r =>
        obtain ⟨e, hn⟩ := takeLine_some hl
        have : c :: (tl ++ more) = r.1 ++ 0x0A :: (r.2 ++ more) := by
          have := congrArg (· ++ more) e
          simpa using this
        rw [this, takeLine_append _ _ hn]
        simp [scanExtend]
    · simp [scanExtend]

/-! ## The scan loop -/

/-- HOST after one item that is no wait. -/
def scanEffect (h : Hst) : ScanItem → Hst
  | .wait => h
  | .discard _ => raiseHost .dmxDiscard h
  | .frame f _ => dispatch f h
  | .line text _ => dispatchText text h

/-- One turn of the scan loop. -/
theorem scan_succ (fuel : Nat) (bs : List Byte) (h : Hst) :
    scan (fuel + 1) bs h =
      match scanRest (scanItem bs) with
      | none => (bs, h)
      | some rest => scan fuel rest (scanEffect h (scanItem bs)) := by
  simp only [scan]
  cases scanItem bs <;> rfl

theorem scan_wait {bs : List Byte} (hw : scanItem bs = .wait) (fuel : Nat) (h : Hst) : scan fuel bs h = (bs, h) := by
  cases fuel with
  | zero => rfl
  | succ n => simp [scan, hw]

theorem scanRest_none {it : ScanItem} (h : scanRest it = none) : it = .wait := by
  cases it <;> simp_all [scanRest]

/-- As much fuel as bytes is enough, and more changes nothing. -/
theorem scan_fuel : ∀ (fuel : Nat) (bs : List Byte) (h : Hst), bs.length ≤ fuel →
    scan fuel bs h = scan bs.length bs h
  | 0, bs, h, hl => by
    have : bs.length = 0 := by omega
    rw [this]
  | fuel + 1, bs, h, hl => by
    cases hr : scanRest (scanItem bs) with
    | none => rw [scan_wait (scanRest_none hr), scan_wait (scanRest_none hr)]
    | some rest =>
      have hs := scanItem_shorter hr
      obtain ⟨n, hn⟩ : ∃ n, bs.length = n + 1 := ⟨bs.length - 1, by omega⟩
      rw [hn, scan_succ, scan_succ]
      simp only [hr]
      rw [scan_fuel fuel rest _ (by omega), scan_fuel n rest _ (by omega)]

/-- The scan ends in bytes that wait. -/
theorem scan_waits : ∀ (fuel : Nat) (bs : List Byte) (h : Hst), bs.length ≤ fuel →
    scanItem (scan fuel bs h).1 = .wait
  | 0, bs, h, hl => by
    have : bs = [] := List.length_eq_zero_iff.mp (by omega)
    subst this
    rfl
  | fuel + 1, bs, h, hl => by
    cases hr : scanRest (scanItem bs) with
    | none => rw [scan_wait (scanRest_none hr)]; exact scanRest_none hr
    | some rest =>
      rw [scan_succ]
      simp only [hr]
      exact scan_waits fuel rest _ (by have := scanItem_shorter hr; omega)

theorem scan_length : ∀ (fuel : Nat) (bs : List Byte) (h : Hst), (scan fuel bs h).1.length ≤ bs.length
  | 0, bs, h => le_refl _
  | fuel + 1, bs, h => by
    rw [scan_succ]
    cases hr : scanRest (scanItem bs) with
    | none => simp
    | some rest =>
      have := scanItem_shorter hr
      have := scan_length fuel rest (scanEffect h (scanItem bs))
      simp only
      omega

/-- A scan over bytes and more bytes is a scan over the bytes and then one over what it left with the rest (R213). -/
theorem scan_append : ∀ (fuel : Nat) (bs more : List Byte) (h : Hst), bs.length ≤ fuel →
    scan (fuel + more.length) (bs ++ more) h =
      scan (fuel + more.length) ((scan fuel bs h).1 ++ more) (scan fuel bs h).2
  | 0, bs, more, h, hl => by
    have : bs = [] := List.length_eq_zero_iff.mp (by omega)
    subst this
    rfl
  | fuel + 1, bs, more, h, hl => by
    cases hr : scanRest (scanItem bs) with
    | none => rw [scan_wait (scanRest_none hr)]
    | some rest =>
      have hs := scanItem_shorter hr
      have hne : scanItem bs ≠ .wait := by
        intro e
        simp [e, scanRest] at hr
      have hr' : scanRest (scanItem (bs ++ more)) = some (rest ++ more) := by
        rw [scanItem_append more hne]
        cases hi : scanItem bs <;> simp_all [scanRest, scanExtend]
      have he : scanEffect h (scanItem (bs ++ more)) = scanEffect h (scanItem bs) := by
        rw [scanItem_append more hne]
        cases scanItem bs <;> rfl
      have e1 : scan (fuel + 1) bs h = scan fuel rest (scanEffect h (scanItem bs)) := by
        rw [scan_succ]
        simp only [hr]
      have e2 : scan (fuel + 1 + more.length) (bs ++ more) h =
          scan (fuel + more.length) (rest ++ more) (scanEffect h (scanItem bs)) := by
        rw [show fuel + 1 + more.length = (fuel + more.length) + 1 by omega, scan_succ]
        simp only [hr', he]
      rw [e2, e1, scan_append fuel rest more _ (by omega)]
      have hlen := scan_length fuel rest (scanEffect h (scanItem bs))
      rw [scan_fuel (fuel + more.length) _ _ (by simp only [List.length_append]; omega),
        scan_fuel (fuel + 1 + more.length) _ _ (by simp only [List.length_append]; omega)]

/-- What every effect of the scan has, HOST has behind the scan. -/
theorem scan_keeps {P : Hst → Prop} (hd : ∀ h, P h → P (raiseHost .dmxDiscard h))
    (hf : ∀ f h, P h → P (dispatch f h)) (hl : ∀ l h, P h → P (dispatchText l h)) :
    ∀ (fuel : Nat) (bs : List Byte) (h : Hst), P h → P (scan fuel bs h).2
  | 0, _, _, hp => hp
  | fuel + 1, bs, h, hp => by
    simp only [scan]
    split
    · exact hp
    · exact scan_keeps hd hf hl fuel _ _ (hd _ hp)
    · exact scan_keeps hd hf hl fuel _ _ (hf _ _ hp)
    · exact scan_keeps hd hf hl fuel _ _ (hl _ _ hp)

/-! ## Dispatch -/

/-- A thermal frame is delivered decoded (R210). -/
theorem dispatch_thermal {f : List Byte} (hf : isThermalFrame f = true) (h : Hst) :
    dispatch f h = deliver (.thermal ((frameWords f).map qDec)) h := by
  have ht : byteAt f 1 = Config.typeThermal := by
    simp only [isThermalFrame, Bool.and_eq_true, beq_iff_eq] at hf
    exact hf.2
  have hd : thmDecode f h = (h, some ((frameWords f).map qDec)) := by
    simp [thmDecode, hf]
  simp only [dispatch, dispatchWith, ht, if_true, hd]

/-- Any other binary frame goes to `REC_PACKET` (R210). -/
theorem dispatch_other {f : List Byte} (hf : byteAt f 1 ≠ Config.typeThermal) (h : Hst) :
    dispatch f h = recPacket f h := by
  simp only [dispatch, dispatchWith, if_neg hf, Config.unitU6, if_true]

theorem dispatch_audio {f : List Byte} (hf : isAudioFrame f = true) (h : Hst) : dispatch f h = recPacket f h := by
  apply dispatch_other
  simp only [isAudioFrame, Bool.and_eq_true, beq_iff_eq] at hf
  rw [hf.2]
  decide

/-! ## The repeat loop -/

/-- The repeat loop without an overflow is one scan (R203). -/
theorem feedLoop_once {bound fuel : Nat} {bs : List Byte} {h : Hst}
    (hb : (scan bs.length bs h).1.length ≤ bound) :
    feedLoop bound (fuel + 1) bs h = { (scan bs.length bs h).2 with dmxBuf := (scan bs.length bs h).1 } := by
  simp [feedLoop, Nat.not_lt.mpr hb]

/-- The repeat loop ends within the bound, in bytes that wait (R203 e, R209). -/
theorem feedLoop_ends (bound : Nat) : ∀ (fuel : Nat) (bs : List Byte) (h : Hst), bs.length < fuel →
    (feedLoop bound fuel bs h).dmxBuf.length ≤ bound ∧ scanItem (feedLoop bound fuel bs h).dmxBuf = .wait
  | 0, _, _, hl => by omega
  | fuel + 1, bs, h, hl => by
    simp only [feedLoop]
    split
    · next hb =>
      have := scan_length bs.length bs h
      exact feedLoop_ends bound fuel _ _ (by simp only [List.length_tail]; omega)
    · next hb => exact ⟨by simpa using hb, scan_waits _ _ _ (le_refl _)⟩

/-- What every effect of the scan has, whatever the buffer, HOST has behind the repeat loop. -/
theorem feedLoop_keeps {P : Hst → Prop} (bound : Nat) (hb : ∀ h b, P h → P { h with dmxBuf := b })
    (ho : ∀ h, P h → P (raiseHost .dmxOverflow h)) (hd : ∀ h, P h → P (raiseHost .dmxDiscard h))
    (hf : ∀ f h, P h → P (dispatch f h)) (hl : ∀ l h, P h → P (dispatchText l h)) :
    ∀ (fuel : Nat) (bs : List Byte) (h : Hst), P h → P (feedLoop bound fuel bs h)
  | 0, _, _, hp => hb _ _ hp
  | fuel + 1, bs, h, hp => by
    have hs := scan_keeps hd hf hl bs.length bs h hp
    simp only [feedLoop]
    split
    · exact feedLoop_keeps bound hb ho hd hf hl fuel _ _ (ho _ hs)
    · exact hb _ _ hs

end Sys2Proof.Machine
end

