-- ==== Sys2Proof/Laws/Quantizer.lean ====
section
/-! SUPPORT. The quantizer: the exact value behind `Val`, and what encoding a finite pattern computes. -/

namespace Sys2Proof.Machine

/-- A finite pattern is a number of units of `2^-149` (R159). -/
theorem valQ_fin {b : F32} {v : ℚ} (h : valQ b = some v) :
    ∃ neg units, val b = .fin neg units ∧ v = (if neg then -1 else 1) * (units : ℚ) / 2 ^ 149 := by
  simp only [valQ] at h
  generalize hs : b.getLsbD 31 = sg at h
  generalize hsq : (if sg = true then (-1 : ℚ) else 1) = sq at h
  generalize he : (b.extractLsb' 23 8).toNat = e at h
  generalize hm : (b.extractLsb' 0 23).toNat = m at h
  by_cases h1 : e = 255
  · simp [h1] at h
  by_cases h2 : e = 0
  · rw [if_neg h1, if_pos h2, Option.some.injEq] at h
    refine ⟨sg, m, by simp only [val, hs, he, hm, if_neg h1, if_pos h2], ?_⟩
    rw [← h, hsq, zpow_neg, div_eq_mul_inv]
    rfl
  · rw [if_neg h1, if_neg h2, Option.some.injEq] at h
    refine ⟨sg, (2 ^ 23 + m) * 2 ^ (e - 1), by simp only [val, hs, he, hm, if_neg h1, if_neg h2], ?_⟩
    obtain ⟨k, rfl⟩ : ∃ k, e = k + 1 := ⟨e - 1, by omega⟩
    rw [← h, hsq, show (((k + 1 : ℕ) : ℤ) - 150) = (k : ℤ) - (149 : ℕ) by push_cast; ring,
      zpow_sub₀ (by norm_num), zpow_natCast, zpow_natCast, Nat.add_sub_cancel, mul_assoc, mul_div_assoc]
    congr 1
    rw [Nat.cast_mul, mul_div_assoc]
    congr 1 <;> norm_cast

/-- The word of a finite pattern, in units (R150). -/
theorem quant_fin {b : F32} {neg : Bool} {u : Nat} (h : val b = .fin neg u) :
    quant b =
      some (BitVec.ofNat 16 ((2 * (10 * (if neg then 0 else min u (40 * 2 ^ 149))) + 2 ^ 149) / 2 ^ 150)) := by
  unfold quant quantWith
  rw [h, clampTemp, tempMin_units, Nat.zero_max]
  rfl

/-- The scale that brings a tenth of a word into `[2^23, 2^24)` (R157). -/
theorem rneShift_spec {n : Nat} (h0 : 0 < n) (h : n < 65536) :
    11 ≤ rneShift n 10 ∧ rneShift n 10 ≤ 27 ∧
    2 ^ 23 * 10 ≤ n * 2 ^ rneShift n 10 ∧ n * 2 ^ rneShift n 10 < 2 ^ 24 * 10 := by
  have hl : Nat.log2 10 = 3 := by decide
  have ha : Nat.log2 n < 16 := (Nat.log2_lt (by omega)).mpr h
  have h1 : 2 ^ Nat.log2 n ≤ n := Nat.log2_self_le (by omega)
  have h2 : n < 2 ^ (Nat.log2 n + 1) := Nat.lt_log2_self
  unfold rneShift
  rw [hl]
  generalize Nat.log2 n = a at *
  simp only
  interval_cases a <;> simp only [Nat.reducePow, Nat.reduceAdd, Nat.reduceSub] at * <;> split_ifs <;>
    (refine ⟨?_, ?_, ?_, ?_⟩ <;> omega)

end Sys2Proof.Machine
end

