-- ==== Sys2Proof/Laws/Reconstructor.lean ====
section
/-! SUPPORT. The reconstructor: the classes of packets, what `REC_PACKET` does in each, and the length of a fill. -/

namespace Sys2Proof.Machine

/-! ## Classification -/

/-- The gap with `SEQ_MOD` at its value (R7, R232). -/
theorem gapOf_eq (expected seq : U16) :
    gapOf expected seq = (seq.toNat + 65536 - expected.toNat) % 65536 := by
  simp only [gapOf, Config.seqMod]

/-- A sequence number counts modulo `SEQ_MOD` (R7, R236). -/
theorem seq_succ (seq : U16) : (seq + 1).toNat = (seq.toNat + 1) % Config.seqMod := by
  exact BitVec.toNat_add seq 1

theorem gapOf_lt (expected seq : U16) : gapOf expected seq < 65536 := by
  rw [gapOf_eq]
  omega

/-- The gap of a sequence number is 0 just for the expected one (R232). -/
theorem gapOf_eq_zero (expected seq : U16) : gapOf expected seq = 0 ↔ seq = expected := by
  have h1 := expected.isLt
  have h2 := seq.isLt
  rw [← BitVec.toNat_inj]
  rw [gapOf_eq]
  omega

/-- Every class of R232 at HOST's threshold. -/
theorem classify_eq (h : Hst) (seq : U16) :
    classify h seq =
      if gapOf h.recon.expected seq = 0 then .inorder
      else if gapOf h.recon.expected seq < h.gapThreshold.val then .forward
      else if 65536 - h.gapThreshold.val ≤ gapOf h.recon.expected seq then .stale else .far := rfl

/-! ## The trend and the fill -/

/-- What the weights that `trendOf` takes have (R238). -/
theorem admissible_spec {w : List Nat} {m : Nat} (h : admissible w m = true) :
    0 < weightsTotal w m ∧ (∀ k, k ≤ m → w.getD k 0 + w.getD (m - k) 0 = weightsTotal w m) ∧
      ∀ k k', k ≤ k' → k' ≤ m → w.getD k 0 ≤ w.getD k' 0 := by
  simp only [admissible, Bool.and_eq_true, decide_eq_true_eq, List.all_eq_true, List.mem_range, Bool.or_eq_true] at h
  obtain ⟨h0, h1⟩ := h
  refine ⟨h0, fun k hk => (h1 k (by omega)).1, ?_⟩
  intro k k' hk
  induction k', hk using Nat.le_induction with
  | base => exact fun _ => le_refl _
  | succ n hn ih =>
    intro hm
    have := (h1 n (by omega)).2
    have := ih (by omega)
    omega

/-- At each `M` a configured trend is a row of admissible weights or smoothstep. -/
theorem trendOf_cases (t : Config.Trend) (m : Nat) :
    (∃ w : List Nat, admissible w m = true ∧ ∀ k, trendOf t k m = (w.getD k 0, weightsTotal w m)) ∨
      ∀ k, trendOf t k m = smoothstep k m := by
  by_cases h : admissible ((t.lookup m).getD []) m = true
  · exact .inl ⟨_, h, fun k => by simp only [trendOf, h, if_true]⟩
  · exact .inr fun k => by simp only [trendOf, h, Bool.false_eq_true, if_false]

/-- The default is smoothstep (R8, R238). -/
theorem trendOf_default (k m : Nat) : trendOf Config.trendDefault k m = smoothstep k m := by
  have hn : admissible ((Config.trendDefault.lookup m).getD []) m = false := by
    simp [Config.trendDefault, admissible, weightsTotal]
  simp only [trendOf, hn, Bool.false_eq_true, if_false]


theorem fillWith_length (trend : TrendFn) (amp : Sample → Sample → Nat) (free : Nat → Nat) (c : Nat) (a b : Sample)
    (n : Nat) : (fillWith trend amp free c a b n).length = n := by
  simp [fillWith]

theorem fill_length (t : Config.Trend) (c : Nat) (a b : Sample) (n : Nat) : (fill t c a b n).length = n := fillWith_length ..

/-! ## `REC_PACKET` -/

/-- A stale packet records its bit and nothing else (R235). -/
theorem recPacket_stale {f : List Byte} {h : Hst} (hf : isAudioFrame f = true)
    (hc : classify h (frameSeq f) = .stale) : recPacket f h = raiseHost .recStale h := by
  simp [recPacket, hf, hc]

/-- A packet with a bad step index records its bit and nothing else (R245). -/
theorem recPacket_bad {f : List Byte} {h : Hst} (hf : isAudioFrame f = true)
    (hc : classify h (frameSeq f) ≠ .stale) (hi : 88 < (frameStepIndex f).toNat) :
    recPacket f h = raiseHost .badStepIndex h := by
  simp [recPacket, hf, hc, decPacket_bad hf hi]

/-- An operand that is no audio frame is refused (R231). -/
theorem recPacket_other {f : List Byte} (hf : isAudioFrame f = false) (h : Hst) :
    recPacket f h = raiseHost .opRefused h := by
  simp [recPacket, hf]

/-- The decoder run over a frame, from the frame's header. -/
def frameRun (f : List Byte) : Codec × List Sample :=
  decCodes ⟨framePredictor f, (frameStepIndex f).setWidth 7⟩ (frameCodes f)

theorem frameRun_length {f : List Byte} (hf : isAudioFrame f = true) : (frameRun f).2.length = 118 := by
  rw [frameRun, decCodes_length, frameCodes_length hf]

/-- An accepted packet (R231, R233, R234, R236, R240). -/
theorem recPacket_accept {f : List Byte} {h : Hst} (hf : isAudioFrame f = true)
    (hc : classify h (frameSeq f) ≠ .stale) (hi : (frameStepIndex f).toNat ≤ 88) :
    recPacket f h =
      acceptSamples (frameSeq f) (frameRun f).2
        (bridge (classify h (frameSeq f)) ((frameRun f).2.getD 0 0)
          (gapOf h.recon.expected (frameSeq f)) { h with dec := (frameRun f).1 }) := by
  simp only [recPacket, hf, if_true, hc, if_false, decPacket_good hf hi]
  rfl

/-- What every effect of the reconstructor has, HOST has behind `REC_PACKET`. -/
theorem recPacket_cases (f : List Byte) (h : Hst) :
    (∃ e, recPacket f h = raiseHost e h) ∨
    (isAudioFrame f = true ∧ classify h (frameSeq f) ≠ .stale ∧ (frameStepIndex f).toNat ≤ 88) := by
  cases hf : isAudioFrame f with
  | false => exact .inl ⟨_, recPacket_other hf h⟩
  | true =>
    by_cases hc : classify h (frameSeq f) = .stale
    · exact .inl ⟨_, recPacket_stale hf hc⟩
    · by_cases hi : 88 < (frameStepIndex f).toNat
      · exact .inl ⟨_, recPacket_bad hf hc hi⟩
      · exact .inr ⟨rfl, hc, by omega⟩

/-- What an accepted packet delivers ahead of its samples, and what that leaves as it is (R231). -/
theorem bridge_eq (c : PacketClass) (first : Sample) (gap : Nat) (h : Hst) :
    bridge c first gap h = { h with
      out := h.out ++ (if c = .forward then [.audio (fill h.trend h.draws h.recon.lastSample first (gap * 118))] else [])
      hstatus := h.hstatus ||| (if c = .forward then 0x10 else if c = .far then 0x40 else 0)
      draws := h.draws + (if c = .forward then gap * 118 else 0) } := by
  cases c <;> simp [bridge, deliverFill, deliver, raiseHost, Config.samplesPerPacket]

end Sys2Proof.Machine
end

