-- ==== Sys2Proof/Laws/Invariant.lean ====
section
/-! SUPPORT. The operations on one instance and the invariant of reachable states (R43): what each keeps of it. -/

namespace Sys2Proof.Machine

/-! ## DEV -/

theorem extractLsb'_or (a b : BitVec 16) (i k : Nat) :
    (a ||| b).extractLsb' i k = a.extractLsb' i k ||| b.extractLsb' i k := by
  apply BitVec.eq_of_getLsbD_eq
  intro j _
  simp [Bool.and_or_distrib_left]

/-- Raising a fault keeps the invariant. -/
theorem raiseDev_inv {d : Dev} (h : DevInv d) (e : DevFault) : DevInv (raiseDev e d) := by
  obtain ⟨h1, h2, h3, h4, h5, h6, h7, h8, h9, h10, h11⟩ := h
  refine ⟨h1, h2, h3, h4, h5, h6, h7, h8, h9, ?_, ?_⟩
  · rw [raiseDev_dstatus, raiseDev_halted, ← h10]
    generalize d.dstatus = w
    cases e <;> simp [dstatusHas, dstatusBit, setDstatus, setBit]
  · rw [raiseDev_dstatus]
    generalize d.dstatus = w at *
    have hb : setDstatus w e = w ||| setDstatus 0 e := by simp [setDstatus, setBit]
    have : (setDstatus 0 e).extractLsb' 6 10 = 0 := by cases e <;> decide
    rw [hb]
    rw [extractLsb'_or, h11, this]
    rfl

/-- Offering a whole frame of its source keeps the invariant. -/
theorem emit_inv {d : Dev} (h : DevInv d) {src : Src} {f : List Byte} (hf : FrameOf src f) :
    DevInv (emit src f d).1 := by
  by_cases hr : (txqOf d.txq src).length < Config.txqDepth src
  · rw [emit_room hr]
    obtain ⟨h1, h2, h3, h4, h5, h6, h7, h8, h9, h10, h11⟩ := h
    refine ⟨h1, h2, h3, h4, h5, h6, ?_, ?_, h9, h10, h11⟩
    · intro src'
      simp only
      rw [txqOf_txqWith]
      split_ifs with hs
      · subst hs
        simp
        omega
      · exact h7 src'
    · intro src' g hg
      simp only at hg
      rw [txqOf_txqWith] at hg
      split_ifs at hg with hs
      · subst hs
        rcases List.mem_append.mp hg with hg | hg
        · exact h8 _ _ hg
        · rw [List.mem_singleton.mp hg]
          exact hf
      · exact h8 src' g hg
  · have := raiseDev_inv h .txqOverflow
    simp only [emit, emitWith, if_neg hr]
    exact this

theorem qEnc_inv {d : Dev} (h : DevInv d) (b : F32) : DevInv (qEnc b d).1 := by
  cases hq : quant b with
  | some w =>
    rw [qEnc_some hq]
    exact h
  | none =>
    have := raiseDev_inv h .quantNaN
    simp only [qEnc, hq]
    obtain ⟨h1, h2, h3, h4, h5, h6, h7, h8, h9, h10, h11⟩ := this
    exact ⟨h1, h2, h3, h4, h5, h6, h7, h8, h9, h10, h11⟩

theorem audPush_inv {d d' : Dev} (h : DevInv d) (x : Sample) (he : audPush x d = .ok d') : DevInv d' := by
  rw [audPush_eq h.encIndex h.packetCount] at he
  have he := Except.ok.inj he
  have hc := pushed_count h.packetCount x
  obtain ⟨-, hh⟩ := pushed_header d x
  have hhi : (pushed x d).pkt.hdrStepIndex.toNat ≤ 88 := by
    rw [hh]; split_ifs
    · have := h.encIndex
      simp
      omega
    · exact h.headerIndex
  have hp := pushed_eq x d
  obtain ⟨h1, h2, h3, h4, h5, h6, h7, h8, h9, h10, h11⟩ := h
  by_cases hl : (pushed x d).pkt.count.toNat = 118
  · rw [completePacket_end hl] at he
    subst he
    generalize (pushed x d).pkt = pk at *
    have base : DevInv { d with enc := (encStep d.enc x).1, pkt := { pk with count := 0 } } :=
      ⟨nextIndex_le _ _, by simp, hhi, h4, h5, h6, h7, h8, h9, h10, h11⟩
    have hfr : FrameOf .aud (mkAudioFrame pk.seq pk.hdrPredictor pk.hdrStepIndex pk.buf.toList) := by
      obtain ⟨i1, -, -, i4, -⟩ :=
        mkAudioFrame_fields pk.seq pk.hdrPredictor pk.hdrStepIndex (buf := pk.buf.toList) (by simp)
      simp only [FrameOf, isAudioFrameInRange, i1, i4, Config.stepIndexMax, hhi, decide_true, Bool.and_self]
    have := emit_inv base hfr
    rw [hp]
    rw [emit_frame] at this ⊢
    by_cases hr : (txqOf d.txq .aud).length < Config.txqDepth .aud
    · rw [emit_room (by exact hr)] at this ⊢
      obtain ⟨k1, k2, k3, k4, k5, k6, k7, k8, k9, k10, k11⟩ := this
      exact ⟨k1, by simp, hhi, k4, k5, k6, k7, k8, k9, k10, k11⟩
    · rw [emit_full (by exact hr)] at this ⊢
      obtain ⟨k1, k2, k3, k4, k5, k6, k7, k8, k9, k10, k11⟩ := this
      exact ⟨k1, by simp, hhi, k4, k5, k6, k7, k8, k9, k10, k11⟩
  · rw [completePacket_mid hl] at he
    subst he
    rw [hp]
    exact ⟨nextIndex_le _ _, by simp only; omega, hhi, h4, h5, h6, h7, h8, h9, h10, h11⟩

theorem thmPush_inv {d d' : Dev} (h : DevInv d) (b : F32) (he : thmPush b d = .ok d') : DevInv d' := by
  rw [thmPush_eq h.thermalCount] at he
  have he := Except.ok.inj he
  obtain ⟨w, hw, -, hq⟩ := qEnc_cases b d
  have hi := qEnc_inv h b
  have hth : (qEnc b d).1.thf = d.thf := by rw [hq]
  rw [hq] at hi
  rw [hq] at he
  generalize hd1 : ({ d with
    dstatus := d.dstatus ||| (if quant b = none then 0x2 else 0)
    draws := d.draws + (if quant b = none then 1 else 0) } : Dev) = d1 at *
  have ht1 : d1.thf = d.thf := by rw [← hd1]
  have hc : (storeWord w d1).thf.count.toNat = d.thf.count.toNat + 1 := by
    have := h.thermalCount
    rw [storeWord_count, ht1, BitVec.toNat_add]
    simp
    omega
  obtain ⟨h1, h2, h3, h4, h5, h6, h7, h8, h9, h10, h11⟩ := hi
  have hws : ∀ v ∈ (storeWord w d1).thf.words.toList, v.toNat ≤ 400 := by
    intro v hv
    rw [storeWord_words, Vector.toList_setIfInBounds] at hv
    rcases List.mem_or_eq_of_mem_set hv with hv | rfl
    · exact h5 v hv
    · exact hw
  simp only at he
  by_cases hl : (storeWord w d1).thf.count.toNat = 768
  · rw [completeThermal_end hl] at he
    have base : DevInv { storeWord w d1 with thf := { (storeWord w d1).thf with count := 0 } } :=
      ⟨h1, h2, h3, by simp, hws, h6, h7, h8, h9, h10, h11⟩
    have hfr : FrameOf .thm (mkThermalFrame (storeWord w d1).thf.words.toList) :=
      (mkThermalFrame_fields (by simp)).1
    generalize mkThermalFrame (storeWord w d1).thf.words.toList = fr at *
    have := emit_inv base hfr
    rw [← he]
    by_cases hr : (txqOf d1.txq .thm).length < Config.txqDepth .thm
    · rw [emit_room (by exact hr)] at this ⊢
      exact this
    · rw [emit_full (by exact hr)] at this ⊢
      exact this
  · rw [completeThermal_mid hl] at he
    rw [← he]
    have := h.thermalCount
    exact ⟨h1, h2, h3, by rw [hc] at hl ⊢; omega, hws, h6, h7, h8, h9, h10, h11⟩

/-- The button frame of a count in its range (R180). -/
theorem btn_frame {n : BitVec 2} (h : n.toNat ≤ 2) : FrameOf .btn (mkBtnFrame n) := by
  have : n = 0 ∨ n = 1 ∨ n = 2 := by revert n; decide
  rcases this with rfl | rfl | rfl <;> (simp only [FrameOf]; decide)

theorem btnPoll_inv {d : Dev} (h : DevInv d) (n : BitVec 2) : DevInv (btnPoll n d) := by
  unfold btnPoll
  split_ifs with h1 h2
  · exact raiseDev_inv h _
  · exact h
  · have hn : n.toNat ≤ 2 := by simpa [Config.buttonMax] using h1
    have := emit_inv h (btn_frame hn)
    simp only
    split_ifs
    · obtain ⟨k1, k2, k3, k4, k5, k6, k7, k8, k9, k10, k11⟩ := this
      exact ⟨k1, k2, k3, k4, k5, hn, k7, k8, k9, k10, k11⟩
    · exact this

theorem dbgText_inv {d : Dev} (h : DevInv d) (t : List Byte) : DevInv (dbgText t d) := by
  unfold dbgText
  split_ifs with h1
  · exact raiseDev_inv h _
  · refine emit_inv h ?_
    simp only [textRefusedWith, Bool.or_eq_true, decide_eq_true_eq, List.contains_iff_mem, not_or, not_lt] at h1
    exact ⟨t, h1.1, h1.2, rfl⟩

/-- No frame is empty. -/
theorem frameOf_pos {src : Src} {f : List Byte} (h : FrameOf src f) : 0 < f.length := by
  cases src
  · simp only [FrameOf, isAudioFrameInRange, Bool.and_eq_true] at h
    rw [isAudioFrame_length h.1]
    omega
  · rw [isThermalFrame_length h]
    omega
  · simp only [FrameOf, isBtnFrame, Bool.or_eq_true, beq_iff_eq] at h
    rcases h with (rfl | rfl) | rfl <;> decide
  · obtain ⟨t, -, -, rfl⟩ := h
    simp [mkDbgFrame, tagDebug]

/-- Everything a `TX_STEP` can do from a state that meets the invariant (R184). -/
theorem txStep_cases {d d' : Dev} (h : DevInv d) (he : txStep d = .ok d') :
    d' = d ∨
    (d.tx.busy = true ∧ d' = { d with
      sink := d.sink ++ [d.tx.frame.getD d.tx.idx 0]
      tx := { d.tx with idx := d.tx.idx + 1, busy := d.tx.idx + 1 != d.tx.frame.length } }) ∨
    (d.tx.busy = false ∧ ∃ src f rest, txqOf d.txq src = f :: rest ∧ d' = { d with
      draws := d.draws + 1
      txq := txqWith d.txq src rest
      sink := d.sink ++ [f.getD 0 0]
      tx := { frame := f, idx := 1, busy := 1 != f.length } }) := by
  by_cases hh : d.halted = true
  · rw [txStep_disabled (.inl hh)] at he
    exact .inl (Except.ok.inj he).symm
  have hh : d.halted = false := by simpa using hh
  by_cases hb : d.tx.busy = true
  · rw [txStep_busy hh hb, writeByte_eq (h.inFlight hb).2] at he
    exact .inr (.inl ⟨hb, (Except.ok.inj he).symm⟩)
  have hb : d.tx.busy = false := by simpa using hb
  by_cases hq : ∀ src, txqOf d.txq src = []
  · rw [txStep_disabled (.inr ⟨hb, hq⟩)] at he
    exact .inl (Except.ok.inj he).symm
  · obtain ⟨src, hs, ht⟩ := txStep_start hh hb (by simpa using hq)
    obtain ⟨f, rest, hf⟩ := List.exists_cons_of_ne_nil hs
    have hpos := frameOf_pos (h.queueFrames src f (by rw [hf]; exact List.mem_cons_self))
    rw [ht, writeByte_eq (by simpa [startFrame, hf] using hpos)] at he
    refine .inr (.inr ⟨hb, src, f, rest, hf, ?_⟩)
    rw [← Except.ok.inj he]
    simp [startFrame, hf]

theorem txStep_inv {d d' : Dev} (h : DevInv d) (he : txStep d = .ok d') : DevInv d' := by
  have hcases := txStep_cases h he
  obtain ⟨h1, h2, h3, h4, h5, h6, h7, h8, h9, h10, h11⟩ := h
  rcases hcases with rfl | ⟨hb, rfl⟩ | ⟨hb, src, f, rest, hf, rfl⟩
  · exact ⟨h1, h2, h3, h4, h5, h6, h7, h8, h9, h10, h11⟩
  · refine ⟨h1, h2, h3, h4, h5, h6, h7, h8, ?_, h10, h11⟩
    intro hb'
    obtain ⟨a, b⟩ := h9 hb
    simp only [bne_iff_ne] at hb'
    exact ⟨a, by simp only; omega⟩
  · have hff := h8 src f (by rw [hf]; exact List.mem_cons_self)
    refine ⟨h1, h2, h3, h4, h5, h6, ?_, ?_, ?_, h10, h11⟩
    · intro src'
      simp only
      rw [txqOf_txqWith]
      split_ifs with hs
      · subst hs
        have := h7 src'
        rw [hf] at this
        simp at this
        omega
      · exact h7 src'
    · intro src' g hg
      simp only at hg
      rw [txqOf_txqWith] at hg
      split_ifs at hg with hs
      · subst hs
        exact h8 _ g (by rw [hf]; exact List.mem_cons_of_mem _ hg)
      · exact h8 src' g hg
    · intro hb'
      simp only [bne_iff_ne] at hb'
      have := frameOf_pos hff
      exact ⟨⟨src, hff⟩, by simp only; omega⟩

/-! ## HOST -/

theorem raiseHost_low (w : BitVec 16) (e : HostFault) (h : w.extractLsb' 8 8 = 0) :
    (setHstatus w e).extractLsb' 8 8 = 0 := by
  have hb : setHstatus w e = w ||| setHstatus 0 e := by simp [setHstatus, setBit]
  have : (setHstatus 0 e).extractLsb' 8 8 = 0 := by cases e <;> decide
  rw [hb, extractLsb'_or, h, this]
  rfl

/-- The part of HOST's invariant that does not speak of the buffer. -/
def HostOk (h : Hst) : Prop := h.dec.stepIndex.toNat ≤ 88 ∧ h.hstatus.extractLsb' 8 8 = 0

theorem raiseHost_ok {h : Hst} (hp : HostOk h) (e : HostFault) : HostOk (raiseHost e h) :=
  ⟨hp.1, raiseHost_low _ _ hp.2⟩

theorem recPacket_ok {h : Hst} (hp : HostOk h) (f : List Byte) : HostOk (recPacket f h) := by
  rcases recPacket_cases f h with ⟨e', he⟩ | ⟨a, b, c⟩
  · rw [he]
    exact raiseHost_ok hp _
  · rw [recPacket_accept a b c]
    have h1 : (frameRun f).1.stepIndex.toNat ≤ 88 := decCodes_index _ (by simp; omega) _
    cases classify h (frameSeq f)
    · exact ⟨h1, hp.2⟩
    · exact ⟨h1, raiseHost_low _ _ hp.2⟩
    · exact ⟨h1, hp.2⟩
    · exact ⟨h1, raiseHost_low _ _ hp.2⟩

theorem dispatch_ok {h : Hst} (hp : HostOk h) (f : List Byte) : HostOk (dispatch f h) := by
  by_cases h1 : byteAt f 1 = Config.typeThermal
  · unfold dispatch dispatchWith
    rw [if_pos h1]
    unfold thmDecode
    by_cases ht : isThermalFrame f = true
    · simp only [ht, if_true]
      exact hp
    · simp only [ht, Bool.false_eq_true, if_false]
      exact raiseHost_ok hp _
  · rw [dispatch_other h1]
    exact recPacket_ok hp f

theorem text_ok {h : Hst} (hp : HostOk h) (f : List Byte) : HostOk (dispatchText f h) := by
  unfold dispatchText
  split
  · exact hp
  · exact hp
  · exact raiseHost_ok hp _

/-- Feeding any chunk keeps the invariant (R203). -/
theorem feed_inv {h : Hst} (hp : HostInv h) (c : List Byte) : HostInv (dmxFeed c h) := by
  have h1 := feedLoop_ends Config.dmxMaxBuf ((h.dmxBuf ++ c).length + 1) (h.dmxBuf ++ c) h (by omega)
  have h2 := feedLoop_keeps (P := HostOk) Config.dmxMaxBuf (fun _ _ h => h) (fun _ h => raiseHost_ok h _)
    (fun _ h => raiseHost_ok h _) (fun f _ h => dispatch_ok h f) (fun f _ h => text_ok h f)
    ((h.dmxBuf ++ c).length + 1) (h.dmxBuf ++ c) h ⟨hp.1, hp.4⟩
  unfold dmxFeed dmxFeedWith
  exact HostInv.mk h2.1 h1.1 h1.2 h2.2

/-- `REC_PACKET` leaves the buffer alone. -/
theorem recPacket_buf (f : List Byte) (h : Hst) : (recPacket f h).dmxBuf = h.dmxBuf := by
  rcases recPacket_cases f h with ⟨e', he⟩ | ⟨a, b, c⟩
  · rw [he]
    rfl
  · rw [recPacket_accept a b c]
    cases classify h (frameSeq f) <;> rfl

theorem hostInv_of {h h' : Hst} (hp : HostInv h) (hb : h'.dmxBuf = h.dmxBuf) (hk : HostOk h') : HostInv h' :=
  ⟨hk.1, by rw [hb]; exact hp.2, by rw [hb]; exact hp.3, hk.2⟩

/-! ## The configuration -/

/-- `REC_PACKET` leaves the configuration alone (R315). -/
theorem recPacket_config (f : List Byte) (h : Hst) : hostConfig (recPacket f h) = hostConfig h := by
  rcases recPacket_cases f h with ⟨e, he⟩ | ⟨a, b, c⟩
  · rw [he]
    rfl
  · rw [recPacket_accept a b c, bridge_eq]
    rfl

/-- So does a dispatched frame. -/
theorem dispatch_config (f : List Byte) (h : Hst) : hostConfig (dispatch f h) = hostConfig h := by
  by_cases h1 : byteAt f 1 = Config.typeThermal
  · unfold dispatch dispatchWith thmDecode
    rw [if_pos h1]
    by_cases ht : isThermalFrame f = true <;> simp [ht, hostConfig]
  · rw [dispatch_other h1, recPacket_config]

/-- So does a dispatched line. -/
theorem dispatchText_config (l : List Byte) (h : Hst) : hostConfig (dispatchText l h) = hostConfig h := by
  unfold dispatchText
  split <;> rfl

/-- So does any chunk. -/
theorem dmxFeed_config (c : List Byte) (h : Hst) : hostConfig (dmxFeed c h) = hostConfig h :=
  feedLoop_keeps (P := fun g => hostConfig g = hostConfig h) Config.dmxMaxBuf (fun _ _ e => e)
    (fun _ e => e) (fun _ e => e) (fun f _ e => (dispatch_config f _).trans e)
    (fun l _ e => (dispatchText_config l _).trans e) _ _ _ rfl

end Sys2Proof.Machine
end

