-- ==== Sys2Proof/Laws/Feed.lean ====
section
/-! SUPPORT. A feed that does not overflow is one scan (R203, R209, R213): what touches `DMX_OVF`, what a scan does
not look at, and what `feedOverflows` says. -/

namespace Sys2Proof.Machine

/-! ## Only the repeat loop touches `DMX_OVF` (R203, R209) -/

theorem raiseHost_overflow (h : Hst) : hstatusHas (raiseHost .dmxOverflow h).hstatus .dmxOverflow = true := by
  rw [raiseHost_hstatus]
  simp [hstatusHas, hstatusBit, setHstatus, setBit]

/-- Raising anything else leaves `DMX_OVF` as it is. -/
theorem raiseHost_other {e : HostFault} (he : e ≠ .dmxOverflow) (h : Hst) :
    hstatusHas (raiseHost e h).hstatus .dmxOverflow = hstatusHas h.hstatus .dmxOverflow := by
  rw [raiseHost_hstatus]
  generalize h.hstatus = w
  cases e <;> first | exact absurd rfl he | simp [hstatusHas, hstatusBit, setHstatus, setBit]

theorem recPacket_overflow (f : List Byte) (h : Hst) :
    hstatusHas (recPacket f h).hstatus .dmxOverflow = hstatusHas h.hstatus .dmxOverflow := by
  by_cases hf : isAudioFrame f = true
  · by_cases hg : classify h (frameSeq f) = .stale
    · rw [recPacket_stale hf hg, raiseHost_other (by decide)]
    · by_cases hi : 88 < (frameStepIndex f).toNat
      · rw [recPacket_bad hf hg hi, raiseHost_other (by decide)]
      · rw [recPacket_accept hf hg (by omega), acceptSamples_hstatus]
        cases classify h (frameSeq f)
        · rfl
        · exact raiseHost_other (e := .recFill) (by decide) h
        · rfl
        · exact raiseHost_other (e := .recResync) (by decide) h
  · rw [recPacket_other (by simpa using hf), raiseHost_other (by decide)]

/-- No effect of the scan touches `DMX_OVF`. -/
theorem scanEffect_overflow (it : ScanItem) (h : Hst) :
    hstatusHas (scanEffect h it).hstatus .dmxOverflow = hstatusHas h.hstatus .dmxOverflow := by
  cases it with
  | wait => rfl
  | discard _ => exact raiseHost_other (by decide) h
  | frame f _ =>
    by_cases h1 : byteAt f 1 = Config.typeThermal
    · simp only [scanEffect, dispatch, dispatchWith, if_pos h1, thmDecode]
      by_cases ht : isThermalFrame f = true <;> simp only [ht, Bool.false_eq_true, if_true, if_false]
      · rfl
      · exact raiseHost_other (by decide) h
    · simp only [scanEffect, dispatch_other h1]
      exact recPacket_overflow f h
  | line l _ =>
    simp only [scanEffect, dispatchText]
    split
    · rfl
    · rfl
    · exact raiseHost_other (by decide) h

/-- So a scan leaves it as it is. -/
theorem scan_overflow : ∀ (fuel : Nat) (bs : List Byte) (h : Hst),
    hstatusHas (scan fuel bs h).2.hstatus .dmxOverflow = hstatusHas h.hstatus .dmxOverflow
  | 0, _, _ => rfl
  | fuel + 1, bs, h => by
    rw [scan_succ]
    cases scanRest (scanItem bs) with
    | none => rfl
    | some rest => exact (scan_overflow fuel rest _).trans (scanEffect_overflow _ h)

/-- Once set, the repeat loop keeps it set. -/
theorem feedLoop_overflow_stays (bound : Nat) : ∀ (fuel : Nat) (bs : List Byte) (h : Hst),
    hstatusHas h.hstatus .dmxOverflow = true → hstatusHas (feedLoop bound fuel bs h).hstatus .dmxOverflow = true
  | 0, _, _, hp => hp
  | fuel + 1, bs, h, hp => by
    simp only [feedLoop]
    split
    · exact feedLoop_overflow_stays bound fuel _ _ (raiseHost_overflow _)
    · exact (scan_overflow _ _ _).trans hp

/-! ## What a scan does not look at -/

/-- What a scan leaves depends on the bytes alone (R213). -/
theorem scan_left : ∀ (fuel : Nat) (bs : List Byte) (h g : Hst), (scan fuel bs h).1 = (scan fuel bs g).1
  | 0, _, _, _ => rfl
  | fuel + 1, bs, h, g => by
    rw [scan_succ, scan_succ]
    cases scanRest (scanItem bs) with
    | none => rfl
    | some rest => exact scan_left fuel rest _ _

/-- `REC_PACKET` does not look at the buffer. -/
theorem recPacket_atBuf (f : List Byte) (h : Hst) (b : List Byte) :
    recPacket f { h with dmxBuf := b } = { recPacket f h with dmxBuf := b } := by
  have hk : classify { h with dmxBuf := b } (frameSeq f) = classify h (frameSeq f) := rfl
  by_cases hf : isAudioFrame f = true
  · by_cases hg : classify h (frameSeq f) = .stale
    · rw [recPacket_stale hf (hk.trans hg), recPacket_stale hf hg]
      rfl
    · have hg' : classify { h with dmxBuf := b } (frameSeq f) ≠ .stale := fun e => hg (hk.symm.trans e)
      by_cases hi : 88 < (frameStepIndex f).toNat
      · rw [recPacket_bad hf hg' hi, recPacket_bad hf hg hi]
        rfl
      · rw [recPacket_accept hf hg' (by omega), recPacket_accept hf hg (by omega), hk]
        cases classify h (frameSeq f) <;> rfl
  · rw [recPacket_other (by simpa using hf), recPacket_other (by simpa using hf)]
    rfl

/-- No effect of the scan looks at the buffer. -/
theorem scanEffect_atBuf (it : ScanItem) (h : Hst) (b : List Byte) :
    scanEffect { h with dmxBuf := b } it = { scanEffect h it with dmxBuf := b } := by
  cases it with
  | wait => rfl
  | discard _ => rfl
  | frame f _ =>
    by_cases h1 : byteAt f 1 = Config.typeThermal
    · simp only [scanEffect, dispatch, dispatchWith, if_pos h1, thmDecode]
      by_cases ht : isThermalFrame f = true <;> simp only [ht, Bool.false_eq_true, if_true, if_false] <;> rfl
    · simp only [scanEffect, dispatch_other h1]
      exact recPacket_atBuf f h b
  | line l _ =>
    simp only [scanEffect, dispatchText]
    split <;> rfl

/-- So a scan carries the buffer it finds along (R213). -/
theorem scan_atBuf : ∀ (fuel : Nat) (bs : List Byte) (h : Hst) (b : List Byte),
    scan fuel bs { h with dmxBuf := b } = ((scan fuel bs h).1, { (scan fuel bs h).2 with dmxBuf := b })
  | 0, _, _, _ => rfl
  | fuel + 1, bs, h, b => by
    rw [scan_succ, scan_succ]
    cases scanRest (scanItem bs) with
    | none => rfl
    | some rest => exact (congrArg (scan fuel rest) (scanEffect_atBuf _ h b)).trans (scan_atBuf fuel rest _ b)

/-! ## A feed that does not overflow -/

/-- The repeat loop sets `DMX_OVF` where its first scan leaves more than the bound (R209). -/
theorem feedLoop_overflows {bound fuel : Nat} {bs : List Byte} {h : Hst} (hb : bound < (scan bs.length bs h).1.length) :
    hstatusHas (feedLoop bound (fuel + 1) bs h).hstatus .dmxOverflow = true := by
  simp only [feedLoop]
  rw [if_pos hb]
  exact feedLoop_overflow_stays _ _ _ _ (raiseHost_overflow _)

/-- A feed overflows just where its first scan leaves more than the bound (R209). -/
theorem feedOverflows_iff (c : List Byte) (h : Hst) :
    feedOverflows c h = true ↔ Config.dmxMaxBuf < (scan (h.dmxBuf ++ c).length (h.dmxBuf ++ c) h).1.length := by
  rw [scan_left _ _ h { h with hstatus := 0 }]
  unfold feedOverflows dmxFeed dmxFeedWith
  constructor
  · intro ho
    by_contra hc
    rw [feedLoop_once (Nat.le_of_not_lt hc)] at ho
    have hz := scan_overflow (h.dmxBuf ++ c).length (h.dmxBuf ++ c) { h with hstatus := 0 }
    exact absurd (hz.symm.trans ho) (by simp [hstatusHas])
  · exact feedLoop_overflows

/-- A feed that does not overflow is one scan of the buffer with the chunk behind it (R203). -/
theorem dmxFeed_once {c : List Byte} {h : Hst} (ho : feedOverflows c h = false) :
    dmxFeed c h = { (scan (h.dmxBuf ++ c).length (h.dmxBuf ++ c) h).2 with
      dmxBuf := (scan (h.dmxBuf ++ c).length (h.dmxBuf ++ c) h).1 } := by
  have hb := mt (feedOverflows_iff c h).mpr (Bool.eq_false_iff.mp ho)
  unfold dmxFeed dmxFeedWith
  exact feedLoop_once (Nat.le_of_not_lt hb)

end Sys2Proof.Machine
end

