-- ==== Sys2Proof/Laws/PerInstr.lean ====
section
/-! SUPPORT. The facts that are proved instruction by instruction: the request that presents an instruction reaches the
instance whose state it may touch (R3, R95, R97). -/

/-- The request of an instruction is presented to the instance that the instruction touches. -/
def Sys2Proof.Laws.Presented.Statement (i : Sys2Proof.Instr) : Prop :=
  Sys2Proof.Machine.presentedTo (Sys2Proof.encode i) = Sys2Proof.Machine.touches i

namespace Sys2Proof.Laws.Presented

theorem nop (inst : Inst) : Statement (.nop inst) := rfl
theorem encSample (inst : Inst) (pcm : Sample) : Statement (.encSample inst pcm) := rfl
theorem encRdstate (inst : Inst) : Statement (.encRdstate inst) := rfl
theorem audPush (inst : Inst) (pcm : Sample) : Statement (.audPush inst pcm) := rfl
theorem qEnc (inst : Inst) (temp : F32) : Statement (.qEnc inst temp) := rfl
theorem thmPush (inst : Inst) (temp : F32) : Statement (.thmPush inst temp) := rfl
theorem btnPoll (inst : Inst) (count : BitVec 2) : Statement (.btnPoll inst count) := rfl
theorem dbgText (inst : Inst) (text : List Byte) : Statement (.dbgText inst text) := rfl
theorem devInit (inst : Inst) (audioOk thermalOk : Bool) : Statement (.devInit inst audioOk thermalOk) := rfl
theorem rdDstatus (inst : Inst) : Statement (.rdDstatus inst) := rfl
theorem decLoad (inst : Inst) (predictor : Sample) (stepIndex : Byte) : Statement (.decLoad inst predictor stepIndex) := rfl
theorem decNibble (inst : Inst) (code : Nibble) : Statement (.decNibble inst code) := rfl
theorem decPacket (inst : Inst) (frame : List Byte) : Statement (.decPacket inst frame) := rfl
theorem qDec (inst : Inst) (word : U16) : Statement (.qDec inst word) := rfl
theorem thmDecode (inst : Inst) (frame : List Byte) : Statement (.thmDecode inst frame) := rfl
theorem dmxFeed (inst : Inst) (chunk : List Byte) : Statement (.dmxFeed inst chunk) := rfl
theorem recPacket (inst : Inst) (frame : List Byte) : Statement (.recPacket inst frame) := rfl
theorem sessionReset (inst : Inst) : Statement (.sessionReset inst) := rfl
theorem rdHstatus (inst : Inst) : Statement (.rdHstatus inst) := rfl
theorem reserved0A (inst : Inst) : Statement (.reserved0A inst) := rfl
theorem reserved0B (inst : Inst) : Statement (.reserved0B inst) := rfl
theorem reserved0C (inst : Inst) : Statement (.reserved0C inst) := rfl
theorem reserved0D (inst : Inst) : Statement (.reserved0D inst) := rfl
theorem reserved0E (inst : Inst) : Statement (.reserved0E inst) := rfl
theorem reserved0F (inst : Inst) : Statement (.reserved0F inst) := rfl
theorem reserved19 (inst : Inst) : Statement (.reserved19 inst) := rfl
theorem reserved1A (inst : Inst) : Statement (.reserved1A inst) := rfl
theorem reserved1B (inst : Inst) : Statement (.reserved1B inst) := rfl
theorem reserved1C (inst : Inst) : Statement (.reserved1C inst) := rfl
theorem reserved1D (inst : Inst) : Statement (.reserved1D inst) := rfl
theorem reserved1E (inst : Inst) : Statement (.reserved1E inst) := rfl
theorem reserved1F (inst : Inst) : Statement (.reserved1F inst) := rfl
theorem hwReset (inst : Inst) : Statement (.hwReset inst) := rfl
theorem txStep : Statement (.txStep) := rfl
theorem audPacket (samples : List Sample) : Statement (.audPacket samples) := rfl
theorem thmFrame (temps : List F32) : Statement (.thmFrame temps) := rfl
theorem thmZero : Statement (.thmZero) := rfl
theorem frameThermal (words : List U16) : Statement (.frameThermal words) := rfl
theorem frameAudio (seq : U16) (predictor : Sample) (stepIndex : Byte) (payload : List Byte) : Statement (.frameAudio seq predictor stepIndex payload) := rfl
theorem frameBtn (line : List Byte) : Statement (.frameBtn line) := rfl
theorem frameDebug (line : List Byte) : Statement (.frameDebug line) := rfl
theorem frameLegacyAA55 (button : Byte) (payload : List Byte) : Statement (.frameLegacyAA55 button payload) := rfl
theorem frameLegacyCsv (line : List Byte) : Statement (.frameLegacyCsv line) := rfl
theorem adpcmCode (code : Nibble) : Statement (.adpcmCode code) := rfl

end Sys2Proof.Laws.Presented
end

