-- ==== Sys2Proof/Laws/Pseudo.lean ====
section
/-! SUPPORT. Runs of `AUD_PUSH` and of `THM_PUSH`, one sample or pixel after the other: what they leave in DEV before the
frame is complete (R98). -/

namespace Sys2Proof.Machine

/-! ## Runs of `AUD_PUSH` -/

/-- The code at a position of payload bytes, the low nibble of each byte first (R54, R88). -/
def nib (bs : List Byte) (i : Nat) : Nibble :=
  if i % 2 = 0 then (bs.getD (i / 2) 0).extractLsb' 0 4 else (bs.getD (i / 2) 0).extractLsb' 4 4

theorem codesOf_eq_map : ∀ bs : List Byte, codesOf bs = (List.range (2 * bs.length)).map (nib bs)
  | [] => rfl
  | b :: bs => by
    rw [codesOf, codesOf_eq_map bs, List.length_cons, show 2 * (bs.length + 1) = (2 * bs.length) + 1 + 1 by omega,
      List.range_succ_eq_map, List.range_succ_eq_map]
    simp only [nib, List.map_cons, List.map_map, Function.comp_def, Nat.succ_eq_add_one, List.cons.injEq]
    refine ⟨by simp, by simp, List.map_congr_left fun a _ => ?_⟩
    have h1 : (a + 1 + 1) % 2 = a % 2 := by omega
    have h2 : (a + 1 + 1) / 2 = a / 2 + 1 := by omega
    rw [h1, h2, List.getD_cons_succ]
    rfl

theorem low_nibble (m n : Nibble) : (m ++ n : BitVec 8).extractLsb' 0 4 = n := by
  revert m n
  decide

theorem high_nibble (m n : Nibble) : (m ++ n : BitVec 8).extractLsb' 4 4 = m := by
  revert m n
  decide

/-- Packing puts the new code at the count and leaves the earlier ones (R172). -/
theorem pushed_nib {d : Dev} (hc : d.pkt.count.toNat ≤ 117) (x : Sample) (i : Nat) (hi : i ≤ d.pkt.count.toNat) :
    nib (pushed x d).pkt.buf.toList i =
      if i = d.pkt.count.toNat then (encStep d.enc x).2 else nib d.pkt.buf.toList i := by
  have hlen : d.pkt.buf.toList.length = 59 := by simp
  rw [pushed_buf]
  generalize d.pkt.buf.toList = bs at *
  generalize d.pkt.count.toNat = c at *
  generalize (encStep d.enc x).2 = n
  have hcl : c / 2 < bs.length := by omega
  by_cases he : i = c
  · subst he
    by_cases hp : i % 2 = 0
    · simp [nib, hp, hcl, low_nibble]
    · simp [nib, hp, hcl, high_nibble]
  · by_cases hh : i / 2 = c / 2
    · have h0 : i % 2 = 0 := by omega
      have h1 : ¬ c % 2 = 0 := by omega
      simp [nib, h0, h1, hh, hcl, low_nibble, he]
    · have : ¬ c / 2 = i / 2 := fun e => hh e.symm
      simp [nib, he, this]

/-- DEV behind the encoding and the packing of samples, before any frame is offered. -/
def pushedAll : List Sample → Dev → Dev
  | [], d => d
  | x :: xs, d => pushedAll xs (pushed x d)

theorem pushedAll_append : ∀ (xs ys : List Sample) (d : Dev), pushedAll (xs ++ ys) d = pushedAll ys (pushedAll xs d)
  | [], _, _ => rfl
  | _ :: xs, ys, _ => pushedAll_append xs ys _

theorem encRun_index (c : Codec) (h : c.stepIndex.toNat ≤ 88) : ∀ xs, (encRun c xs).stepIndex.toNat ≤ 88
  | [] => h
  | _ :: xs => encRun_index _ (nextIndex_le _ _) xs

theorem encCodes_length (c : Codec) : ∀ xs, (encCodes c xs).length = xs.length
  | [] => rfl
  | x :: xs => by simp [encCodes, encCodes_length _ xs]

/-- What a run of samples leaves: the encoder's state, the count, the header captured before, and one code a sample. -/
theorem pushedAll_spec : ∀ (xs : List Sample) (d : Dev), d.pkt.count.toNat + xs.length ≤ 118 →
    (pushedAll xs d).enc = encRun d.enc xs ∧
    (pushedAll xs d).pkt.count.toNat = d.pkt.count.toNat + xs.length ∧
    (pushedAll xs d).pkt.seq = d.pkt.seq ∧
    pushedAll xs d = { d with enc := (pushedAll xs d).enc, pkt := (pushedAll xs d).pkt } ∧
    (0 < d.pkt.count.toNat → (pushedAll xs d).pkt.hdrPredictor = d.pkt.hdrPredictor ∧
      (pushedAll xs d).pkt.hdrStepIndex = d.pkt.hdrStepIndex) ∧
    (∀ i, i < d.pkt.count.toNat → nib (pushedAll xs d).pkt.buf.toList i = nib d.pkt.buf.toList i) ∧
    (∀ i, i < xs.length →
      nib (pushedAll xs d).pkt.buf.toList (d.pkt.count.toNat + i) = (encCodes d.enc xs).getD i 0)
  | [], d, h => ⟨rfl, rfl, rfl, rfl, fun _ => ⟨rfl, rfl⟩, fun _ _ => rfl, fun i hi => by simp at hi⟩
  | x :: xs, d, h => by
    simp only [List.length_cons] at h
    have hc : d.pkt.count.toNat ≤ 117 := by omega
    have h1 := pushed_count hc x
    have hseq := pushed_seq d x
    have he := pushed_eq x d
    have hh := pushed_header d x
    have hn := pushed_nib hc x
    have henc : (pushed x d).enc = (encStep d.enc x).1 := by rw [he]
    obtain ⟨a, b, c, e, f, g, k⟩ := pushedAll_spec xs (pushed x d) (by omega)
    simp only [pushedAll, List.length_cons, encRun, encCodes]
    refine ⟨by rw [a, henc], by rw [b, h1]; omega, by rw [c, hseq], ?_, ?_, ?_, ?_⟩
    · conv_lhs => rw [e]
      rw [he]
    · intro hp
      have := f (by omega)
      rw [this.1, this.2, hh.1, hh.2, if_neg (by omega), if_neg (by omega)]
      exact ⟨rfl, rfl⟩
    · intro i hi
      rw [g i (by omega), hn i (by omega), if_neg (by omega)]
    · intro i hi
      cases i with
      | zero =>
        rw [Nat.add_zero, g _ (by omega), hn _ (le_refl _), if_pos rfl]
        rfl
      | succ i =>
        have := k i (by omega)
        rw [h1, henc] at this
        rw [show d.pkt.count.toNat + (i + 1) = d.pkt.count.toNat + 1 + i by omega, this]
        rfl

/-- A run of `AUD_PUSH` that does not fill the packet. -/
theorem audPushes_mid : ∀ (xs : List Sample) (s : State), s.dev.halted = false → s.dev.enc.stepIndex.toNat ≤ 88 →
    s.dev.pkt.count.toNat + xs.length ≤ 117 →
    ∃ r, runSequence (execAudPush .dev) xs s = .next { s with dev := pushedAll xs s.dev, result := r }
  | [], s, _, _, _ => ⟨s.result, rfl⟩
  | x :: xs, s, h, hi, hc => by
    simp only [List.length_cons] at hc
    have h1 := pushed_count (d := s.dev) (by omega) x
    have hs : execAudPush .dev x s = .next { s with dev := pushed x s.dev, result := .nothing } := by
      show devOp .dev s _ = _
      rw [devOp_ready h]
      simp only [runDev, audPush_eq hi (show s.dev.pkt.count.toNat ≤ 117 by omega), Except.map]
      rw [completePacket_mid (by omega)]
    obtain ⟨r, hr⟩ := audPushes_mid xs { s with dev := pushed x s.dev, result := .nothing } (by simp [pushed, h])
      (by rw [pushed_eq]; exact nextIndex_le _ _) (by simp only [h1]; omega)
    exact ⟨r, by simp only [runSequence, hs]; exact hr⟩

/-! ## Runs of `THM_PUSH` -/

/-- DEV behind the quantizing and the storing of one pixel, before the frame is offered (R176). -/
def stored (b : F32) (d : Dev) : Dev := storeWord (qEnc b d).2 (qEnc b d).1

/-- What storing one pixel changes. -/
theorem stored_spec (b : F32) (d : Dev) (hc : d.thf.count.toNat ≤ 767) :
    ∃ w : U16, w.toNat ≤ 400 ∧ (∀ v, quant b = some v → w = v) ∧
      (stored b d).thf.count.toNat = d.thf.count.toNat + 1 ∧
      (stored b d).thf.words.toList = d.thf.words.toList.set d.thf.count.toNat w ∧
      (stored b d).dstatus = d.dstatus ||| (if quant b = none then 0x2 else 0) ∧
      (quant b ≠ none → (stored b d).draws = d.draws) ∧
      stored b d =
        { d with thf := (stored b d).thf, dstatus := (stored b d).dstatus, draws := (stored b d).draws } := by
  obtain ⟨w, hw, hv, he⟩ := qEnc_cases b d
  refine ⟨w, hw, hv, ?_, ?_, ?_, ?_, ?_⟩
  · simp only [stored, he, storeWord_count, BitVec.toNat_add]
    simp
    omega
  · simp only [stored, he, storeWord_words, Vector.toList_setIfInBounds]
  · simp only [stored, he, storeWord_dstatus]
  · intro hq
    simp only [stored, he, storeWord_draws]
    simp [hq]
  · simp only [stored, he, storeWord]

/-- DEV behind the storing of pixels, before any frame is offered. -/
def storedAll : List F32 → Dev → Dev
  | [], d => d
  | x :: xs, d => storedAll xs (stored x d)

theorem storedAll_append : ∀ (xs ys : List F32) (d : Dev), storedAll (xs ++ ys) d = storedAll ys (storedAll xs d)
  | [], _, _ => rfl
  | _ :: xs, ys, _ => storedAll_append xs ys _

/-- What a run of pixels leaves: the count, `Q_NAN` where a NaN was among them, and one word a pixel. -/
theorem storedAll_spec : ∀ (xs : List F32) (d : Dev), d.thf.count.toNat + xs.length ≤ 768 →
    (storedAll xs d).thf.count.toNat = d.thf.count.toNat + xs.length ∧
    (storedAll xs d).dstatus = d.dstatus ||| (if ∃ b ∈ xs, quant b = none then 0x2 else 0) ∧
    storedAll xs d = { d with
      thf := (storedAll xs d).thf, dstatus := (storedAll xs d).dstatus, draws := (storedAll xs d).draws } ∧
    ((∀ b ∈ xs, quant b ≠ none) → (storedAll xs d).draws = d.draws) ∧
    (∀ i, i < d.thf.count.toNat → (storedAll xs d).thf.words.toList.getD i 0 = d.thf.words.toList.getD i 0) ∧
    (∀ i, i < xs.length → ((storedAll xs d).thf.words.toList.getD (d.thf.count.toNat + i) 0).toNat ≤ 400 ∧
      ∀ v, quant (xs.getD i 0) = some v → (storedAll xs d).thf.words.toList.getD (d.thf.count.toNat + i) 0 = v)
  | [], d, _ => ⟨rfl, by simp [storedAll], rfl, fun _ => rfl, fun _ _ => rfl, fun i hi => by simp at hi⟩
  | x :: xs, d, hc => by
    simp only [List.length_cons] at hc
    obtain ⟨w, hw, hv, h1, h2, h3, h4, h5⟩ := stored_spec x d (by omega)
    obtain ⟨a, b, c, e, f, g⟩ := storedAll_spec xs (stored x d) (by omega)
    simp only [storedAll]
    have hlen : d.thf.words.toList.length = 768 := by simp
    refine ⟨by rw [a, h1, List.length_cons]; omega, ?_, ?_, ?_, ?_, ?_⟩
    · rw [b, h3, BitVec.or_assoc]
      have hm : (∃ b ∈ x :: xs, quant b = none) ↔ quant x = none ∨ ∃ b ∈ xs, quant b = none :=
        List.exists_mem_cons_iff ..
      simp only [hm]
      by_cases p : quant x = none <;> by_cases q : ∃ b ∈ xs, quant b = none <;>
        simp only [p, q, if_true, if_false, or_true, or_false] <;> rfl
    · refine c.trans ?_
      have e1 : (stored x d).enc = d.enc := by rw [h5]
      have e2 : (stored x d).pkt = d.pkt := by rw [h5]
      have e3 : (stored x d).btnLast = d.btnLast := by rw [h5]
      have e4 : (stored x d).txq = d.txq := by rw [h5]
      have e5 : (stored x d).tx = d.tx := by rw [h5]
      have e6 : (stored x d).halted = d.halted := by rw [h5]
      have e7 : (stored x d).sink = d.sink := by rw [h5]
      rw [e1, e2, e3, e4, e5, e6, e7]
    · intro hq
      rw [e (fun b hb => hq b (List.mem_cons_of_mem _ hb)), h4 (hq x List.mem_cons_self)]
    · intro i hi
      rw [f i (by omega), h2]
      simp [show ¬ d.thf.count.toNat = i by omega]
    · intro i hi
      cases i with
      | zero =>
        rw [Nat.add_zero, f _ (by omega), h2]
        have hlt : d.thf.count.toNat < d.thf.words.toList.length := by omega
        generalize d.thf.words.toList = ws at *
        rw [List.getD_eq_getElem?_getD, List.getElem?_set_self hlt]
        exact ⟨hw, hv⟩
      | succ i =>
        have := g i (by simpa using hi)
        rw [h1] at this
        rw [show d.thf.count.toNat + (i + 1) = d.thf.count.toNat + 1 + i by omega]
        simpa using this

/-- A run of `THM_PUSH` that does not fill the frame. -/
theorem thmPushes_mid : ∀ (xs : List F32) (s : State), s.dev.halted = false →
    s.dev.thf.count.toNat + xs.length ≤ 767 →
    ∃ r, runSequence (execThmPush .dev) xs s = .next { s with dev := storedAll xs s.dev, result := r }
  | [], s, _, _ => ⟨s.result, rfl⟩
  | x :: xs, s, h, hc => by
    simp only [List.length_cons] at hc
    obtain ⟨w, hw, hv, h1, h2, h3, h4, h5⟩ := stored_spec x s.dev (by omega)
    have hs : execThmPush .dev x s = .next { s with dev := stored x s.dev, result := .nothing } := by
      show devOp .dev s _ = _
      rw [devOp_ready h]
      simp only [runDev, thmPush_eq (d := s.dev) (by omega), Except.map]
      rw [← stored, completeThermal_mid (by omega)]
    obtain ⟨r, hr⟩ := thmPushes_mid xs { s with dev := stored x s.dev, result := .nothing }
      (by rw [h5]; exact h) (by simp only [h1]; omega)
    exact ⟨r, by simp only [runSequence, hs]; exact hr⟩

theorem leWords_replicate : ∀ n, leWords (List.replicate n 0) = List.replicate (2 * n) 0
  | 0 => rfl
  | n + 1 => by
    rw [List.replicate_succ, leWords, leWords_replicate n, show 2 * (n + 1) = 2 * n + 1 + 1 by omega,
      List.replicate_succ, List.replicate_succ]
    rfl

end Sys2Proof.Machine
end

