-- ==== Sys2Proof/Tests/Slice0.lean ====
section
/-! SUPPORT. Tests of the model: ill-formed terms are refused, encodings written out from 30_encoding decode, single steps
give what 95_test_vectors says, and for every obligation with hypotheses a state and operands that meet them. -/

namespace Sys2Proof.Tests

set_option Elab.async false


open Sys2Proof Sys2Proof.Machine

/-! ## Helpers -/

/-- A sample from its value. -/
def smp (v : Int) : Sample := BitVec.ofInt 16 v

/-- A codec state as 95_test_vectors writes it. -/
def cod (p : Int) (i : Nat) : Codec := { predictor := smp p, stepIndex := BitVec.ofNat 7 i }

/-- DEV of a next state. -/
def devAfter (o : Answer) : Option Dev :=
  match o with
  | .next t => some t.dev
  | _ => none

/-- HOST of a next state. -/
def hostAfter (o : Answer) : Option Hst :=
  match o with
  | .next t => some t.host
  | _ => none

/-- The result of a next state. -/
def resultAfter (o : Answer) : Option Result :=
  match o with
  | .next t => some t.result
  | _ => none

/-- Whether an answer is a next state. -/
def answersNext (o : Answer) : Bool :=
  match o with
  | .next _ => true
  | _ => false

/-- The state after reset with another DEV. -/
def withDev (f : Dev → Dev) : State := { State.reset with dev := f State.reset.dev }

/-- The state after reset with another HOST. -/
def withHost (f : Hst → Hst) : State := { State.reset with host := f State.reset.host }

/-- HOST just reset but for the sequence number it expects and the threshold it is configured with. -/
def expecting (expected : U16) (threshold : Config.GapThreshold) : Hst :=
  { Hst.initial with recon := { expected := expected, lastSample := 0 }, gapThreshold := threshold }

/-- A halted DEV. -/
def haltedState : State := withDev fun d => { d with halted := true, dstatus := 0x10 }

/-- Frame F0 of 95_test_vectors section 3. -/
def frameF0 : List Byte :=
  [0xCA, 0x02, 0x00, 0x00, 0x00, 0x00, 0x00, 0x70, 0x77, 0x77, 0x37, 0x11, 0x21, 0x21, 0x23, 0x33,
   0x24, 0x24, 0x33, 0x43, 0x43, 0x33, 0x43, 0x43, 0x33, 0x43, 0x43, 0x42, 0x32, 0x33, 0x34, 0x34,
   0x33, 0x34, 0x34, 0x33, 0x34, 0x43, 0x43, 0x33, 0x43, 0x43, 0x33, 0x43, 0x43, 0x42, 0x32, 0x33,
   0x34, 0x34, 0x33, 0x34, 0x34, 0x33, 0x34, 0x43, 0x43, 0x33, 0x43, 0x43, 0x33, 0x43, 0x43, 0x42,
   0x32, 0x33]

/-- An audio frame with a given sequence number and step index and a payload of zeros. -/
def quietFrame (seq : U16) (i : Byte) : List Byte := mkAudioFrame seq 0 i (List.replicate 59 0)

/-- A thermal frame of one word. -/
def flatFrame (w : U16) : List Byte := mkThermalFrame (List.replicate 768 w)

/-- The rising ramp of 95_test_vectors section 3. -/
def rampUp : List Sample := (List.range 118).map fun k => smp (250 * k)

/-! ## Well-formedness: each check refuses an ill-formed term -/

theorem test_wf_audPacket : Instr.wf (.audPacket (List.replicate 117 0)) = false ∧
    Instr.wf (.audPacket (List.replicate 118 0)) = true := by decide
theorem test_wf_thmFrame : Instr.wf (.thmFrame (List.replicate 769 0)) = false ∧
    Instr.wf (.thmFrame (List.replicate 768 0)) = true := by decide +kernel
theorem test_wf_frameThermal : Instr.wf (.frameThermal (List.replicate 767 0)) = false ∧
    Instr.wf (.frameThermal (List.replicate 768 0)) = true := by decide +kernel
theorem test_wf_frameAudio : Instr.wf (.frameAudio 0 0 0 (List.replicate 58 0)) = false ∧
    Instr.wf (.frameAudio 0 0 0 (List.replicate 59 0)) = true := by decide
theorem test_wf_frameBtn : Instr.wf (.frameBtn [0x33, 0x0A]) = false ∧ Instr.wf (.frameBtn [0x31]) = false ∧
    Instr.wf (.frameBtn [0x31, 0x0A]) = true := by decide
theorem test_wf_frameDebug : Instr.wf (.frameDebug [0x68, 0x69]) = false ∧
    Instr.wf (.frameDebug [0x68, 0x0A, 0x69, 0x0A]) = false ∧ Instr.wf (.frameDebug [0x68, 0x69, 0x0A]) = true := by decide
theorem test_wf_frameLegacyAA55 : Instr.wf (.frameLegacyAA55 1 (List.replicate 1535 0)) = false ∧
    Instr.wf (.frameLegacyAA55 1 (List.replicate 1536 0)) = true := by decide +kernel
theorem test_wf_frameLegacyCsv : Instr.wf (.frameLegacyCsv []) = false ∧ Instr.wf (.frameLegacyCsv [0x31, 0x0A]) = true := by
  decide

/-! ## Decoding: every constructor, from a word written out from the tables of 30_encoding (R81 to R95, R97, R98) -/

theorem test_decode_dev_codes :
    decode (.command .dev 0b00000 0x00000000 []) = .ok (.nop .dev) ∧
    decode (.command .dev 0b00001 0xABCD8001 []) = .ok (.encSample .dev 0x8001) ∧
    decode (.command .dev 0b00010 0x00000000 []) = .ok (.encRdstate .dev) ∧
    decode (.command .dev 0b00011 0x000001F4 []) = .ok (.audPush .dev 500) ∧
    decode (.command .dev 0b00100 0x41CAF5C3 []) = .ok (.qEnc .dev 0x41CAF5C3) ∧
    decode (.command .dev 0b00101 0x41A00000 []) = .ok (.thmPush .dev 0x41A00000) ∧
    decode (.command .dev 0b00110 0x00000006 []) = .ok (.btnPoll .dev 2) ∧
    decode (.command .dev 0b00111 0x00000000 [0x68, 0x69]) = .ok (.dbgText .dev [0x68, 0x69]) ∧
    decode (.command .dev 0b01000 0x00000001 []) = .ok (.devInit .dev true false) ∧
    decode (.command .dev 0b01001 0x00000000 []) = .ok (.rdDstatus .dev) := by decide +kernel

theorem test_decode_host_codes :
    decode (.command .host 0b00000 0x00000000 []) = .ok (.nop .host) ∧
    decode (.command .host 0b10000 0xFF58FFFF []) = .ok (.decLoad .host 0xFFFF 0x58) ∧
    decode (.command .host 0b10001 0x0000001B []) = .ok (.decNibble .host 0xB) ∧
    decode (.command .host 0b10010 0x00000000 [0xCA, 0x02]) = .ok (.decPacket .host [0xCA, 0x02]) ∧
    decode (.command .host 0b10011 0x0000014D []) = .ok (.qDec .host 333) ∧
    decode (.command .host 0b10100 0x00000000 [0xCA, 0x01]) = .ok (.thmDecode .host [0xCA, 0x01]) ∧
    decode (.command .host 0b10101 0x00000000 [0x62]) = .ok (.dmxFeed .host [0x62]) ∧
    decode (.command .host 0b10110 0x00000000 [0xCA, 0x02]) = .ok (.recPacket .host [0xCA, 0x02]) ∧
    decode (.command .host 0b10111 0x00000000 []) = .ok (.sessionReset .host) ∧
    decode (.command .host 0b11000 0x00000000 []) = .ok (.rdHstatus .host) := by decide +kernel

theorem test_decode_reserved_codes :
    decode (.command .dev 0b01010 0 []) = .ok (.reserved0A .dev) ∧
    decode (.command .dev 0b01011 0 []) = .ok (.reserved0B .dev) ∧
    decode (.command .dev 0b01100 0 []) = .ok (.reserved0C .dev) ∧
    decode (.command .dev 0b01101 0 []) = .ok (.reserved0D .dev) ∧
    decode (.command .dev 0b01110 0 []) = .ok (.reserved0E .dev) ∧
    decode (.command .dev 0b01111 0 []) = .ok (.reserved0F .dev) ∧
    decode (.command .host 0b11001 0 []) = .ok (.reserved19 .host) ∧
    decode (.command .host 0b11010 0 []) = .ok (.reserved1A .host) ∧
    decode (.command .host 0b11011 0 []) = .ok (.reserved1B .host) ∧
    decode (.command .host 0b11100 0 []) = .ok (.reserved1C .host) ∧
    decode (.command .host 0b11101 0 []) = .ok (.reserved1D .host) ∧
    decode (.command .host 0b11110 0 []) = .ok (.reserved1E .host) ∧
    decode (.command .host 0b11111 0 []) = .ok (.reserved1F .host) := by decide +kernel

theorem test_decode_inputs :
    decode (.resetInput .dev) = .ok (.hwReset .dev) ∧ decode .txStep = .ok .txStep ∧
    decode (.audPacket (Vector.replicate 118 0x0000FFFF)) = .ok (.audPacket (List.replicate 118 0xFFFF)) ∧
    decode .thmZero = .ok .thmZero ∧ decode (.nibble 0b1100) = .ok (.adpcmCode 12) := by decide +kernel
theorem test_decode_thmFrame : decode (.thmFrame (Vector.replicate 768 0x42200000)) =
    .ok (.thmFrame (List.replicate 768 0x42200000)) := by decide +kernel
theorem test_decode_frameThermal :
    decode (.wire ([0xCA, 0x01, 0xFE, 0x00, 0xC8, 0x00] ++ List.replicate 1532 0)) =
      .ok (.frameThermal ([254, 200] ++ List.replicate 766 0)) := by decide +kernel
theorem test_decode_frameAudio :
    decode (.wire ([0xCA, 0x02, 0x01, 0x00, 0x25, 0x72, 0x24, 0xB4] ++ List.replicate 58 0xCB)) =
      .ok (.frameAudio 1 29221 36 (0xB4 :: List.replicate 58 0xCB)) := by decide +kernel
theorem test_decode_text_frames :
    decode (.wire [0x62, 0x74, 0x6E, 0x3A, 0x32, 0x0A, 0x64]) = .ok (.frameBtn [0x32, 0x0A]) ∧
    leftover (.wire [0x62, 0x74, 0x6E, 0x3A, 0x32, 0x0A, 0x64]) = [.wire [0x64]] ∧
    decode (.wire [0x64, 0x65, 0x62, 0x75, 0x67, 0x3A, 0x68, 0x69, 0x0A]) = .ok (.frameDebug [0x68, 0x69, 0x0A]) ∧
    decode (.wire [0x64, 0x61, 0x74, 0x61, 0x3A, 0x31, 0x0A]) = .ok (.frameLegacyCsv [0x31, 0x0A]) := by decide +kernel
theorem test_decode_frameLegacyAA55 :
    decode (.wire ([0xAA, 0x55, 0x02] ++ List.replicate 1536 7)) = .ok (.frameLegacyAA55 2 (List.replicate 1536 7)) := by
  decide +kernel
theorem test_decode_refused : decode (.wire [0xCA, 0x03]) = .error .notAFrame ∧
    decode (.wire [0xCA, 0x02, 0x00]) = .error .truncatedFrame := by decide +kernel
/-- The words of the opcode table as the host numbers them. -/
theorem test_decode_table_words :
    decodeTableWord 8 0x00 = some (.nop .dev) ∧ decodeTableWord 8 0x11 = some (.decNibble .host 0) ∧
    decodeTableWord 16 0xCA02 = some (.frameAudio 0 0 0 (List.replicate 59 0)) ∧
    decodeTableWord 32 0x62746E3A = some (.frameBtn [0, 0]) := by decide +kernel

/-! ## Single steps, with the values of 95_test_vectors -/

/-- Section 2.1: the largest delta, and a sample that equals the predictor. -/
theorem test_encSample :
    (devAfter (exec (.encSample .dev (smp (-32768))) (withDev fun d => { d with enc := cod 32767 88 }))).map (·.enc) =
      some (cod (-28669) 88) ∧
    resultAfter (exec (.encSample .dev 100) (withDev fun d => { d with enc := cod 100 10 })) = some (.word 0) := by
  decide +kernel
/-- Section 2.1: the encoder's arithmetic on the rows that saturate or tie. -/
theorem test_encStep :
    encStep (cod 0 0) 7 = (cod 7 2, 4) ∧ encStep (cod 0 0) (smp (-7)) = (cod (-7) 2, 12) ∧
    encStep (cod (-5) 3) 20 = (cod 13 11, 7) ∧ encStep (cod 32760 40) 32767 = (cod 32767 39, 0) ∧
    encStep (cod (-32760) 40) (smp (-32768)) = (cod (-32768) 39, 8) ∧ encStep (cod 0 87) 32767 = (cod 32767 88, 4) := by
  decide +kernel
/-- Section 2.2. -/
theorem test_encRdstate :
    resultAfter (exec (.encRdstate .dev) (withDev fun d => { d with enc := cod (-3) 7 })) = some (.word 0x0007FFFD) := by
  decide +kernel
/-- Program P1, steps 2 and 3: the header copy, and the two nibbles of the first byte. -/
theorem test_audPush_first :
    (devAfter (exec (.audPush .dev 0) (withDev fun d => { d with pkt := { d.pkt with hdrPredictor := 9 } }))).map
      (fun d => (d.pkt.hdrPredictor, d.pkt.count, d.enc, d.pkt.buf.toList.head?)) = some (0, 1, cod 0 0, some 0x00) := by
  decide +kernel
theorem test_audPush_second :
    (devAfter (exec (.audPush .dev 250) (withDev fun d => { d with pkt := { d.pkt with count := 1 } }))).map
      (fun d => (d.pkt.count, d.enc, d.pkt.buf.toList.head?)) = some (2, cod 11 8, some 0x70) := by decide +kernel
/-- Program P1: the 118 codes of the rising ramp are those of frame F0, and the last state is (29221, 36). -/
theorem test_audPacket :
    encCodes (cod 0 0) rampUp = frameCodes frameF0 ∧ encRun (cod 0 0) rampUp = cod 29221 36 := by decide +kernel
/-- Section 2.5. -/
theorem test_mkAudioFrame : mkAudioFrame 65535 (smp (-11)) 8 [] = [0xCA, 0x02, 0xFF, 0xFF, 0xF5, 0xFF, 0x08] ∧
    mkAudioFrame 1 29221 36 [0xB4] = [0xCA, 0x02, 0x01, 0x00, 0x25, 0x72, 0x24, 0xB4] := by decide +kernel
theorem test_mkThermalFrame :
    mkThermalFrame [254, 200, 400, 0] = [0xCA, 0x01, 0xFE, 0x00, 0xC8, 0x00, 0x90, 0x01, 0x00, 0x00] := by decide
/-- Section 2.3. -/
theorem test_qEnc :
    resultAfter (exec (.qEnc .dev 0x41CAF5C3) State.reset) = some (.word 254) ∧
    (devAfter (exec (.qEnc .dev 0x7FC00000) State.reset)).map (·.dstatus) = some 0x2 := by decide +kernel
theorem test_quant :
    quant 0x3E800000 = some 3 ∧ quant 0x3D4CCCCD = some 1 ∧ quant 0x3D4CCCCC = some 0 ∧ quant 0x421FCCCD = some 400 ∧
    quant 0xC0400000 = some 0 ∧ quant 0x7F800000 = some 400 ∧ quant 0x3EB33333 = some 3 ∧
    quantWith .binary32 0x3EB33333 = some 4 := by decide +kernel
/-- Program P2, step 2. -/
theorem test_thmPush :
    (devAfter (exec (.thmPush .dev 0x41CAF5C3) State.reset)).map (fun d => (d.thf.count, d.thf.words.toList.head?)) =
      some (1, some 254) := by decide +kernel
theorem test_thmPush_nan : (devAfter (exec (.thmPush .dev 0x7FC00000) State.reset)).map (fun d => (d.thf.count, d.dstatus)) =
    some (1, 0x2) := by decide +kernel
/-- Section 2.5: a refused count, and no change. -/
theorem test_btnPoll : (devAfter (exec (.btnPoll .dev 3) State.reset)).map (·.dstatus) = some 0x4 ∧
    (devAfter (exec (.btnPoll .dev 0) State.reset)).map (fun d => (d.dstatus, d.btnLast, d.txq)) =
      some (0, 0, Txq.reset) := by decide +kernel
/-- Program P2, step 1: the queue has room, since `TXQ_DEPTH` is at least 1. -/
theorem test_btnPoll_change (d : Dev) (h0 : d.btnLast = 0) (h1 : d.txq.btn = []) :
    (btnPoll 2 d).btnLast = 2 ∧ (btnPoll 2 d).txq.btn = [[0x62, 0x74, 0x6E, 0x3A, 0x32, 0x0A]] := by
  have h : (txqOf d.txq .btn).length < Config.txqDepth .btn := by
    rw [show txqOf d.txq .btn = [] from h1]
    exact Nat.succ_pos _
  rw [btnPoll, if_neg (by decide), if_neg (by rw [h0]; decide), emit_room h]
  exact ⟨rfl, congrArg (· ++ [mkBtnFrame 2]) h1⟩
/-- Section 2.5, and a line feed in the text. -/
theorem test_dbgText : mkDbgFrame [] = [0x64, 0x65, 0x62, 0x75, 0x67, 0x3A, 0x0A] ∧ textRefusedWith 9 [0x41, 0x0A] = true ∧
    textRefusedWith 2 [0x41, 0x42] = false ∧ textRefusedWith 2 [0x41, 0x42, 0x43] = true := by decide
/-- Section 2.5: a queue of depth 1. -/
theorem test_emit_depth_one :
    (emitWith 1 .aud [1] (emitWith 1 .aud [0] State.reset.dev).1).1.txq.aud = [[0]] ∧
    (emitWith 1 .aud [1] (emitWith 1 .aud [0] State.reset.dev).1).1.dstatus = 0x1 := by decide +kernel
/-- R184: the last byte of a frame ends it; a frame of another queue waits. -/
theorem test_txStep_last :
    (devAfter (exec .txStep (withDev fun d => { d with
      tx := { busy := true, frame := [1, 2], idx := 1 }, txq := { d.txq with aud := [[7]] }, sink := [1] }))).map
      (fun d => (d.sink, d.tx.busy, d.txq.aud)) = some ([1, 2], false, [[7]]) := by decide +kernel
theorem test_txStep_start :
    (devAfter (exec .txStep (withDev fun d => { d with txq := { d.txq with thm := [[5, 6]] } }))).map
      (fun d => (d.sink, d.tx, d.txq.thm)) = some ([5], { busy := true, frame := [5, 6], idx := 1 }, []) := by decide +kernel
/-- Section 2.8. -/
theorem test_devInit : (devAfter (exec (.devInit .dev false true) State.reset)).map (fun d => (d.halted, d.dstatus)) =
    some (true, 0x10) := by decide +kernel
theorem test_halted_refuses :
    (devAfter (exec (.audPush .dev 5) haltedState)).map (fun d => (d.dstatus, d.pkt.count)) = some (0x30, 0) ∧
    (devAfter (exec (.nop .dev) haltedState)).map (·.dstatus) = some 0x10 ∧
    (devAfter (exec (.hwReset .dev) haltedState)).map (fun d => (d.halted, d.dstatus)) = some (false, 0) := by decide +kernel
theorem test_rdDstatus : resultAfter (exec (.rdDstatus .dev) haltedState) = some (.word 0x10) := by decide +kernel
theorem test_rdHstatus :
    resultAfter (exec (.rdHstatus .host) (withHost fun h => { h with hstatus := 0x84 })) = some (.word 0x84) := by
  decide +kernel
theorem test_refused_codes : (hostAfter (exec (.audPush .host 5) State.reset)).map (·.hstatus) = some 0x80 ∧
    (devAfter (exec (.reserved0A .dev) State.reset)).map (·.dstatus) = some 0x20 ∧
    (hostAfter (exec (.reserved1F .host) State.reset)).map (·.hstatus) = some 0x80 ∧
    (devAfter (exec (.sessionReset .dev) State.reset)).map (·.dstatus) = some 0x20 := by decide +kernel
theorem test_sessionReset :
    (hostAfter (exec (.sessionReset .host) (withHost fun h => { h with
      dmxBuf := [0xCA, 0x02, 0, 0], recon := ⟨5, 29248⟩, hstatus := 0x31, out := [.button 1] }))).map
      (fun h => (h.dmxBuf, h.recon.expected, h.recon.lastSample, h.hstatus, h.out)) = some ([], 0, 0, 0, [.button 1]) := by
  decide +kernel
/-- Section 2.2. -/
theorem test_decLoad :
    (hostAfter (exec (.decLoad .host (smp (-1)) 88) State.reset)).map (·.dec) = some (cod (-1) 88) ∧
    (hostAfter (exec (.decLoad .host 5 89) State.reset)).map (fun h => (h.dec, h.hstatus)) = some (cod 0 0, 0x8) := by
  decide +kernel
theorem test_decNibble :
    resultAfter (exec (.decNibble .host 12) (withHost fun h => { h with dec := cod 10 5 })) =
      some (.word 0x0000FFFD) ∧
    decStep (cod 1234 30) 9 = (cod 1186 29, 1186) ∧ decStep (cod 0 88) 15 = (cod (-32768) 88, smp (-32768)) := by
  decide +kernel
theorem test_adpcmCode :
    (hostAfter (exec (.adpcmCode 4) (withHost fun h => { h with dec := cod 0 86 }))).map (·.dec) = some (cod 30471 88) := by
  decide +kernel
/-- Section 3: the samples and the last state of frame F0. -/
theorem test_decPacket :
    (hostAfter (exec (.decPacket .host frameF0) State.reset)).map (·.dec) = some (cod 29221 36) ∧
    (frameRun frameF0).2.take 6 = [0, 11, 41, 104, 240, 533] ∧ (frameRun frameF0).2.drop 115 = [28759, 29001, 29221] := by
  decide +kernel
/-- Section 2.4. -/
theorem test_qDec : resultAfter (exec (.qDec .host 333) State.reset) = some (.word 0x42053333) ∧
    qDec 1 = 0x3DCCCCCD ∧ qDec 3 = 0x3E99999A ∧ qDec 10 = 0x3F800000 ∧ qDec 65535 = 0x45CCCC00 := by decide +kernel
/-- Section 1, S1. -/
theorem test_thmDecode :
    resultAfter (exec (.thmDecode .host (flatFrame 0)) State.reset) = some (.temps (List.replicate 768 0)) ∧
    (hostAfter (exec (.thmDecode .host []) State.reset)).map (·.hstatus) = some 0x80 := by decide +kernel
/-- Section 2.6, at buffer bounds of 1538 and 16. -/
theorem test_dmxFeed :
    (dmxFeedWith 1538 [0xCA, 0xCA, 0x02] Hst.initial).dmxBuf = [0xCA, 0x02] ∧
    (dmxFeedWith 1538 [0xCA, 0xCA, 0x02] Hst.initial).hstatus = 0x1 ∧
    (dmxFeedWith 1538 [0x31, 0x0A] { Hst.initial with dmxBuf := [0x62, 0x74, 0x6E, 0x3A] }).out = [.button 1] ∧
    (dmxFeedWith 1538 [0x64, 0xCA, 0x02, 0x0A] Hst.initial).hstatus = 0x4 := by decide +kernel
theorem test_dmxFeed_overflow :
    (dmxFeedWith 16 (0x62 :: (List.replicate 10 0x41 ++ frameF0.take 10)) Hst.initial).dmxBuf = frameF0.take 10 ∧
    (dmxFeedWith 16 (0x62 :: (List.replicate 10 0x41 ++ frameF0.take 10)) Hst.initial).hstatus = 0x3 := by decide +kernel
/-- Sections 1 (S2) and 3 (P3, step 1). -/
theorem test_recPacket :
    (hostAfter (exec (.recPacket .host frameF0) State.reset)).map (fun h => (h.recon.expected, h.recon.lastSample, h.hstatus)) =
      some (1, 29221, 0) ∧
    (hostAfter (exec (.recPacket .host (quietFrame 65535 200)) State.reset)).map (fun h => (h.out, h.hstatus)) =
      some ([], 0x20) := by decide +kernel
/-- Section 2.7, at the default threshold, at 0 and at 32768. -/
theorem test_classify :
    classify (expecting 10 1000) 10 = .inorder ∧ classify (expecting 10 1000) 1009 = .forward ∧
    classify (expecting 10 1000) 1010 = .far ∧ classify (expecting 10 1000) 64545 = .far ∧
    classify (expecting 10 1000) 64546 = .stale ∧ classify (expecting 10 1000) 9 = .stale ∧
    classify (expecting 65535 1000) 0 = .forward ∧ classify (expecting 0 0) 65535 = .far ∧
    classify (expecting 0 32768) 32767 = .forward ∧ classify (expecting 0 32768) 32768 = .stale := by decide +kernel
theorem test_fill :
    fillWith smoothstep (fun _ _ => 0) (fun _ => 0) 0 0 1000 4 = [104, 352, 648, 896] ∧
    fillWith smoothstep (fun _ _ => 0) (fun _ => 0) 0 100 (smp (-100)) 3 = [69, 0, smp (-69)] ∧
    [1, 2, 3].map (fun k => envelope 100 k 4) = [75, 100, 75] := by decide +kernel
/-- R89: what the demultiplexer makes of text lines. -/
theorem test_parseLine :
    parseLine [0x62, 0x74, 0x6E, 0x3A, 0x33] = .malformed ∧ parseLine [0x62, 0x74, 0x6E, 0x3A, 0x31, 0x0D] = .malformed ∧
    parseLine [0x64, 0x65, 0x62, 0x75, 0x67, 0x3A, 0x68] = .debug [0x68] ∧
    parseLine [0x62, 0x74, 0x6E, 0x3A, 0x30] = .button 0 := by decide
/-- R92, R204: a second-generation frame is scanned as any other bytes. -/
theorem test_frameLegacyAA55 :
    (hostAfter (exec (.frameLegacyAA55 2 (List.replicate 1536 0)) State.reset)).map (fun h => (h.dmxBuf, h.out, h.hstatus)) =
      some ([], [], 0x1) := by decide +kernel
theorem test_frameLegacyCsv : (hostAfter (exec (.frameLegacyCsv [0x31, 0x0A]) State.reset)).map (fun h => (h.dmxBuf, h.hstatus)) =
    some ([], 0x4) := by decide +kernel
theorem test_frameBtn : (hostAfter (exec (.frameBtn [0x32, 0x0A]) State.reset)).map (·.out) = some [.button 2] := by
  decide +kernel
theorem test_frameDebug : (hostAfter (exec (.frameDebug [0x68, 0x69, 0x0A]) State.reset)).map (·.out) =
    some [.debug [0x68, 0x69]] := by decide +kernel
/-- Program P2: the word 254 arrives as `0x41CB3333`. -/
theorem test_frameThermal : (hostAfter (exec (.frameThermal (List.replicate 768 254)) State.reset)).map (·.out) =
    some [.thermal (List.replicate 768 0x41CB3333)] := by decide +kernel
theorem test_frameAudio :
    (hostAfter (exec (.frameAudio 0 0 0 (List.replicate 59 0)) State.reset)).map (fun h => (h.out, h.recon.expected)) =
      some ([.audio (List.replicate 118 0)], 1) := by decide +kernel
/-- R65: an idle step takes nothing where nothing waits; a request comes first. -/
theorem test_step_idle : (devAfter (step State.reset)).map (fun d => (d.sink, d.tx, d.txq)) = some ([], Tx.reset, Txq.reset) := by
  decide +kernel
theorem test_step_request :
    resultAfter (step { State.reset with pending := [.command .dev 0x0A 0 [], .txStep] }) = some .nothing ∧
    (devAfter (step { State.reset with pending := [.command .dev 0x0A 0 [], .txStep] })).map (·.dstatus) = some 0x20 ∧
    resultAfter (step { haltedState with pending := [.command .dev 0x09 0 []] }) = some (.word 0x10) := by decide +kernel
/-- R204, R205: bytes that begin no frame are discarded one by one, a truncated frame waits for the rest. -/
theorem test_step_link_bytes :
    (hostAfter (step { State.reset with pending := [.wire [0x00, 0xAA]] })).map (fun h => (h.hstatus, h.dmxBuf)) =
      some (0x1, []) ∧
    (hostAfter (step { State.reset with pending := [.wire [0xCA, 0x02, 0x05]] })).map (fun h => (h.hstatus, h.dmxBuf)) =
      some (0, [0xCA, 0x02, 0x05]) := by decide +kernel

/-! ## Witnesses: for every obligation with hypotheses, a concrete state and operands that meet them -/

/-- A next state behind an answer that is one. -/
theorem exists_next {o : Answer} (h : answersNext o = true) : ∃ t, o = .next t := by
  cases o with
  | next t => exact ⟨t, rfl⟩
  | fault e => cases h
  | refused r => cases h

/-- A feed that fits the least buffer bound is one scan. -/
theorem feed_small {c : List Byte} {h : Hst} (hl : (h.dmxBuf ++ c).length ≤ 1538) :
    dmxFeed c h = { (scan (h.dmxBuf ++ c).length (h.dmxBuf ++ c) h).2 with
      dmxBuf := (scan (h.dmxBuf ++ c).length (h.dmxBuf ++ c) h).1 } := by
  have hs := scan_length (h.dmxBuf ++ c).length (h.dmxBuf ++ c) h
  unfold dmxFeed dmxFeedWith
  rw [feedLoop_once]
  unfold Config.dmxMaxBuf
  omega

/-- A state off reset: the encoder has moved, and a button frame is queued. -/
def queuedState : State := withDev fun d =>
  { d with enc := cod 7 2, btnLast := 1, txq := { d.txq with btn := [mkBtnFrame 1] } }

/-- DEV of `queuedState` meets its invariant. -/
theorem queued_inv : BlockInv queuedState := by
  refine ⟨⟨by decide, by decide, by decide, by decide, ?_, by decide, ?_, ?_, ?_, by decide, by decide⟩,
    ⟨by decide, Nat.zero_le _, rfl, by decide⟩⟩
  · intro w hw
    have h : queuedState.dev.thf.words.toList = List.replicate 768 0 := Vector.toList_replicate
    rw [h] at hw
    rw [List.eq_of_mem_replicate hw]
    decide
  · intro src
    cases src with
    | btn => exact Nat.succ_le_succ (Nat.zero_le _)
    | aud => exact Nat.zero_le _
    | thm => exact Nat.zero_le _
    | dbg => exact Nat.zero_le _
  · intro src f hf
    cases src with
    | btn =>
      have : f = mkBtnFrame 1 := List.mem_singleton.mp hf
      subst this
      simp only [FrameOf]
      decide
    | aud => cases hf
    | thm => cases hf
    | dbg => cases hf
  · intro h
    cases h

theorem witness_EncRdstateReturnsCodecState : haltedState.dev.halted = true ∧ queuedState.dev.halted = false := by decide
theorem witness_DevInitHaltsOnAudioFailure : haltedState.dev.halted = true ∧ queuedState.dev.halted = false := by decide
theorem witness_HaltedDevRefusesEverythingElse :
    haltedState.dev.halted = true ∧ Instr.wf (.encSample .dev 5) = true ∧ touches (.encSample .dev 5) = .dev ∧
    Instr.encSample .dev 5 ≠ .nop .dev ∧ Instr.encSample .dev 5 ≠ .rdDstatus .dev ∧
    Instr.encSample .dev 5 ≠ .hwReset .dev ∧ Instr.encSample .dev 5 ≠ .txStep := by decide
theorem witness_RefusedCodesOnlySetOpRefused :
    codeRefused .dev 0x0A = true ∧ codeRefused .dev 0x18 = true ∧ codeRefused .dev 0x1F = true ∧
    codeRefused .host 0x01 = true ∧ codeRefused .host 0x0F = true ∧ codeRefused .host 0x19 = true ∧
    codeRefused .host 0x1F = true := by decide
theorem witness_CodecUpdateArithmetic : 0 ≤ 32767 ∧ 32767 ≤ 32767 ∧ (0 : BitVec 7).toNat ≤ 88 ∧
    (88 : BitVec 7).toNat ≤ 88 := by decide
theorem witness_EncSampleEmitsGreedyCode : State.reset.dev.halted = false ∧ State.reset.dev.enc.stepIndex.toNat = 0 ∧
    (withDev fun d => { d with enc := cod (-32768) 88 }).dev.halted = false ∧
    (withDev fun d => { d with enc := cod (-32768) 88 }).dev.enc.stepIndex.toNat ≤ 88 := by decide
theorem witness_DecodersApplyTheCode : State.reset.host.dec.stepIndex.toNat ≤ 88 ∧
    (withHost fun h => { h with dec := cod 32767 88 }).host.dec.stepIndex.toNat ≤ 88 := by decide
theorem witness_DecLoadChecksStepIndex : (0x58 : Byte).toNat ≤ 88 ∧ 88 < (0x59 : Byte).toNat ∧ 88 < (0xFF : Byte).toNat := by
  decide
theorem witness_DecPacketDecodesFromHeader :
    isAudioFrame (quietFrame 0 88) = true ∧ (frameStepIndex (quietFrame 0 88)).toNat ≤ 88 ∧
    isAudioFrame (quietFrame 0 89) = true ∧ 88 < (frameStepIndex (quietFrame 0 89)).toNat ∧
    isAudioFrame ((quietFrame 0 0).take 65) = false := by decide
theorem witness_DecPacketEqualsItsExpansion : isAudioFrame frameF0 = true ∧ (frameStepIndex frameF0).toNat ≤ 88 ∧
    isAudioFrame (quietFrame 0 88) = true ∧ (frameStepIndex (quietFrame 0 88)).toNat ≤ 88 := by decide
theorem witness_DecPacketIgnoresHostState : isAudioFrame frameF0 = true ∧
    (∃ t1, exec (.decPacket .host frameF0) State.reset = .next t1) ∧
    ∃ t2, exec (.decPacket .host frameF0) (withHost fun h => { h with dec := cod 9 5, hstatus := 0x8 }) = .next t2 :=
  ⟨by decide, exists_next (by decide +kernel), exists_next (by decide +kernel)⟩
theorem witness_AudioPacketDecodesToEncoderTrack : rampUp.length = 118 ∧
    (withDev fun d => { d with enc := cod 9 88 }).dev.halted = false ∧
    (withDev fun d => { d with enc := cod 9 88 }).dev.enc.stepIndex.toNat ≤ 88 ∧
    (withDev fun d => { d with enc := cod 9 88 }).dev.pkt.count = 0 := by decide
theorem witness_QEncRoundsTenfoldTemperature :
    haltedState.dev.halted = true ∧ State.reset.dev.halted = false ∧ valQ 0x41A00000 = some 20 ∧
    (0x7FC00000 : F32).extractLsb' 23 8 = 0xFF ∧ (0x7FC00000 : F32).extractLsb' 0 23 ≠ 0 := by
  refine ⟨by decide, by decide, ?_, by decide, by decide⟩
  simp [valQ]
  norm_num
/-- Both ends of the range, and a tie. -/
theorem witness_QuantizationErrorBound : State.reset.dev.halted = false ∧ valQ 0 = some 0 ∧ valQ 0x42200000 = some 40 ∧
    valQ 0x3E800000 = some (1 / 4) ∧ (0 : ℚ) ≤ 1 / 4 ∧ (1 / 4 : ℚ) ≤ 40 := by
  refine ⟨by decide, ?_, ?_, ?_, by norm_num, by norm_num⟩
  · simp [valQ]
  · simp [valQ]
    norm_num
  · simp [valQ]
    norm_num
theorem witness_QuantizedWordsRoundTrip : (400 : U16).toNat ≤ 400 ∧ isThermalFrame (flatFrame 400) = true ∧
    ∀ w ∈ frameWords (flatFrame 400), w.toNat ≤ 400 := by
  obtain ⟨h1, h2⟩ := mkThermalFrame_fields (words := List.replicate 768 400) List.length_replicate
  refine ⟨by decide, h1, ?_⟩
  intro w hw
  rw [flatFrame, h2] at hw
  rw [List.eq_of_mem_replicate hw]
  decide
theorem witness_ThmDecodeReturnsTemperatures : isThermalFrame (flatFrame 65535) = true ∧ isThermalFrame frameF0 = false := by
  decide +kernel
theorem witness_HeaderFieldsAreLittleEndian : isAudioFrame (mkAudioFrame 65535 0x7FFF 0 (List.replicate 59 0)) = true ∧
    isAudioFrame (mkAudioFrame 1 0x8000 255 (List.replicate 59 0)) = true := by decide
theorem witness_AudPushPacksOneCode :
    (∀ c ∈ [0, 116, 117], (withDev fun d => { d with pkt := { d.pkt with count := c } }).dev.halted = false ∧
      (withDev fun d => { d with pkt := { d.pkt with count := c } }).dev.enc.stepIndex.toNat ≤ 88 ∧
      (withDev fun d => { d with pkt := { d.pkt with count := c } }).dev.pkt.count.toNat ≤ 117) := by decide
theorem witness_ThmPushStoresOneWord :
    (∀ c ∈ [0, 766, 767], (withDev fun d => { d with thf := { d.thf with count := c } }).dev.halted = false ∧
      (withDev fun d => { d with thf := { d.thf with count := c } }).dev.thf.count.toNat ≤ 767) := by decide
theorem witness_ThermalPseudoOpsEmitOneFrame : queuedState.dev.halted = false ∧ queuedState.dev.thf.count = 0 ∧
    (List.replicate 768 (0x42200000 : F32)).length = 768 :=
  ⟨by decide, by decide, List.length_replicate⟩
theorem witness_EmitAppendsOrDropsWhole : (txqOf State.reset.dev.txq .aud).length < Config.txqDepth .aud ∧
    Config.txqDepth .dbg ≤ (txqOf (withDev fun d =>
      { d with txq := { d.txq with dbg := List.replicate (Config.txqDepth .dbg) [0x0A] } }).dev.txq .dbg).length :=
  ⟨Nat.succ_pos _, (List.length_replicate (a := ([0x0A] : List Byte))).ge⟩
theorem witness_TxStepWritesOneByte :
    haltedState.dev.halted = true ∧
    (State.reset.dev.tx.busy = false ∧ ∀ src, txqOf State.reset.dev.txq src = []) ∧
    (∀ k ∈ [0, 1], (withDev fun d => { d with tx := ⟨true, [1, 2], k⟩ }).dev.halted = false ∧
      (withDev fun d => { d with tx := ⟨true, [1, 2], k⟩ }).dev.tx.busy = true ∧
      (withDev fun d => { d with tx := ⟨true, [1, 2], k⟩ }).dev.tx.idx <
        (withDev fun d => { d with tx := ⟨true, [1, 2], k⟩ }).dev.tx.frame.length) ∧
    (queuedState.dev.halted = false ∧ queuedState.dev.tx.busy = false ∧ (∃ src, txqOf queuedState.dev.txq src ≠ []) ∧
      ∀ src, ([] : List Byte) ∉ txqOf queuedState.dev.txq src) := by
  refine ⟨by decide, ⟨by decide, ?_⟩, by decide, by decide, by decide, ⟨.btn, by decide⟩, ?_⟩
  · intro src
    cases src <;> rfl
  · intro src
    cases src <;> decide
theorem witness_SinkIsHistoryOfWholeFrames :
    BlockInv queuedState ∧ SinkHistory (txqOf queuedState.dev.txq) queuedState.dev ∧
    (∀ src, ∀ f ∈ txqOf queuedState.dev.txq src, FrameOf src f) ∧ Instr.txStep ≠ .hwReset .dev ∧
    ∃ t, exec .txStep queuedState = .next t := by
  refine ⟨queued_inv, ⟨[], .aud, rfl, ?_⟩, queued_inv.dev.queueFrames, by decide, exists_next (by decide +kernel)⟩
  intro src
  cases src <;> rfl
theorem witness_EveryStepKeepsInvariant : BlockInv queuedState ∧ ∃ t, step queuedState = .next t :=
  ⟨queued_inv, exists_next (by decide +kernel)⟩
/-- With nothing presented, and with a byte that begins no frame. -/
theorem witness_EveryStepCompletes :
    BlockInv queuedState ∧ BlockInv { queuedState with pending := [.wire [0x00]] } :=
  ⟨queued_inv, queued_inv.dev, queued_inv.host⟩
theorem witness_InstructionsTouchOneInstance :
    touches (.audPush .dev 5) = .dev ∧ (∃ t, exec (.audPush .dev 5) queuedState = .next t) ∧
    touches (.recPacket .host frameF0) = .host ∧ ∃ t, exec (.recPacket .host frameF0) queuedState = .next t :=
  ⟨rfl, exists_next (by decide +kernel), rfl, exists_next (by decide +kernel)⟩
theorem witness_StickyBitsStaySet : Instr.devInit .dev false true ≠ .hwReset .dev ∧
    Instr.devInit .dev false true ≠ .hwReset .host ∧ Instr.devInit .dev false true ≠ .sessionReset .host ∧
    ∃ t, exec (.devInit .dev false true) (withDev fun d => { d with dstatus := 0x2 }) = .next t :=
  ⟨by decide, by decide, by decide, exists_next (by decide +kernel)⟩
theorem witness_HistoriesOnlyGrow : (∃ t, exec .txStep queuedState = .next t) ∧ Instr.sessionReset .host ≠ .txStep ∧
    ∃ t, exec (.sessionReset .host) (withHost fun h => { h with out := [.button 1] }) = .next t :=
  ⟨exists_next (by decide +kernel), by decide, exists_next (by decide +kernel)⟩
/-- The state after one chunk. -/
def fed (c : List Byte) (s : State) : State := { s with host := dmxFeed c s.host, result := .nothing }
theorem exec_fed (c : List Byte) (s : State) : exec (.dmxFeed .host c) s = .next (fed c s) := by
  simp only [exec_dmxFeed, hostOp_host, runHost, fed]
theorem fed_host (c : List Byte) (s : State) : (fed c s).host = dmxFeed c s.host := by
  simp only [fed]
/-- A feed that fits the least buffer bound does not overflow. -/
theorem small_feed_fits {c : List Byte} {h : Hst} (hl : (h.dmxBuf ++ c).length ≤ 1538) : feedOverflows c h = false := by
  have hs := scan_length (h.dmxBuf ++ c).length (h.dmxBuf ++ c) h
  apply Bool.eq_false_iff.mpr
  rw [ne_eq, feedOverflows_iff]
  unfold Config.dmxMaxBuf
  omega
/-- HOST with `DMX_OVF` set by an earlier feed. -/
def overflowed : State := withHost fun h => { h with hstatus := 0x2 }
theorem overflowed_buf : overflowed.host.dmxBuf = [] := rfl
theorem fed_lone_sync : (fed [0xCA] overflowed).host.dmxBuf = [0xCA] := by
  rw [fed_host, feed_small (by rw [overflowed_buf]; decide), overflowed_buf]
  exact congrArg Prod.fst (scan_wait (bs := [0xCA]) rfl _ _)
theorem witness_ChunkBoundariesDoNotMatter : ∃ t1 t2 t : State,
    exec (.dmxFeed .host [0xCA]) overflowed = .next t1 ∧ exec (.dmxFeed .host [0x33, 0xCA, 0x02]) t1 = .next t2 ∧
    exec (.dmxFeed .host ([0xCA] ++ [0x33, 0xCA, 0x02])) overflowed = .next t ∧
    feedOverflows [0xCA] overflowed.host = false ∧ feedOverflows [0x33, 0xCA, 0x02] t1.host = false :=
  ⟨fed [0xCA] overflowed, fed [0x33, 0xCA, 0x02] (fed [0xCA] overflowed), fed [0xCA, 0x33, 0xCA, 0x02] overflowed,
    exec_fed _ _, exec_fed _ _, exec_fed _ _, small_feed_fits (by rw [overflowed_buf]; decide),
    small_feed_fits (by rw [fed_lone_sync]; decide)⟩
theorem witness_CleanStreamIsDispatchedExactly : State.reset.host.dmxBuf = [] ∧
    ∀ f ∈ [frameF0, flatFrame 254, [0x62, 0x74, 0x6E, 0x3A, 0x32, 0x0A], [0x64, 0x0A]], ReceivableFrame f := by
  refine ⟨rfl, ?_⟩
  intro f hf
  simp only [List.mem_cons, List.not_mem_nil, or_false] at hf
  rcases hf with rfl | rfl | rfl | rfl
  · exact .inl (by decide)
  · exact .inr (.inl (by decide +kernel))
  · exact .inr (.inr (by decide))
  · exact .inr (.inr (by decide))
theorem witness_GarbageBeforeFrameIsDiscarded : State.reset.host.dmxBuf = [] ∧ noStart [] = true ∧
    noStart [0x00, 0xCA, 0x03, 0xCA] = true ∧ ReceivableFrame frameF0 :=
  ⟨rfl, rfl, by decide, .inl (by decide)⟩
theorem witness_SourceScenariosOfDemultiplexer : queuedState.host = State.reset.host := rfl
theorem witness_TextFramesArriveAsLines : State.reset.host.dmxBuf = [] ∧ (2 : BitVec 2) ≠ 3 ∧
    (0x0A : Byte) ∉ ([0x68, 0x69] : List Byte) := by decide
theorem witness_BinaryFramesArriveWhole : State.reset.host.dmxBuf = [] ∧ (List.replicate 768 (254 : U16)).length = 768 ∧
    (List.replicate 59 (0xCA : Byte)).length = 59 ∧ noStart (2 :: List.replicate 1536 0xCA) = true ∧
    noStart (0 :: (List.replicate 1535 0xCA ++ [0x01])) = false ∧
    noStart (2 :: List.replicate 1536 0x00) = true ∧ (2 :: List.replicate 1536 (0x00 : Byte)).getLast? ≠ some 0xCA := by
  decide +kernel
theorem witness_RecPacketAcceptsByClass :
    (isAudioFrame (quietFrame 0 88) = true ∧ (frameStepIndex (quietFrame 0 88)).toNat ≤ 88 ∧
      classify State.reset.host (frameSeq (quietFrame 0 88)) = .inorder) ∧
    (isAudioFrame (quietFrame 999 0) = true ∧ classify State.reset.host (frameSeq (quietFrame 999 0)) = .forward) ∧
    (isAudioFrame (quietFrame 1000 0) = true ∧ classify State.reset.host (frameSeq (quietFrame 1000 0)) = .far) ∧
    (isAudioFrame (quietFrame 64535 0) = true ∧ classify State.reset.host (frameSeq (quietFrame 64535 0)) = .far) := by
  decide +kernel
/-- Both ends of the stale band, and its first gap at another threshold. -/
theorem witness_StalePacketChangesNothing :
    (isAudioFrame (quietFrame 64536 200) = true ∧ classify State.reset.host (frameSeq (quietFrame 64536 200)) = .stale) ∧
    (isAudioFrame (quietFrame 65535 0) = true ∧ classify State.reset.host (frameSeq (quietFrame 65535 0)) = .stale) ∧
    (isAudioFrame (quietFrame 32768 0) = true ∧ classify (expecting 0 32768) (frameSeq (quietFrame 32768 0)) = .stale) := by
  decide +kernel
theorem witness_RefusedPacketIsNotAccepted : isAudioFrame (quietFrame 64535 89) = true ∧
    classify State.reset.host (frameSeq (quietFrame 64535 89)) ≠ .stale ∧
    88 < (frameStepIndex (quietFrame 64535 89)).toNat ∧ isAudioFrame [] = false := by decide +kernel
theorem witness_EverySequenceNumberYields118Samples :
    isAudioFrame (quietFrame 999 0) = true ∧ (frameStepIndex (quietFrame 999 0)).toNat ≤ 88 ∧
    classify State.reset.host (frameSeq (quietFrame 999 0)) = .forward ∧
    classify State.reset.host (frameSeq (quietFrame 0 0)) = .inorder ∧
    ∃ t, exec (.recPacket .host (quietFrame 999 0)) State.reset = .next t :=
  ⟨by decide, by decide, by decide +kernel, by decide +kernel, exists_next (by decide +kernel)⟩
/-- The ends of a trend, and of a fill of four. -/
theorem witness_FillStaysWithinEnvelope : (0 ≤ 1 ∧ 0 < 1) ∧ (4 ≤ 4 ∧ 0 < 4) ∧
    (∀ k, k ≤ 4 → (smoothstep k (4 + 1)).1 ≤ (smoothstep k (4 + 1)).2 ∧ 0 < (smoothstep k (4 + 1)).2) ∧ 0 < 4 ∧ 3 < 4 := by
  decide
/-- R238: weights without the properties are not taken, and a straight line for `M = 4` is. -/
theorem test_trendOf :
    trendOf [(4, [0, 1, 2, 3, 4])] 1 4 = (1, 4) ∧ trendOf [(4, [0, 1, 2, 3, 4])] 1 5 = smoothstep 1 5 ∧
    trendOf [(4, [0, 3, 2, 1, 4])] 1 4 = smoothstep 1 4 ∧ trendOf [(4, [0, 1])] 1 4 = smoothstep 1 4 := by decide
/-- The ends of a trend, where it does not rise, and the constant trend at 1/2. -/
theorem witness_ConfiguredTrendsAreTheTrendsOfTheSpec : (0 < 1 ∧ 0 ≤ 1 ∧ 1 ≤ 1) ∧
    (∀ k m : Nat, k ≤ m → (0 : ℚ) ≤ (fun _ _ => 1 / 2) k m ∧ ((fun _ _ => 1 / 2) k m + (fun _ _ => 1 / 2) (m - k) m : ℚ) = 1) ∧
    (∀ k k' m : Nat, k ≤ k' → k' ≤ m → ((fun _ _ => 1 / 2) k m : ℚ) ≤ (fun _ _ => 1 / 2) k' m) ∧ 0 ≤ 0 :=
  ⟨by decide, fun _ _ _ => by norm_num, fun _ _ _ _ _ => le_refl _, le_refl _⟩
/-- At the least threshold that the statement admits. -/
theorem witness_GapScenarioDelivers590Samples :
    1 < (2 : Config.GapThreshold).val ∧
    (withHost fun h => { h with gapThreshold := 2 }).host =
      { State.reset.host with gapThreshold := 2, trend := Config.trendDefault } ∧
    (∀ f ∈ [quietFrame 0 0, quietFrame 1 36, quietFrame 3 88, quietFrame 4 0],
      isAudioFrame f = true ∧ (frameStepIndex f).toNat ≤ 88) ∧
    frameSeq (quietFrame 0 0) = 0 ∧ frameSeq (quietFrame 1 36) = 1 ∧ frameSeq (quietFrame 3 88) = 3 ∧
    frameSeq (quietFrame 4 0) = 4 ∧
    ∃ t, runSequence (fun f => exec (.recPacket .host f))
      [quietFrame 0 0, quietFrame 1 36, quietFrame 3 88, quietFrame 4 0]
      (withHost fun h => { h with gapThreshold := 2 }) = .next t :=
  ⟨by decide, rfl, by decide, by decide, by decide, by decide, by decide, exists_next (by decide +kernel)⟩
theorem witness_DecodeInvertsEncode : Instr.wf (.encSample .host 0xFFFF) = true ∧ Instr.wf (.hwReset .dev) = true ∧
    Instr.wf .txStep = true ∧ Instr.wf (.audPacket (List.replicate 118 0)) = true ∧
    Instr.wf (.thmFrame (List.replicate 768 0)) = true ∧ Instr.wf (.frameThermal (List.replicate 768 0xFFFF)) = true ∧
    Instr.wf (.frameDebug [0x0A]) = true ∧ Instr.wf (.adpcmCode 15) = true := by decide +kernel
theorem witness_WireFramesAreSelfDelimiting :
    Instr.wf (.frameBtn [0x32, 0x0A]) = true ∧
    encode (.frameBtn [0x32, 0x0A]) = .wire [0x62, 0x74, 0x6E, 0x3A, 0x32, 0x0A] := by decide
theorem witness_StepRunsDecodedInstruction :
    ({ queuedState with pending := [.command .dev 0x03 5 [], .txStep] } : State).pending =
      .command .dev 0x03 5 [] :: [.txStep] ∧
    decode (.command .dev 0x03 5 []) = .ok (.audPush .dev 5) ∧ queuedState.pending = [] := by decide
theorem witness_PresentedWordRunsNext : decodeTableWord 8 3 = some (.audPush .dev 0) ∧
    decodeTableWord 16 0xCA02 = some (.frameAudio 0 0 0 (List.replicate 59 0)) := by decide +kernel
/-- A frame with bytes behind it, and bytes that begin none. -/
theorem witness_LinkBytesReachDemultiplexer :
    ({ queuedState with pending := [.wire [0x62, 0x74, 0x6E, 0x3A, 0x32, 0x0A, 0x64], .txStep] } : State).pending =
      .wire [0x62, 0x74, 0x6E, 0x3A, 0x32, 0x0A, 0x64] :: [.txStep] ∧ [0x64] ≠ ([] : List Byte) ∧
    ({ queuedState with pending := [.wire []] } : State).pending = .wire [] :: [] := by decide
theorem witness_ConfigurationNeverChanges : ∃ t,
    step { withHost (fun h => { h with gapThreshold := 32768 }) with pending := [.resetInput .host] } = .next t :=
  exists_next (by decide +kernel)

end Sys2Proof.Tests
end

section
/-! PROOFS. What one step runs: the instruction of the request at the head, or the transmitter's step (R13, R95). -/

namespace Sys2Proof.Machine

theorem fetch_nil {s : State} (h : s.pending = []) : fetch s = none := by
  simp only [fetch, h]

theorem fetch_cons {s : State} {r : Request} {rest : List Request} (h : s.pending = r :: rest) :
    fetch s = some (r, { s with pending := leftover r ++ rest }) := by
  simp only [fetch, h]

/-- A step in which nothing is presented is the transmitter's own (R184; log 2). -/
theorem step_idle {s : State} (h : s.pending = []) : step s = exec .txStep s := by
  simp only [step, fetch_nil h]
  rfl

/-- A step runs the instruction of the request at the head, with that request taken off (log 1). -/
theorem step_request {s : State} {r : Request} {rest : List Request} (h : s.pending = r :: rest) :
    step s = exec (requestedInstr r) { s with pending := leftover r ++ rest } := by
  simp only [step, fetch_cons h]

/-- Settles O55, from what a step runs with a request at the head and with none pending. -/
theorem stepRunsDecodedInstruction : Obligations.StepRunsDecodedInstruction := by
  intro s
  refine ⟨fun r rest i hp hd => ?_, step_idle⟩
  rw [step_request hp, requestedInstr_ok hd]

end Sys2Proof.Machine
end

section
/-! PROOFS. The frame of an instruction: it changes the state of one instance only (R3, R67, R300). Each shared operation
is shown to stay within its instance once; every arm of `exec` is one of them. -/

namespace Sys2Proof.Machine

/-- From `s` to `t` at most the state of `inst` and the result have changed (R67; `pending`: log 1). -/
def ChangesOnly (inst : Inst) (s t : State) : Prop :=
  (inst = .dev → t.host = s.host) ∧ (inst = .host → t.dev = s.dev) ∧ t.pending = s.pending

namespace ChangesOnly

theorem refl (inst : Inst) (s : State) : ChangesOnly inst s s := ⟨fun _ => rfl, fun _ => rfl, rfl⟩

theorem trans {inst : Inst} {s t u : State} (hst : ChangesOnly inst s t) (htu : ChangesOnly inst t u) :
    ChangesOnly inst s u := by
  obtain ⟨hhost, hdev, hpending⟩ := hst
  obtain ⟨khost, kdev, kpending⟩ := htu
  exact ⟨fun e => (khost e).trans (hhost e), fun e => (kdev e).trans (hdev e), kpending.trans hpending⟩

theorem of_result (inst : Inst) (s : State) (r : Result) : ChangesOnly inst s { s with result := r } :=
  ⟨fun _ => rfl, fun _ => rfl, rfl⟩

theorem of_dev (s : State) (d : Dev) (r : Result) : ChangesOnly .dev s { s with dev := d, result := r } :=
  ⟨fun _ => rfl, nofun, rfl⟩

theorem of_host (s : State) (g : Hst) (r : Result) : ChangesOnly .host s { s with host := g, result := r } :=
  ⟨nofun, fun _ => rfl, rfl⟩

theorem of_refused (inst : Inst) (s : State) : ChangesOnly inst s (refusedState inst s) := by
  cases inst with
  | dev => exact of_dev s _ _
  | host => exact of_host s _ _

end ChangesOnly

/-! ## The shared operations -/

section
variable {inst : Inst} {s t : State} {f : Dev → Except Fault (Dev × Result)} {g : Hst → Except Fault (Hst × Result)}

theorem refuseAt_changesOnly (h : refuseAt inst s = .next t) : ChangesOnly inst s t := by
  rw [refuseAt_eq] at h
  cases h
  exact .of_refused inst s

theorem runDev_changesOnly (h : runDev f s = .next t) : ChangesOnly .dev s t := by
  obtain ⟨d, r, -, rfl⟩ := runDev_next h
  exact .of_dev s d r

theorem runHost_changesOnly (h : runHost g s = .next t) : ChangesOnly .host s t := by
  obtain ⟨k, r, -, rfl⟩ := runHost_next h
  exact .of_host s k r

theorem devOp_changesOnly (h : devOp inst s f = .next t) : ChangesOnly inst s t := by
  obtain rfl | ⟨rfl, -, d, r, -, rfl⟩ := devOp_next h
  · exact .of_refused inst s
  · exact .of_dev s d r

theorem devOpAlways_changesOnly (h : devOpAlways inst s f = .next t) : ChangesOnly inst s t := by
  cases inst with
  | dev => exact runDev_changesOnly h
  | host => exact refuseAt_changesOnly h

theorem hostOp_changesOnly (h : hostOp inst s g = .next t) : ChangesOnly inst s t := by
  obtain rfl | ⟨rfl, k, r, -, rfl⟩ := hostOp_next h
  · exact .of_refused inst s
  · exact .of_host s k r

/-- A sequence of operations on one instance stays within it (R98). -/
theorem runSequence_changesOnly {α : Type} {op : α → State → Answer} {xs : List α}
    (hop : ∀ x u v, op x u = .next v → ChangesOnly inst u v) (h : runSequence op xs s = .next t) :
    ChangesOnly inst s t :=
  runSequence_rel (R := ChangesOnly inst) (.refl inst) (fun _ _ _ => .trans) hop xs s t h

theorem wireArrives_changesOnly {bytes : List Byte} (h : wireArrives bytes s = .next t) : ChangesOnly .host s t :=
  runHost_changesOnly h

theorem execNop_changesOnly (h : execNop inst s = .next t) : ChangesOnly inst s t := by
  cases inst <;> cases h <;> exact .of_result _ s .nothing

theorem execHwReset_changesOnly (h : execHwReset inst s = .next t) : ChangesOnly inst s t := by
  cases inst with
  | dev => cases h; exact .of_dev s _ _
  | host => cases h; exact .of_host s _ _

end

/-! ## The instructions -/

/-- Every instruction stays within the instance it touches: by the shared operation that its arm of `exec` runs. -/
theorem exec_changesOnly : ∀ (i : Instr) (s t : State), exec i s = .next t → ChangesOnly (touches i) s t
  | .nop _, _, _, h => execNop_changesOnly h
  | .hwReset _, _, _, h => execHwReset_changesOnly h
  | .encSample .., _, _, h | .encRdstate _, _, _, h | .audPush .., _, _, h | .qEnc .., _, _, h
  | .thmPush .., _, _, h | .btnPoll .., _, _, h | .dbgText .., _, _, h | .devInit .., _, _, h => devOp_changesOnly h
  | .rdDstatus _, _, _, h => devOpAlways_changesOnly h
  | .decLoad .., _, _, h | .decNibble .., _, _, h | .decPacket .., _, _, h | .qDec .., _, _, h
  | .thmDecode .., _, _, h | .dmxFeed .., _, _, h | .recPacket .., _, _, h | .sessionReset _, _, _, h
  | .rdHstatus _, _, _, h => hostOp_changesOnly h
  | .reserved0A _, _, _, h | .reserved0B _, _, _, h | .reserved0C _, _, _, h | .reserved0D _, _, _, h
  | .reserved0E _, _, _, h | .reserved0F _, _, _, h | .reserved19 _, _, _, h | .reserved1A _, _, _, h
  | .reserved1B _, _, _, h | .reserved1C _, _, _, h | .reserved1D _, _, _, h | .reserved1E _, _, _, h
  | .reserved1F _, _, _, h => refuseAt_changesOnly h
  | .txStep, s, _, h => runDev_changesOnly ((exec_txStep s).symm.trans h)
  | .audPacket _, _, _, h | .thmFrame _, _, _, h | .thmZero, _, _, h =>
    runSequence_changesOnly (fun _ _ _ => devOp_changesOnly) h
  | .frameThermal _, _, _, h | .frameAudio .., _, _, h | .frameBtn _, _, _, h | .frameDebug _, _, _, h
  | .frameLegacyAA55 .., _, _, h | .frameLegacyCsv _, _, _, h => wireArrives_changesOnly h
  | .adpcmCode code, s, _, h => runHost_changesOnly ((exec_adpcmCode code s).symm.trans h)

/-- Settles O35: `ChangesOnly` of the instance that an instruction touches is what the obligation asks of its step. -/
theorem instructionsTouchOneInstance : Obligations.InstructionsTouchOneInstance :=
  exec_changesOnly

end Sys2Proof.Machine
end

section
/-! PROOFS. What an operation of one instance can answer: where it does not fault, what it leaves unchanged, and the cases
of the operations that may refuse their operand. -/

namespace Sys2Proof.Machine

theorem map_eq_ok {α β : Type} {x : Except Fault α} {k : α → β} {b : β} :
    x.map k = .ok b ↔ ∃ a, x = .ok a ∧ k a = b := by
  cases x <;> simp [Except.map]

/-- `ENC_SAMPLE` that does not fault moves the encoder alone. -/
theorem encSample_next {pcm : Sample} {d : Dev} {r : Dev × Nibble} (h : encSample pcm d = .ok r) :
    r = ({ d with enc := (encStep d.enc pcm).1 }, (encStep d.enc pcm).2) := by
  unfold encSample at h
  split at h
  · exact (Except.ok.inj h).symm
  · cases h

/-- `AUD_PUSH` that does not fault encodes and packs the sample, and offers the frame if it is complete (R170). -/
theorem audPush_next {pcm : Sample} {d d' : Dev} (h : audPush pcm d = .ok d') : d' = completePacket (pushed pcm d) := by
  unfold audPush at h
  split at h
  · obtain ⟨r, hr, rfl⟩ := map_eq_ok.mp h
    rw [encSample_next hr, captureHeader_enc]
    rfl
  · cases h

/-- `THM_PUSH` that does not fault quantizes and stores the pixel, and offers the frame if it is complete (R176). -/
theorem thmPush_next {b : F32} {d d' : Dev} (h : thmPush b d = .ok d') : d' = completeThermal (stored b d) := by
  unfold thmPush at h
  split at h
  · exact (Except.ok.inj h).symm
  · cases h

/-- `DEC_NIBBLE` that does not fault moves the decoder alone. -/
theorem decNibble_next {code : Nibble} {x : Sample} {g g' : Hst} (h : decNibble code g = .ok (g', x)) :
    g' = { g with dec := (decStep g.dec code).1 } := by
  unfold decNibble at h
  split at h
  · exact (Prod.mk.inj (Except.ok.inj h)).1.symm
  · cases h

/-- `DEC_PACKET` refuses the operand, or runs the decoder over the frame. -/
theorem decPacket_cases (f : List Byte) (g : Hst) :
    (∃ e, (decPacket f g).1 = raiseHost e g) ∨
      ((frameStepIndex f).toNat ≤ 88 ∧ (decPacket f g).1 = { g with dec := (frameRun f).1 }) := by
  cases hf : isAudioFrame f with
  | false => exact .inl ⟨_, by rw [decPacket_other hf]⟩
  | true =>
    by_cases hi : (frameStepIndex f).toNat ≤ 88
    · exact .inr ⟨hi, by rw [decPacket_good hf hi]; rfl⟩
    · exact .inl ⟨_, by rw [decPacket_bad hf (Nat.lt_of_not_le hi)]⟩

/-- `THM_DECODE` refuses the operand or leaves HOST as it is. -/
theorem thmDecode_cases (f : List Byte) (g : Hst) :
    (∃ e, (thmDecode f g).1 = raiseHost e g) ∨ (thmDecode f g).1 = g := by
  unfold thmDecode
  split_ifs
  · exact .inr rfl
  · exact .inl ⟨_, rfl⟩

/-- `Dispatch` refuses the frame, delivers it decoded, or hands it to `REC_PACKET` (R210). -/
theorem dispatch_cases (f : List Byte) (g : Hst) :
    (∃ e, dispatch f g = raiseHost e g) ∨ (∃ o, dispatch f g = deliver o g) ∨ dispatch f g = recPacket f g := by
  by_cases hb : byteAt f 1 = Config.typeThermal
  · cases hf : isThermalFrame f with
    | true => exact .inr (.inl ⟨_, dispatch_thermal hf g⟩)
    | false => exact .inl ⟨.opRefused, by simp [dispatch, dispatchWith, hb, thmDecode, hf]⟩
  · exact .inr (.inr (dispatch_other hb g))

end Sys2Proof.Machine
end

section
/-! PROOFS. What every step can do to the block: an inventory of the moves of DEV and of HOST, and that each arm of
`exec` is a reset or a chain of them. An invariant or a frame of the whole machine is then a matter of the moves. -/

namespace Sys2Proof.Machine

/-! ## Moves -/

/-- What one operation can make of DEV, the reset aside. -/
inductive DevMove : Dev → Dev → Prop
  | stays (d : Dev) : DevMove d d
  | raises (e : DevFault) (d : Dev) : DevMove d (raiseDev e d)
  | encodes {pcm : Sample} {n : Nibble} {d d' : Dev} (h : encSample pcm d = .ok (d', n)) : DevMove d d'
  | pushesSample {pcm : Sample} {d d' : Dev} (h : audPush pcm d = .ok d') : DevMove d d'
  | quantizes (b : F32) (d : Dev) : DevMove d (qEnc b d).1
  | pushesPixel {b : F32} {d d' : Dev} (h : thmPush b d = .ok d') : DevMove d d'
  | polls (n : BitVec 2) (d : Dev) : DevMove d (btnPoll n d)
  | sendsText (text : List Byte) (d : Dev) : DevMove d (dbgText text d)
  | transmits {d d' : Dev} (h : txStep d = .ok d') : DevMove d d'

/-- What one operation can make of HOST, the resets aside. -/
inductive HostMove : Hst → Hst → Prop
  | stays (g : Hst) : HostMove g g
  | raises (e : HostFault) (g : Hst) : HostMove g (raiseHost e g)
  | loads (p : Sample) (i : Byte) (g : Hst) : HostMove g (decLoad p i g)
  | decodes {code : Nibble} {x : Sample} {g g' : Hst} (h : decNibble code g = .ok (g', x)) : HostMove g g'
  | decodesPacket (f : List Byte) (g : Hst) : HostMove g (decPacket f g).1
  | decodesThermal (f : List Byte) (g : Hst) : HostMove g (thmDecode f g).1
  | feeds (chunk : List Byte) (g : Hst) : HostMove g (dmxFeed chunk g)
  | reconstructs (f : List Byte) (g : Hst) : HostMove g (recPacket f g)

/-- One operation on one instance, the resets aside: a move of that instance, with any result. -/
inductive Move (s : State) : State → Prop
  | dev {d : Dev} (h : DevMove s.dev d) (r : Result) : Move s { s with dev := d, result := r }
  | host {g : Hst} (h : HostMove s.host g) (r : Result) : Move s { s with host := g, result := r }

/-- Any number of operations, one after the other. -/
abbrev Moves : State → State → Prop := Relation.ReflTransGen Move

theorem Move.result (s : State) (r : Result) : Move s { s with result := r } := .dev (.stays s.dev) r

theorem Move.refused (inst : Inst) (s : State) : Move s (refusedState inst s) := by
  have h := refuseAt_eq inst s
  cases inst with
  | dev => exact Host.Outcome.next.inj h ▸ .dev (.raises .opRefused s.dev) .nothing
  | host => exact Host.Outcome.next.inj h ▸ .host (.raises .opRefused s.host) .nothing

/-! ## The shared operations -/

section
variable {inst : Inst} {s t : State} {f : Dev → Except Fault (Dev × Result)} {g : Hst → Except Fault (Hst × Result)}

theorem refuseAt_move (h : refuseAt inst s = .next t) : Move s t := by
  rw [refuseAt_eq] at h
  exact Host.Outcome.next.inj h ▸ .refused inst s

theorem runDev_move (hf : ∀ d d' r, f d = .ok (d', r) → DevMove d d') (h : runDev f s = .next t) : Move s t := by
  obtain ⟨d, r, hd, rfl⟩ := runDev_next h
  exact .dev (hf _ _ _ hd) r

theorem runHost_move (hg : ∀ k k' r, g k = .ok (k', r) → HostMove k k') (h : runHost g s = .next t) : Move s t := by
  obtain ⟨k, r, hk, rfl⟩ := runHost_next h
  exact .host (hg _ _ _ hk) r

theorem devOp_move (hf : ∀ d d' r, f d = .ok (d', r) → DevMove d d') (h : devOp inst s f = .next t) : Move s t := by
  obtain rfl | ⟨-, -, d, r, hd, rfl⟩ := devOp_next h
  · exact .refused inst s
  · exact .dev (hf _ _ _ hd) r

theorem hostOp_move (hg : ∀ k k' r, g k = .ok (k', r) → HostMove k k') (h : hostOp inst s g = .next t) : Move s t := by
  obtain rfl | ⟨-, k, r, hk, rfl⟩ := hostOp_next h
  · exact .refused inst s
  · exact .host (hg _ _ _ hk) r

/-- An operation that cannot fault, on DEV. -/
theorem devOp_total {F : Dev → Dev} {R : Dev → Result} (hF : ∀ d, DevMove d (F d))
    (h : devOp inst s (fun d => .ok (F d, R d)) = .next t) : Move s t :=
  devOp_move (fun d _ _ e => (Prod.mk.inj (Except.ok.inj e)).1 ▸ hF d) h

/-- An operation that cannot fault, on HOST. -/
theorem hostOp_total {G : Hst → Hst} {R : Hst → Result} (hG : ∀ k, HostMove k (G k))
    (h : hostOp inst s (fun k => .ok (G k, R k)) = .next t) : Move s t :=
  hostOp_move (fun k _ _ e => (Prod.mk.inj (Except.ok.inj e)).1 ▸ hG k) h

theorem execNop_move (h : execNop inst s = .next t) : Move s t := by
  cases inst <;> cases h <;> exact .result s .nothing

theorem execRdDstatus_move (h : execRdDstatus inst s = .next t) : Move s t := by
  cases inst with
  | dev => cases h; exact .result s _
  | host => cases h; exact .refused .host s

/-- An operation of DEV that can fault, with its result added. -/
theorem devMove_of_map {α : Type} {op : Dev → Except Fault α} {k : α → Dev × Result}
    (hop : ∀ {d a}, op d = .ok a → DevMove d (k a).1) (d d' : Dev) (r : Result) (e : (op d).map k = .ok (d', r)) :
    DevMove d d' := by
  obtain ⟨a, ha, hk⟩ := map_eq_ok.mp e
  have hm := hop ha
  rwa [hk] at hm

theorem execAudPush_move {pcm : Sample} (h : execAudPush inst pcm s = .next t) : Move s t :=
  devOp_move (devMove_of_map .pushesSample) h

theorem execThmPush_move {b : F32} (h : execThmPush inst b s = .next t) : Move s t :=
  devOp_move (devMove_of_map .pushesPixel) h

theorem execTxStep_move (h : execTxStep s = .next t) : Move s t :=
  runDev_move (devMove_of_map .transmits) h

/-- One code decoded on HOST, with its sample as the result. -/
theorem decNibble_move {code : Nibble} (k k' : Hst) (r : Result)
    (e : ((decNibble code k).map fun p => (p.1, .word (p.2.zeroExtend 32))) = .ok (k', r)) : HostMove k k' := by
  obtain ⟨p, hp, hk⟩ := map_eq_ok.mp e
  cases hk
  exact .decodes hp

theorem execDevInit_move {audioOk thermalOk : Bool} (h : execDevInit inst audioOk thermalOk s = .next t) : Move s t :=
  devOp_total (fun d => by
    cases audioOk with
    | true => exact .stays d
    | false => exact .raises .audioInitFatal d) h

theorem wireArrives_move {bytes : List Byte} (h : wireArrives bytes s = .next t) : Move s t := by
  rw [wireArrives_eq] at h
  exact Host.Outcome.next.inj h ▸ .host (.feeds bytes s.host) .nothing

/-- A sequence of operations moves by the moves of each (R98). -/
theorem runSequence_moves {α : Type} {op : α → State → Answer} {xs : List α}
    (hop : ∀ x u v, op x u = .next v → Move u v) (h : runSequence op xs s = .next t) : Moves s t :=
  runSequence_rel (R := Moves) (fun _ => .refl) (fun _ _ _ => .trans) (fun x u v e => .single (hop x u v e)) xs s t h

end

/-! ## The instructions -/

/-- The block behind the reset of one instance (R42, R260). -/
def resetState (inst : Inst) (s : State) : State :=
  match inst with
  | .dev => { s with dev := resetDev s.dev, result := .nothing }
  | .host => { s with host := resetHost s.host, result := .nothing }

/-- The instructions that reset an instance: its `HW_RESET`, and on HOST `SESSION_RESET` (R42, R261). -/
def ResetOf (inst : Inst) (i : Instr) : Prop := i = .hwReset inst ∨ (inst = .host ∧ i = .sessionReset .host)

theorem exec_reset {inst : Inst} {i : Instr} (h : ResetOf inst i) (s : State) :
    exec i s = .next (resetState inst s) := by
  obtain rfl | ⟨rfl, rfl⟩ := h
  · cases inst <;> rfl
  · rfl

/-- `SESSION_RESET` is no operation of DEV (R97). -/
theorem exec_sessionReset_dev (s : State) : exec (.sessionReset .dev) s = .next (refusedState .dev s) := by
  rw [exec_sessionReset, hostOp_dev]

/-- Everything an instruction that does not reset an instance can do: by the shared operation that its arm of `exec`
runs. -/
theorem exec_moves : ∀ {i : Instr} {s t : State}, (∀ inst, ¬ ResetOf inst i) → exec i s = .next t → Moves s t
  | .hwReset inst, _, _, hn, _ => absurd (.inl rfl) (hn inst)
  | .sessionReset .host, _, _, hn, _ => absurd (.inr ⟨rfl, rfl⟩) (hn .host)
  | .sessionReset .dev, s, _, _, h =>
    .single (Host.Outcome.next.inj ((exec_sessionReset_dev s).symm.trans h) ▸ .refused .dev s)
  | .nop _, _, _, _, h => .single (execNop_move h)
  | .encSample .., _, _, _, h => .single (devOp_move (devMove_of_map .encodes) h)
  | .encRdstate _, _, _, _, h => .single (devOp_total .stays h)
  | .audPush .., _, _, _, h => .single (execAudPush_move h)
  | .qEnc _ temp, _, _, _, h => .single (devOp_total (.quantizes temp) h)
  | .thmPush .., _, _, _, h => .single (execThmPush_move h)
  | .btnPoll _ count, _, _, _, h => .single (devOp_total (.polls count) h)
  | .dbgText _ text, _, _, _, h => .single (devOp_total (.sendsText text) h)
  | .devInit .., _, _, _, h => .single (execDevInit_move h)
  | .rdDstatus _, _, _, _, h => .single (execRdDstatus_move h)
  | .decLoad _ p i, _, _, _, h => .single (hostOp_total (.loads p i) h)
  | .decNibble .., _, _, _, h => .single (hostOp_move decNibble_move h)
  | .decPacket _ f, _, _, _, h => .single (hostOp_total (.decodesPacket f) h)
  | .qDec .., _, _, _, h | .rdHstatus _, _, _, _, h => .single (hostOp_total .stays h)
  | .thmDecode _ f, _, _, _, h => .single (hostOp_total (.decodesThermal f) h)
  | .dmxFeed _ chunk, _, _, _, h => .single (hostOp_total (.feeds chunk) h)
  | .recPacket _ f, _, _, _, h => .single (hostOp_total (.reconstructs f) h)
  | .reserved0A _, _, _, _, h | .reserved0B _, _, _, _, h | .reserved0C _, _, _, _, h | .reserved0D _, _, _, _, h
  | .reserved0E _, _, _, _, h | .reserved0F _, _, _, _, h | .reserved19 _, _, _, _, h | .reserved1A _, _, _, _, h
  | .reserved1B _, _, _, _, h | .reserved1C _, _, _, _, h | .reserved1D _, _, _, _, h | .reserved1E _, _, _, _, h
  | .reserved1F _, _, _, _, h => .single (refuseAt_move h)
  | .txStep, _, _, _, h => .single (execTxStep_move h)
  | .audPacket _, _, _, _, h => runSequence_moves (fun _ _ _ => execAudPush_move) h
  | .thmFrame _, _, _, _, h | .thmZero, _, _, _, h => runSequence_moves (fun _ _ _ => execThmPush_move) h
  | .frameThermal _, _, _, _, h | .frameAudio .., _, _, _, h | .frameBtn _, _, _, _, h | .frameDebug _, _, _, _, h
  | .frameLegacyAA55 .., _, _, _, h | .frameLegacyCsv _, _, _, _, h => .single (wireArrives_move h)
  | .adpcmCode _, _, _, _, h => .single (runHost_move decNibble_move h)

end Sys2Proof.Machine
end

section
/-! PROOFS. The resets: the values they give every element (R20, R42, R310), and that these meet the invariant of
reachable states (R43). -/

namespace Sys2Proof.Machine

/-- Settles O1: the reset values of both instances are written out in the model as in the statement. -/
theorem resetStateHoldsResetValues : Obligations.ResetStateHoldsResetValues :=
  ⟨rfl, rfl, rfl, rfl⟩

/-- Settles O3: each reset runs `resetDev` or `resetHost`, and `SESSION_RESET` is refused on DEV. -/
theorem resetsGiveEveryElementItsResetValue : Obligations.ResetsGiveEveryElementItsResetValue := by
  intro s
  exact ⟨exec_reset (.inl rfl) s, exec_reset (.inl rfl) s,
    (exec_reset (.inr ⟨rfl, rfl⟩) s).trans (exec_reset (.inl rfl) s).symm, exec_sessionReset_dev s⟩

theorem txqOf_reset (src : Src) : txqOf Txq.reset src = [] := by
  cases src <;> rfl

theorem resetDev_inv (d : Dev) : DevInv (resetDev d) where
  encIndex := Nat.zero_le _
  packetCount := Nat.zero_le _
  headerIndex := Nat.zero_le _
  thermalCount := Nat.zero_le _
  thermalWords w hw := by
    have hzero : w = 0 := by
      rw [resetDev_thf, Thf.reset, Vector.toList_replicate] at hw
      exact List.eq_of_mem_replicate hw
    simp [hzero]
  button := Nat.zero_le _
  queueDepth src := by simp [txqOf_reset]
  queueFrames src f hf := by simp [txqOf_reset] at hf
  inFlight := nofun
  haltedBit := by rw [resetDev_dstatus, resetDev_halted]; decide
  dstatusUnused := by rw [resetDev_dstatus]; decide

theorem resetHost_inv (g : Hst) : HostInv (resetHost g) where
  decIndex := Nat.zero_le _
  bufferBound := Nat.zero_le _
  bufferWaits := rfl
  hstatusUnused := by rw [resetHost_hstatus]; decide

/-- Nothing sent, nothing in flight and nothing queued is the empty history (R185). -/
theorem initial_sinkHistory : SinkHistory (fun _ => []) Dev.initial :=
  ⟨[], .aud, rfl, fun src => by cases src <;> rfl⟩

/-- Settles O2: the state after reset is a reset of itself, and a reset meets the invariant whatever was before. -/
theorem resetStateMeetsInvariant : Obligations.ResetStateMeetsInvariant :=
  ⟨⟨resetDev_inv Dev.initial, resetHost_inv Hst.initial⟩, initial_sinkHistory⟩

end Sys2Proof.Machine
end

section
/-! PROOFS. A halted DEV (R31, R262): it sends nothing and refuses every operation but `NOP`, `RD_DSTATUS` and
`HW_RESET`. -/

namespace Sys2Proof.Machine

/-- While DEV is halted `TX_STEP` is not enabled (R262; log 3). -/
theorem exec_txStep_halted {s : State} (h : s.dev.halted = true) :
    exec .txStep s = .next { s with result := .nothing } := by
  rw [exec_txStep]
  exact runDev_ok (by rw [txStep_disabled (.inl h)]; rfl)

section
variable {inst : Inst} {s : State} (hi : inst = .dev)
include hi

theorem devOp_of_halted (h : s.dev.halted = true) (f : Dev → Except Fault (Dev × Result)) :
    devOp inst s f = .next (refusedState .dev s) :=
  hi ▸ devOp_halted h f

theorem hostOp_at_dev (f : Hst → Except Fault (Hst × Result)) : hostOp inst s f = .next (refusedState .dev s) :=
  hi ▸ hostOp_dev s f

theorem refuseAt_dev : refuseAt inst s = .next (refusedState .dev s) :=
  hi ▸ refuseAt_eq .dev s

end

/-- A refusal behind a refusal changes nothing more. -/
theorem refusedState_idem (s : State) : refusedState .dev (refusedState .dev s) = refusedState .dev s := by
  simp only [refusedState, BitVec.or_assoc, BitVec.or_self]

/-- A sequence of operations that a halted DEV refuses is refused as a whole, unless it is empty (R98; log 14). -/
theorem runSequence_halted {α : Type} {op : α → State → Answer}
    (hop : ∀ x u, u.dev.halted = true → op x u = .next (refusedState .dev u)) :
    ∀ {xs : List α} {s : State}, s.dev.halted = true → xs ≠ [] →
      runSequence op xs s = .next (refusedState .dev s)
  | [], _, _, hne => absurd rfl hne
  | [x], s, h, _ => by simp only [runSequence, hop x s h]
  | x :: y :: ys, s, h, _ => by
    have hrest := runSequence_halted hop (xs := y :: ys) (s := refusedState .dev s) h (List.cons_ne_nil y ys)
    rw [runSequence, hop x s h]
    exact hrest.trans (congrArg _ (refusedState_idem s))

theorem execAudPush_halted (pcm : Sample) (s : State) (h : s.dev.halted = true) :
    execAudPush .dev pcm s = .next (refusedState .dev s) :=
  devOp_halted h _

theorem execThmPush_halted (b : F32) (s : State) (h : s.dev.halted = true) :
    execThmPush .dev b s = .next (refusedState .dev s) :=
  devOp_halted h _

/-- Every other instruction of DEV, by the shared operation that its arm of `exec` runs; a well-formed
pseudo-operation is not empty. -/
theorem exec_halted : ∀ (i : Instr) {s : State}, s.dev.halted = true → i.wf = true → touches i = .dev →
    i ≠ .nop .dev → i ≠ .rdDstatus .dev → i ≠ .hwReset .dev → i ≠ .txStep → exec i s = .next (refusedState .dev s)
  | .nop _, _, _, _, hi, hn, _, _, _ => absurd (congrArg Instr.nop hi) hn
  | .rdDstatus _, _, _, _, hi, _, hn, _, _ => absurd (congrArg Instr.rdDstatus hi) hn
  | .hwReset _, _, _, _, hi, _, _, hn, _ => absurd (congrArg Instr.hwReset hi) hn
  | .txStep, _, _, _, _, _, _, _, hn => absurd rfl hn
  | .encSample .., _, h, _, hi, _, _, _, _ | .encRdstate _, _, h, _, hi, _, _, _, _
  | .audPush .., _, h, _, hi, _, _, _, _ | .qEnc .., _, h, _, hi, _, _, _, _ | .thmPush .., _, h, _, hi, _, _, _, _
  | .btnPoll .., _, h, _, hi, _, _, _, _ | .dbgText .., _, h, _, hi, _, _, _, _
  | .devInit .., _, h, _, hi, _, _, _, _ => devOp_of_halted hi h _
  | .decLoad .., _, _, _, hi, _, _, _, _ | .decNibble .., _, _, _, hi, _, _, _, _
  | .decPacket .., _, _, _, hi, _, _, _, _ | .qDec .., _, _, _, hi, _, _, _, _
  | .thmDecode .., _, _, _, hi, _, _, _, _ | .dmxFeed .., _, _, _, hi, _, _, _, _
  | .recPacket .., _, _, _, hi, _, _, _, _ | .sessionReset _, _, _, _, hi, _, _, _, _
  | .rdHstatus _, _, _, _, hi, _, _, _, _ => hostOp_at_dev hi _
  | .reserved0A _, _, _, _, hi, _, _, _, _ | .reserved0B _, _, _, _, hi, _, _, _, _
  | .reserved0C _, _, _, _, hi, _, _, _, _ | .reserved0D _, _, _, _, hi, _, _, _, _
  | .reserved0E _, _, _, _, hi, _, _, _, _ | .reserved0F _, _, _, _, hi, _, _, _, _
  | .reserved19 _, _, _, _, hi, _, _, _, _ | .reserved1A _, _, _, _, hi, _, _, _, _
  | .reserved1B _, _, _, _, hi, _, _, _, _ | .reserved1C _, _, _, _, hi, _, _, _, _
  | .reserved1D _, _, _, _, hi, _, _, _, _ | .reserved1E _, _, _, _, hi, _, _, _, _
  | .reserved1F _, _, _, _, hi, _, _, _, _ => refuseAt_dev hi
  | .audPacket samples, _, h, hwf, _, _, _, _, _ =>
    runSequence_halted execAudPush_halted h fun hnil => by simp [hnil, Instr.wf, Config.samplesPerPacket] at hwf
  | .thmFrame temps, _, h, hwf, _, _, _, _, _ =>
    runSequence_halted execThmPush_halted h fun hnil => by simp [hnil, Instr.wf, Config.thermalPixels] at hwf
  | .thmZero, _, h, _, _, _, _, _, _ =>
    runSequence_halted execThmPush_halted h (List.cons_ne_nil 0 (List.replicate 767 0))

/-- Settles O8, from what each shared operation answers on a halted DEV. -/
theorem haltedDevRefusesEverythingElse : Obligations.HaltedDevRefusesEverythingElse :=
  fun i _ h => ⟨exec_txStep_halted h, exec_halted i h⟩

end Sys2Proof.Machine
end

section
/-! PROOFS. The status words are sticky: every move of an instance keeps the bits that are set (R32, R37, R296), and only
a reset of the instance clears them (R42). -/

namespace Sys2Proof.Machine

/-- Every bit set in `w` is set in `v` (R296). -/
def BitsStay (w v : BitVec 16) : Prop := w &&& v = w

namespace BitsStay

theorem refl (w : BitVec 16) : BitsStay w w := BitVec.and_self

theorem trans {w v u : BitVec 16} (hwv : BitsStay w v) (hvu : BitsStay v u) : BitsStay w u := by
  unfold BitsStay at *
  rw [← hwv, BitVec.and_assoc, hvu]

theorem of_or (w x : BitVec 16) : BitsStay w (w ||| x) := by
  unfold BitsStay
  ext i hi
  rw [BitVec.getElem_and, BitVec.getElem_or]
  exact inf_sup_self

theorem of_eq {w v : BitVec 16} (h : v = w) : BitsStay w v := h ▸ refl w

end BitsStay

/-! ## DEV -/

theorem raiseDev_bitsStay (e : DevFault) (d : Dev) : BitsStay d.dstatus (raiseDev e d).dstatus := and_setBit _ _

theorem emit_bitsStay (src : Src) (f : List Byte) (d : Dev) : BitsStay d.dstatus (emit src f d).1.dstatus := by
  by_cases h : (txqOf d.txq src).length < Config.txqDepth src
  · rw [emit_room h]
    exact .refl _
  · rw [emit_full h]
    exact .of_or _ _

theorem completePacket_bitsStay (d : Dev) : BitsStay d.dstatus (completePacket d).dstatus := by
  by_cases h : d.pkt.count.toNat = 118
  · rw [completePacket_end h]
    exact emit_bitsStay _ _ _
  · rw [completePacket_mid h]
    exact .refl _

theorem qEnc_bitsStay (b : F32) (d : Dev) : BitsStay d.dstatus (qEnc b d).1.dstatus := by
  obtain ⟨w, -, -, hq⟩ := qEnc_cases b d
  rw [hq]
  exact .of_or _ _

theorem completeThermal_bitsStay (d : Dev) : BitsStay d.dstatus (completeThermal d).dstatus := by
  by_cases h : d.thf.count.toNat = 768
  · rw [completeThermal_end h]
    exact emit_bitsStay _ _ _
  · rw [completeThermal_mid h]
    exact .refl _

theorem stored_bitsStay (b : F32) (d : Dev) : BitsStay d.dstatus (stored b d).dstatus := by
  rw [stored, storeWord_dstatus]
  exact qEnc_bitsStay b d

theorem pushed_dstatus (pcm : Sample) (d : Dev) : (pushed pcm d).dstatus = d.dstatus := by
  rw [pushed_eq]

theorem btnPoll_bitsStay (n : BitVec 2) (d : Dev) : BitsStay d.dstatus (btnPoll n d).dstatus := by
  have hemit := emit_bitsStay .btn (mkBtnFrame n) d
  unfold btnPoll
  split_ifs
  · exact raiseDev_bitsStay _ d
  · exact .refl _
  · dsimp only
    split_ifs <;> exact hemit

theorem dbgText_bitsStay (text : List Byte) (d : Dev) : BitsStay d.dstatus (dbgText text d).dstatus := by
  unfold dbgText
  split_ifs
  · exact raiseDev_bitsStay _ d
  · exact emit_bitsStay _ _ _

theorem selectFrame_dstatus (d : Dev) : (selectFrame d).dstatus = d.dstatus := by
  unfold selectFrame
  split_ifs
  · rfl
  · split <;> rfl

theorem writeByte_dstatus {d d' : Dev} (h : writeByte d = .ok d') : d'.dstatus = d.dstatus := by
  unfold writeByte at h
  split at h <;> cases h
  rfl

theorem txStep_dstatus {d d' : Dev} (h : txStep d = .ok d') : d'.dstatus = d.dstatus := by
  unfold txStep at h
  split_ifs at h
  · exact (writeByte_dstatus h).trans (selectFrame_dstatus d)
  · cases h
    rfl

theorem DevMove.bitsStay {d d' : Dev} (h : DevMove d d') : BitsStay d.dstatus d'.dstatus := by
  cases h with
  | stays => exact .refl _
  | raises e => exact raiseDev_bitsStay e d
  | encodes he => exact .of_eq (by cases encSample_next he; rfl)
  | @pushesSample pcm _ _ he =>
    rw [audPush_next he, ← pushed_dstatus pcm d]
    exact completePacket_bitsStay _
  | quantizes b => exact qEnc_bitsStay b d
  | pushesPixel he => exact thmPush_next he ▸ (stored_bitsStay _ d).trans (completeThermal_bitsStay _)
  | polls n => exact btnPoll_bitsStay n d
  | sendsText text => exact dbgText_bitsStay text d
  | transmits he => exact .of_eq (txStep_dstatus he)

/-! ## HOST -/

theorem raiseHost_bitsStay (e : HostFault) (g : Hst) : BitsStay g.hstatus (raiseHost e g).hstatus := and_setBit _ _

theorem decLoad_bitsStay (p : Sample) (i : Byte) (g : Hst) : BitsStay g.hstatus (decLoad p i g).hstatus := by
  unfold decLoad
  split_ifs
  · exact raiseHost_bitsStay _ g
  · exact .refl _

theorem recPacket_bitsStay (f : List Byte) (g : Hst) : BitsStay g.hstatus (recPacket f g).hstatus := by
  obtain ⟨e, he⟩ | ⟨hf, hc, hi⟩ := recPacket_cases f g
  · rw [he]
    exact raiseHost_bitsStay e g
  · rw [recPacket_accept hf hc hi, bridge_eq]
    exact .of_or _ _

theorem dispatch_bitsStay (f : List Byte) (g : Hst) : BitsStay g.hstatus (dispatch f g).hstatus := by
  obtain ⟨e, he⟩ | ⟨o, ho⟩ | hr := dispatch_cases f g
  · exact he ▸ raiseHost_bitsStay e g
  · exact .of_eq (by rw [ho, deliver_hstatus])
  · exact hr ▸ recPacket_bitsStay f g

theorem dispatchText_bitsStay (line : List Byte) (g : Hst) : BitsStay g.hstatus (dispatchText line g).hstatus := by
  unfold dispatchText
  split
  · exact .refl _
  · exact .refl _
  · exact raiseHost_bitsStay _ g

theorem dmxFeed_bitsStay (chunk : List Byte) (g : Hst) : BitsStay g.hstatus (dmxFeed chunk g).hstatus :=
  feedLoop_keeps (P := fun k => BitsStay g.hstatus k.hstatus) Config.dmxMaxBuf (fun _ _ h => h)
    (fun k h => h.trans (raiseHost_bitsStay _ k)) (fun k h => h.trans (raiseHost_bitsStay _ k))
    (fun f k h => h.trans (dispatch_bitsStay f k)) (fun l k h => h.trans (dispatchText_bitsStay l k)) _ _ _ (.refl _)

theorem HostMove.bitsStay {g g' : Hst} (h : HostMove g g') : BitsStay g.hstatus g'.hstatus := by
  cases h with
  | stays => exact .refl _
  | raises e => exact raiseHost_bitsStay e g
  | loads p i => exact decLoad_bitsStay p i g
  | decodes he => exact .of_eq (by rw [decNibble_next he])
  | decodesPacket f =>
    obtain ⟨e, he⟩ | ⟨-, he⟩ := decPacket_cases f g
    · exact he ▸ raiseHost_bitsStay e g
    · exact .of_eq (by rw [he])
  | decodesThermal f =>
    obtain ⟨e, he⟩ | he := thmDecode_cases f g
    · exact he ▸ raiseHost_bitsStay e g
    · exact .of_eq (by rw [he])
  | feeds chunk => exact dmxFeed_bitsStay chunk g
  | reconstructs f => exact recPacket_bitsStay f g

/-! ## The block -/

/-- No bit of either status word is cleared from `s` to `t`. -/
def Sticky (s t : State) : Prop := BitsStay s.dev.dstatus t.dev.dstatus ∧ BitsStay s.host.hstatus t.host.hstatus

theorem Move.sticky {s t : State} (h : Move s t) : Sticky s t := by
  cases h with
  | dev hd => exact ⟨hd.bitsStay, .refl _⟩
  | host hg => exact ⟨.refl _, hg.bitsStay⟩

theorem Moves.sticky {s t : State} (h : Moves s t) : Sticky s t := by
  induction h with
  | refl => exact ⟨.refl _, .refl _⟩
  | tail _ hm ih =>
    obtain ⟨hdev, hhost⟩ := hm.sticky
    exact ⟨ih.1.trans hdev, ih.2.trans hhost⟩

/-- Settles O36: a reset leaves the other instance alone, and every other instruction is a chain of moves. -/
theorem stickyBitsStaySet : Obligations.StickyBitsStaySet := by
  intro i s t h
  by_cases hr : ∃ inst, ResetOf inst i
  · obtain ⟨inst, hr⟩ := hr
    cases Host.Outcome.next.inj ((exec_reset hr s).symm.trans h)
    cases inst with
    | dev =>
      obtain rfl | ⟨⟨⟩, -⟩ := hr
      exact ⟨fun hn => absurd rfl hn, fun _ _ => BitsStay.refl _⟩
    | host =>
      refine ⟨fun _ => BitsStay.refl _, fun hhw hsess => ?_⟩
      obtain rfl | ⟨-, rfl⟩ := hr
      · exact absurd rfl hhw
      · exact absurd rfl hsess
  · obtain ⟨hdev, hhost⟩ := (exec_moves (not_exists.mp hr) h).sticky
    exact ⟨fun _ => hdev, fun _ _ => hhost⟩

end Sys2Proof.Machine
end

section
/-! PROOFS. The invariant of reachable states (R43): every move of an instance keeps it, a reset establishes it, and a
step is the one or the other. -/

namespace Sys2Proof.Machine

theorem encSample_inv {pcm : Sample} {n : Nibble} {d d' : Dev} (hd : DevInv d) (h : encSample pcm d = .ok (d', n)) :
    DevInv d' := by
  cases encSample_next h
  exact { hd with encIndex := nextIndex_le _ _ }

theorem DevMove.inv {d d' : Dev} (h : DevMove d d') (hd : DevInv d) : DevInv d' := by
  cases h with
  | stays => exact hd
  | raises e => exact raiseDev_inv hd e
  | encodes he => exact encSample_inv hd he
  | pushesSample he => exact audPush_inv hd _ he
  | quantizes b => exact qEnc_inv hd b
  | pushesPixel he => exact thmPush_inv hd _ he
  | polls n => exact btnPoll_inv hd n
  | sendsText text => exact dbgText_inv hd text
  | transmits he => exact txStep_inv hd he

theorem raiseHost_inv {g : Hst} (hg : HostInv g) (e : HostFault) : HostInv (raiseHost e g) :=
  { hg with hstatusUnused := raiseHost_low _ _ hg.hstatusUnused }

/-- The decoder may move to any step index of the table. -/
theorem setDec_inv {g : Hst} (hg : HostInv g) {c : Codec} (hc : c.stepIndex.toNat ≤ 88) :
    HostInv { g with dec := c } :=
  { hg with decIndex := hc }

/-- A step index of a frame's header that is in the table is so in its 7 bits. -/
theorem setWidth_index_le {i : Byte} (h : i.toNat ≤ 88) : (i.setWidth 7).toNat ≤ 88 := by
  rw [BitVec.toNat_setWidth]
  exact (Nat.mod_le _ _).trans h

theorem decLoad_inv {g : Hst} (hg : HostInv g) (p : Sample) (i : Byte) : HostInv (decLoad p i g) := by
  by_cases hi : i.toNat ≤ 88
  · rw [decLoad_good hi]
    exact setDec_inv hg (setWidth_index_le hi)
  · rw [decLoad_bad (Nat.lt_of_not_le hi)]
    exact raiseHost_inv hg _

theorem decPacket_inv {g : Hst} (hg : HostInv g) (f : List Byte) : HostInv (decPacket f g).1 := by
  obtain ⟨e, he⟩ | ⟨hi, he⟩ := decPacket_cases f g
  · exact he ▸ raiseHost_inv hg e
  · exact he ▸ setDec_inv hg (decCodes_index _ (setWidth_index_le hi) _)

theorem HostMove.inv {g g' : Hst} (h : HostMove g g') (hg : HostInv g) : HostInv g' := by
  cases h with
  | stays => exact hg
  | raises e => exact raiseHost_inv hg e
  | loads p i => exact decLoad_inv hg p i
  | decodes he => exact decNibble_next he ▸ setDec_inv hg (nextIndex_le _ _)
  | decodesPacket f => exact decPacket_inv hg f
  | decodesThermal f =>
    obtain ⟨e, he⟩ | he := thmDecode_cases f g
    · exact he ▸ raiseHost_inv hg e
    · exact he.symm ▸ hg
  | feeds chunk => exact feed_inv hg chunk
  | reconstructs f => exact hostInv_of hg (recPacket_buf f g) (recPacket_ok ⟨hg.decIndex, hg.hstatusUnused⟩ f)

theorem Move.inv {s t : State} (h : Move s t) (hs : BlockInv s) : BlockInv t := by
  cases h with
  | dev hd => exact ⟨hd.inv hs.dev, hs.host⟩
  | host hg => exact ⟨hs.dev, hg.inv hs.host⟩

theorem Moves.inv {s t : State} (h : Moves s t) (hs : BlockInv s) : BlockInv t := by
  induction h with
  | refl => exact hs
  | tail _ hm ih => exact hm.inv ih

theorem resetState_inv (inst : Inst) {s : State} (hs : BlockInv s) : BlockInv (resetState inst s) := by
  cases inst with
  | dev => exact ⟨resetDev_inv _, hs.host⟩
  | host => exact ⟨hs.dev, resetHost_inv _⟩

/-- Every instruction keeps the invariant. -/
theorem exec_inv {i : Instr} {s t : State} (hs : BlockInv s) (h : exec i s = .next t) : BlockInv t := by
  by_cases hr : ∃ inst, ResetOf inst i
  · obtain ⟨inst, hr⟩ := hr
    cases Host.Outcome.next.inj ((exec_reset hr s).symm.trans h)
    exact resetState_inv inst hs
  · exact (exec_moves (not_exists.mp hr) h).inv hs

/-- The invariant says nothing of the requests still to come. -/
theorem BlockInv.withPending {s : State} (hs : BlockInv s) (rs : List Request) : BlockInv { s with pending := rs } :=
  ⟨hs.dev, hs.host⟩

/-- Settles O33: a step runs one instruction, whether a request is presented or none. -/
theorem everyStepKeepsInvariant : Obligations.EveryStepKeepsInvariant := by
  intro s t hs h
  cases hp : s.pending with
  | nil =>
    rw [step_idle hp] at h
    exact exec_inv hs h
  | cons r rest =>
    rw [step_request hp] at h
    exact exec_inv (hs.withPending _) h

end Sys2Proof.Machine
end

section
/-! PROOFS. The byte sink and the deliveries (R55, R56): no operation takes anything off them, and of the moves of DEV
only the transmitter's writes the sink, one byte at a time (R50, R184). -/

namespace Sys2Proof.Machine

/-! ## The operations of DEV and the sink -/

@[simp] theorem emit_sink (src : Src) (f : List Byte) (d : Dev) : (emit src f d).1.sink = d.sink := by
  rw [emit_frame]

@[simp] theorem qEnc_sink (b : F32) (d : Dev) : (qEnc b d).1.sink = d.sink := by
  obtain ⟨w, -, -, hq⟩ := qEnc_cases b d
  rw [hq]

theorem encSample_sink {pcm : Sample} {d : Dev} {r : Dev × Nibble} (h : encSample pcm d = .ok r) :
    r.1.sink = d.sink := by
  rw [encSample_next h]

theorem completePacket_sink (d : Dev) : (completePacket d).sink = d.sink := by
  by_cases h : d.pkt.count.toNat = 118
  · rw [completePacket_end h]
    exact emit_sink _ _ d
  · rw [completePacket_mid h]

theorem audPush_sink {pcm : Sample} {d d' : Dev} (h : audPush pcm d = .ok d') : d'.sink = d.sink := by
  rw [audPush_next h, completePacket_sink, pushed_eq]

theorem completeThermal_sink (d : Dev) : (completeThermal d).sink = d.sink := by
  by_cases h : d.thf.count.toNat = 768
  · rw [completeThermal_end h]
    exact emit_sink _ _ d
  · rw [completeThermal_mid h]

theorem thmPush_sink {b : F32} {d d' : Dev} (h : thmPush b d = .ok d') : d'.sink = d.sink := by
  rw [thmPush_next h, completeThermal_sink, stored, storeWord_sink, qEnc_sink]

theorem btnPoll_sink (n : BitVec 2) (d : Dev) : (btnPoll n d).sink = d.sink := by
  unfold btnPoll
  split_ifs
  · exact raiseDev_sink _ d
  · rfl
  · dsimp only
    split_ifs <;> exact emit_sink _ _ d

theorem dbgText_sink (text : List Byte) (d : Dev) : (dbgText text d).sink = d.sink := by
  unfold dbgText
  split_ifs
  · exact raiseDev_sink _ d
  · exact emit_sink _ _ d

theorem devInit_sink (audioOk thermalOk : Bool) (d : Dev) : (devInit audioOk thermalOk d).sink = d.sink := by
  cases audioOk with
  | true => rfl
  | false => exact raiseDev_sink _ d

theorem selectFrame_sink (d : Dev) : (selectFrame d).sink = d.sink := by
  unfold selectFrame
  split_ifs
  · rfl
  · split
    · exact startFrame_sink _ _
    · rfl

theorem writeByte_sink {d d' : Dev} (h : writeByte d = .ok d') : ∃ b, d'.sink = d.sink ++ [b] := by
  unfold writeByte at h
  split at h <;> cases h
  exact ⟨_, rfl⟩

/-- `TX_STEP` writes one byte where it is enabled, and none otherwise (R184; log 3). -/
theorem txStep_sink {d d' : Dev} (h : txStep d = .ok d') : d'.sink = d.sink ∨ ∃ b, d'.sink = d.sink ++ [b] := by
  unfold txStep at h
  split_ifs at h
  · exact .inr (selectFrame_sink d ▸ writeByte_sink h)
  · cases h
    exact .inl rfl

/-! ## The instructions and the sink -/

section
variable {inst : Inst} {s t : State} {f : Dev → Except Fault (Dev × Result)} {g : Hst → Except Fault (Hst × Result)}

theorem refusedState_sink (inst : Inst) (s : State) : (refusedState inst s).dev.sink = s.dev.sink := by
  cases inst <;> rfl

theorem refuseAt_sink (h : refuseAt inst s = .next t) : t.dev.sink = s.dev.sink := by
  rw [refuseAt_eq] at h
  exact Host.Outcome.next.inj h ▸ refusedState_sink inst s

theorem devOp_sink (hf : ∀ d d' r, f d = .ok (d', r) → d'.sink = d.sink) (h : devOp inst s f = .next t) :
    t.dev.sink = s.dev.sink := by
  obtain rfl | ⟨-, -, d, r, hd, rfl⟩ := devOp_next h
  · exact refusedState_sink inst s
  · exact hf _ _ _ hd

/-- An operation of DEV that cannot fault. -/
theorem devOp_total_sink {F : Dev → Dev} {R : Dev → Result} (hF : ∀ d, (F d).sink = d.sink)
    (h : devOp inst s (fun d => .ok (F d, R d)) = .next t) : t.dev.sink = s.dev.sink :=
  devOp_sink (fun d _ _ e => (Prod.mk.inj (Except.ok.inj e)).1 ▸ hF d) h

/-- An operation of DEV that can fault, with its result added. -/
theorem devOp_map_sink {α : Type} {op : Dev → Except Fault α} {k : α → Dev × Result}
    (hop : ∀ {d a}, op d = .ok a → (k a).1.sink = d.sink) (h : devOp inst s (fun d => (op d).map k) = .next t) :
    t.dev.sink = s.dev.sink := by
  refine devOp_sink (fun d d' r e => ?_) h
  obtain ⟨a, ha, hk⟩ := map_eq_ok.mp e
  have hsink := hop ha
  rwa [hk] at hsink

theorem hostOp_sink (h : hostOp inst s g = .next t) : t.dev.sink = s.dev.sink := by
  obtain rfl | ⟨-, k, r, -, rfl⟩ := hostOp_next h
  · exact refusedState_sink inst s
  · rfl

theorem execNop_sink (h : execNop inst s = .next t) : t.dev.sink = s.dev.sink := by
  cases inst <;> cases h <;> rfl

theorem execRdDstatus_sink (h : execRdDstatus inst s = .next t) : t.dev.sink = s.dev.sink := by
  cases inst <;> cases h <;> rfl

/-- A reset does not erase the sink (R260, R312). -/
theorem execHwReset_sink (h : execHwReset inst s = .next t) : t.dev.sink = s.dev.sink := by
  cases inst <;> cases h <;> rfl

theorem execAudPush_sink {pcm : Sample} (h : execAudPush inst pcm s = .next t) : t.dev.sink = s.dev.sink :=
  devOp_map_sink audPush_sink h

theorem execThmPush_sink {b : F32} (h : execThmPush inst b s = .next t) : t.dev.sink = s.dev.sink :=
  devOp_map_sink thmPush_sink h

/-- A sequence of operations that leave the sink alone does so too (R98). -/
theorem runSequence_sink {α : Type} {op : α → State → Answer} {xs : List α}
    (hop : ∀ x u v, op x u = .next v → v.dev.sink = u.dev.sink) (h : runSequence op xs s = .next t) :
    t.dev.sink = s.dev.sink :=
  runSequence_rel (R := fun u v => v.dev.sink = u.dev.sink) (fun _ => rfl) (fun _ _ _ huv hvw => hvw.trans huv)
    hop xs s t h

/-- What is no operation of DEV leaves the sink alone. -/
theorem exec_sink_of_host {i : Instr} (hi : touches i = .host) (h : exec i s = .next t) :
    t.dev.sink = s.dev.sink := by
  obtain ⟨-, hdev, -⟩ := exec_changesOnly i s t h
  rw [hdev hi]

end

/-- Every instruction but `TX_STEP` leaves the sink alone (R50): by the shared operation that its arm of `exec` runs. -/
theorem exec_sink : ∀ {i : Instr} {s t : State}, i ≠ .txStep → exec i s = .next t → t.dev.sink = s.dev.sink
  | .txStep, _, _, hn, _ => absurd rfl hn
  | .nop _, _, _, _, h => execNop_sink h
  | .hwReset _, _, _, _, h => execHwReset_sink h
  | .encSample .., _, _, _, h => devOp_map_sink encSample_sink h
  | .encRdstate _, _, _, _, h => devOp_total_sink (fun _ => rfl) h
  | .audPush .., _, _, _, h => execAudPush_sink h
  | .qEnc _ temp, _, _, _, h => devOp_total_sink (qEnc_sink temp) h
  | .thmPush .., _, _, _, h => execThmPush_sink h
  | .btnPoll _ count, _, _, _, h => devOp_total_sink (btnPoll_sink count) h
  | .dbgText _ text, _, _, _, h => devOp_total_sink (dbgText_sink text) h
  | .devInit _ audioOk thermalOk, _, _, _, h => devOp_total_sink (devInit_sink audioOk thermalOk) h
  | .rdDstatus _, _, _, _, h => execRdDstatus_sink h
  | .decLoad .., _, _, _, h | .decNibble .., _, _, _, h | .decPacket .., _, _, _, h | .qDec .., _, _, _, h
  | .thmDecode .., _, _, _, h | .dmxFeed .., _, _, _, h | .recPacket .., _, _, _, h | .sessionReset _, _, _, _, h
  | .rdHstatus _, _, _, _, h => hostOp_sink h
  | .reserved0A _, _, _, _, h | .reserved0B _, _, _, _, h | .reserved0C _, _, _, _, h | .reserved0D _, _, _, _, h
  | .reserved0E _, _, _, _, h | .reserved0F _, _, _, _, h | .reserved19 _, _, _, _, h | .reserved1A _, _, _, _, h
  | .reserved1B _, _, _, _, h | .reserved1C _, _, _, _, h | .reserved1D _, _, _, _, h | .reserved1E _, _, _, _, h
  | .reserved1F _, _, _, _, h => refuseAt_sink h
  | .audPacket _, _, _, _, h => runSequence_sink (fun _ _ _ => execAudPush_sink) h
  | .thmFrame _, _, _, _, h | .thmZero, _, _, _, h => runSequence_sink (fun _ _ _ => execThmPush_sink) h
  | .frameThermal _, _, _, _, h | .frameAudio .., _, _, _, h | .frameBtn _, _, _, _, h | .frameDebug _, _, _, _, h
  | .frameLegacyAA55 .., _, _, _, h | .frameLegacyCsv _, _, _, _, h | .adpcmCode _, _, _, _, h =>
    exec_sink_of_host rfl h

theorem exec_txStep_sink {s t : State} (h : exec .txStep s = .next t) :
    t.dev.sink = s.dev.sink ∨ ∃ b, t.dev.sink = s.dev.sink ++ [b] := by
  rw [exec_txStep] at h
  obtain ⟨d, r, hd, rfl⟩ := runDev_next h
  obtain ⟨d1, htx, hk⟩ := map_eq_ok.mp hd
  cases hk
  exact txStep_sink htx

/-! ## The deliveries -/

/-- An accepted packet delivers its fill, if any, and then its samples (R231). -/
theorem recPacket_out (f : List Byte) (g : Hst) : g.out <+: (recPacket f g).out := by
  obtain ⟨e, he⟩ | ⟨hf, hc, hi⟩ := recPacket_cases f g
  · rw [he, raiseHost_out]
  · rw [recPacket_accept hf hc hi, acceptSamples_out, bridge_eq, List.append_assoc]
    exact List.prefix_append _ _

theorem dispatch_out (f : List Byte) (g : Hst) : g.out <+: (dispatch f g).out := by
  obtain ⟨e, he⟩ | ⟨o, ho⟩ | hr := dispatch_cases f g
  · rw [he, raiseHost_out]
  · rw [ho, deliver_out]
    exact List.prefix_append _ _
  · exact hr ▸ recPacket_out f g

theorem dispatchText_out (line : List Byte) (g : Hst) : g.out <+: (dispatchText line g).out := by
  unfold dispatchText
  split
  · exact List.prefix_append _ _
  · exact List.prefix_append _ _
  · exact List.prefix_rfl

theorem dmxFeed_out (chunk : List Byte) (g : Hst) : g.out <+: (dmxFeed chunk g).out :=
  feedLoop_keeps (P := fun k => g.out <+: k.out) Config.dmxMaxBuf (fun _ _ h => h) (fun _ h => h) (fun _ h => h)
    (fun f k h => h.trans (dispatch_out f k)) (fun l k h => h.trans (dispatchText_out l k)) _ _ _ List.prefix_rfl

theorem decLoad_out (p : Sample) (i : Byte) (g : Hst) : (decLoad p i g).out = g.out := by
  unfold decLoad
  split_ifs <;> rfl

theorem HostMove.out_grows {g g' : Hst} (h : HostMove g g') : g.out <+: g'.out := by
  cases h with
  | stays => exact List.prefix_rfl
  | raises e => rw [raiseHost_out]
  | loads p i => rw [decLoad_out]
  | decodes he => rw [decNibble_next he]
  | decodesPacket f =>
    obtain ⟨e, he⟩ | ⟨-, he⟩ := decPacket_cases f g
    · rw [he, raiseHost_out]
    · rw [he]
  | decodesThermal f =>
    obtain ⟨e, he⟩ | he := thmDecode_cases f g
    · rw [he, raiseHost_out]
    · rw [he]
  | feeds chunk => exact dmxFeed_out chunk g
  | reconstructs f => exact recPacket_out f g

theorem Move.out_grows {s t : State} (h : Move s t) : s.host.out <+: t.host.out := by
  cases h with
  | dev => exact List.prefix_rfl
  | host hg => exact hg.out_grows

theorem Moves.out_grows {s t : State} (h : Moves s t) : s.host.out <+: t.host.out := by
  induction h with
  | refl => exact List.prefix_rfl
  | tail _ hm ih => exact ih.trans hm.out_grows

/-- A reset does not erase the deliveries (R260, R312). -/
theorem resetState_out (inst : Inst) (s : State) : (resetState inst s).host.out = s.host.out := by
  cases inst <;> rfl

theorem exec_out_grows {i : Instr} {s t : State} (h : exec i s = .next t) : s.host.out <+: t.host.out := by
  by_cases hr : ∃ inst, ResetOf inst i
  · obtain ⟨inst, hr⟩ := hr
    cases Host.Outcome.next.inj ((exec_reset hr s).symm.trans h)
    rw [resetState_out]
  · exact (exec_moves (not_exists.mp hr) h).out_grows

/-- Settles O37: the deliveries grow along the moves, and the sink is left alone by all but the transmitter. -/
theorem historiesOnlyGrow : Obligations.HistoriesOnlyGrow := by
  intro i s t h
  refine ⟨exec_out_grows h, fun hn => exec_sink hn h, ?_⟩
  by_cases hi : i = .txStep
  · subst hi
    exact exec_txStep_sink h
  · exact .inl (exec_sink hi h)

end Sys2Proof.Machine
end

section
/-! PROOFS. The bytes of the link (R57, R58, R203): the chunk at their front arrives at HOST, whether it is a whole wire
frame or not, and the bytes behind it stay presented (logs 1, 13, 16). -/

namespace Sys2Proof.Machine

/-- Behind a whole wire frame the bytes that follow it are still to be presented, if there are any (log 1). -/
theorem leftover_wire {bytes more : List Byte} {i : Instr} (h : decodeWire bytes = .ok (i, more)) :
    leftover (.wire bytes) = if more = [] then [] else [.wire more] := by
  cases more with
  | nil => simp only [leftover, h, if_true]
  | cons b bs => simp only [leftover, h, reduceCtorEq, if_false]

theorem requestedInstr_wireFrame {bytes more : List Byte} {i : Instr} (h : decodeWire bytes = .ok (i, more)) :
    requestedInstr (.wire bytes) = i :=
  requestedInstr_ok (by rw [decode, h]; rfl)

/-- `DMX_FEED` on HOST completes whatever its chunk is (R203). -/
theorem exec_dmxFeed_host (chunk : List Byte) (s : State) :
    exec (.dmxFeed .host chunk) s = .next { s with host := dmxFeed chunk s.host, result := .nothing } := by
  rw [exec_dmxFeed, hostOp_host]
  exact runHost_ok rfl

section
variable {s : State} {bytes more : List Byte} {rest : List Request}

/-- A whole wire frame at the front of the presented bytes arrives at HOST unchanged (R57, R203; log 13). -/
theorem step_wireFrame {i : Instr} (hp : s.pending = .wire bytes :: rest) (h : decodeWire bytes = .ok (i, more)) :
    ∃ chunk, bytes = chunk ++ more ∧ chunk ≠ [] ∧ step s = .next { s with
      host := dmxFeed chunk s.host
      result := .nothing
      pending := (if more = [] then rest else .wire more :: rest) } := by
  obtain ⟨chunk, hjoin, hne, henc⟩ := decodeWire_ok h
  refine ⟨chunk, hjoin, hne, ?_⟩
  rw [step_request hp, requestedInstr_wireFrame h, exec_wire henc, wireArrives_eq, leftover_wire h]
  split_ifs <;> rfl

/-- Bytes that begin no whole wire frame arrive at HOST all together (R57, R203; log 16). -/
theorem step_wireChunk {e : DecodeError} (hp : s.pending = .wire bytes :: rest) (h : decodeWire bytes = .error e) :
    step s = .next { s with host := dmxFeed bytes s.host, result := .nothing, pending := rest } := by
  obtain ⟨hreq, hleft⟩ := requestedInstr_wire h
  rw [step_request hp, hreq, hleft, exec_dmxFeed_host]
  rfl

end

/-- Settles O59, by whether the presented bytes begin with a whole wire frame. -/
theorem linkBytesReachDemultiplexer : Obligations.LinkBytesReachDemultiplexer := by
  intro s bytes rest hp
  cases h : decodeWire bytes with
  | ok r =>
    obtain ⟨i, more⟩ := r
    obtain ⟨chunk, hjoin, hne, hstep⟩ := step_wireFrame hp h
    exact ⟨chunk, more, hjoin, fun _ => hne, .inl ⟨i, rfl⟩, hstep⟩
  | error e =>
    exact ⟨bytes, [], (List.append_nil bytes).symm, id, .inr ⟨rfl, e, rfl⟩, step_wireChunk hp h⟩

end Sys2Proof.Machine
end

section
/-! PROOFS. The encodings (R80 to R95, R98, R100): what the decoder reads behind each tag, that a well-formed wire frame
is told from the front of any bytes, and that decoding inverts encoding. -/

namespace Sys2Proof

/-! ## Fields of operands -/

/-- The low bits of an operand are what was widened to it (R95). -/
theorem extractLsb'_zeroExtend {m n : Nat} (h : m ≤ n) (v : BitVec m) : (v.zeroExtend n).extractLsb' 0 m = v :=
  (BitVec.extractLsb'_setWidth_of_le (by omega)).trans BitVec.extractLsb'_eq_self

/-- The step index in the operand of `DEC_LOAD` stands above the predictor (R95). -/
theorem decLoad_operand (p : Sample) (i : Byte) :
    ((i ++ p).zeroExtend 32).extractLsb' 0 16 = p ∧ ((i ++ p).zeroExtend 32).extractLsb' 16 8 = i :=
  ⟨(BitVec.extractLsb'_setWidth_of_le (by omega)).trans BitVec.extractLsb'_append_eq_right,
    (BitVec.extractLsb'_setWidth_of_le (by omega)).trans BitVec.extractLsb'_append_eq_left⟩

/-- The two outcomes in the operand of `DEV_INIT` (R95). -/
theorem devInit_operand : ∀ a t : Bool,
    ((BitVec.ofBool t ++ BitVec.ofBool a).zeroExtend 32).getLsbD 0 = a ∧
    ((BitVec.ofBool t ++ BitVec.ofBool a).zeroExtend 32).getLsbD 1 = t := by decide

/-- The samples of `AUD_PACKET` are what its widened operands carry (R98). -/
theorem map_extract_zeroExtend (samples : List Sample) :
    (samples.map (·.zeroExtend 32)).map (·.extractLsb' 0 16) = samples := by
  rw [List.map_map]
  exact List.map_id'' (extractLsb'_zeroExtend (by omega)) samples

/-! ## What stands behind each tag -/

section
variable (r : List Byte)

theorem decodeWire_tagThermal : decodeWire (tagThermal ++ r) = decodeThermal r := rfl

theorem decodeWire_tagAudio : decodeWire (tagAudio ++ r) = decodeAudio r := rfl

theorem decodeWire_tagBtn :
    decodeWire (tagBtn ++ r) = .ok (.frameBtn (splitLine r).1, (splitLine r).2) := rfl

theorem decodeWire_tagDebug :
    decodeWire (tagDebug ++ r) = .ok (.frameDebug (splitLine r).1, (splitLine r).2) := rfl

theorem decodeWire_tagLegacyAA55 : decodeWire (tagLegacyAA55 ++ r) = decodeLegacyAA55 r := rfl

theorem decodeWire_tagLegacyCsv :
    decodeWire (tagLegacyCsv ++ r) = .ok (.frameLegacyCsv (splitLine r).1, (splitLine r).2) := rfl

end

/-! ## The binary frames behind their tags -/

theorem not_append_length_lt {α : Type} {xs : List α} {n : Nat} (h : xs.length = n) (ys : List α) :
    ¬ (xs ++ ys).length < n := by
  rw [List.length_append]
  omega

/-- 768 words are a whole thermal payload (R81, R87). -/
theorem decodeThermal_leWords {words : List U16} (h : words.length = 768) (rest : List Byte) :
    decodeThermal (leWords words ++ rest) = .ok (.frameThermal words, rest) := by
  have hl : (leWords words).length = 1536 := by rw [leWords_length, h]
  rw [decodeThermal, if_neg (not_append_length_lt hl rest), List.take_left' hl, List.drop_left' hl, rdWords_leWords]

/-- The header and 59 bytes are a whole audio frame (R82, R86). -/
theorem decodeAudio_header (seq : U16) (p : Sample) (i : Byte) {payload : List Byte}
    (h : payload.length = Config.payloadBytes) (rest : List Byte) :
    decodeAudio (le16 seq ++ (le16 p ++ (i :: (payload ++ rest)))) = .ok (.frameAudio seq p i payload, rest) := by
  simp only [le16, List.cons_append, List.nil_append, decodeAudio]
  rw [if_neg (not_append_length_lt h rest), rdLE16_le16, rdLE16_le16, List.take_left' h, List.drop_left' h]

/-- A button byte and 1536 bytes are a whole second-generation frame (R92). -/
theorem decodeLegacyAA55_payload (b : Byte) {payload : List Byte} (h : payload.length = 1536) (rest : List Byte) :
    decodeLegacyAA55 (b :: (payload ++ rest)) = .ok (.frameLegacyAA55 b payload, rest) := by
  simp only [decodeLegacyAA55]
  rw [if_neg (not_append_length_lt h rest), List.take_left' h, List.drop_left' h]

/-! ## Wire frames -/

/-- Settles O53: by the row of the instruction, its tag and then its fixed length or its line. -/
theorem wireFramesAreSelfDelimiting : Obligations.WireFramesAreSelfDelimiting := by
  intro i bytes rest hwf henc
  cases i <;> simp only [encode, encodeWord, encodeBulk, Request.wire.injEq, reduceCtorEq] at henc <;> subst henc <;>
    rw [List.append_assoc]
  case frameThermal words =>
    rw [decodeWire_tagThermal]
    exact decodeThermal_leWords (beq_iff_eq.mp hwf) rest
  case frameAudio seq p i payload =>
    rw [decodeWire_tagAudio]
    exact decodeAudio_header seq p i (beq_iff_eq.mp hwf) rest
  case frameBtn line => rw [decodeWire_tagBtn, splitLine_append _ _ (buttonLine_terminated hwf)]
  case frameDebug line => rw [decodeWire_tagDebug, splitLine_append _ _ hwf]
  case frameLegacyAA55 b payload =>
    rw [decodeWire_tagLegacyAA55]
    exact decodeLegacyAA55_payload b (beq_iff_eq.mp hwf) rest
  case frameLegacyCsv line => rw [decodeWire_tagLegacyCsv, splitLine_append _ _ hwf]

/-- A request that presents one whole wire frame decodes to it, and leaves nothing over. -/
theorem decode_wire_of_encode {i : Instr} {bytes : List Byte} (hwf : i.wf = true) (henc : encode i = .wire bytes) :
    decode (encode i) = .ok i ∧ leftover (encode i) = [] := by
  have hdec : decodeWire bytes = .ok (i, []) := by
    rw [← List.append_nil bytes]
    exact wireFramesAreSelfDelimiting i bytes [] hwf henc
  rw [henc, decode, hdec, Machine.leftover_wire hdec]
  exact ⟨rfl, rfl⟩

/-! ## All rows -/

/-- Every request but the link's bytes is taken off whole. -/
theorem leftover_of_not_wire {r : Request} (h : ∀ bytes, r ≠ .wire bytes) : leftover r = [] := by
  cases r with
  | wire bytes => exact absurd rfl (h bytes)
  | _ => rfl

/-- What the decoder reads from the request of an instruction that is no wire frame: the operand's fields, or
nothing. -/
theorem decode_encode_of_not_wire : ∀ i : Instr, i.wf = true → (∀ bytes, encode i ≠ .wire bytes) →
    decode (encode i) = .ok i
  | .encSample .., _, _ | .audPush .., _, _ | .btnPoll .., _, _ | .decNibble .., _, _ | .qDec .., _, _ => by
    simp [encode, encodeWord, decode, decodeCommand, extractLsb'_zeroExtend]
  | .devInit inst a t, _, _ =>
    have ⟨ha, ht⟩ := devInit_operand a t
    congrArg Except.ok (congrArg₂ (Instr.devInit inst) ha ht)
  | .decLoad inst p i, _, _ =>
    have ⟨hp, hi⟩ := decLoad_operand p i
    congrArg Except.ok (congrArg₂ (Instr.decLoad inst) hp hi)
  | .audPacket samples, hwf, _ => by
    rw [encode, decode, operandVector_toList (by simpa [Instr.wf, Config.samplesPerPacket] using hwf),
      map_extract_zeroExtend]
  | .thmFrame temps, hwf, _ => by
    rw [encode, decode, operandVector_toList (by simpa [Instr.wf, Config.thermalPixels] using hwf)]
  | .frameThermal _, _, h | .frameAudio .., _, h | .frameBtn _, _, h | .frameDebug _, _, h | .frameLegacyAA55 .., _, h
  | .frameLegacyCsv _, _, h => absurd rfl (h _)
  | .nop _, _, _ | .encRdstate _, _, _ | .qEnc .., _, _ | .thmPush .., _, _ | .dbgText .., _, _ | .rdDstatus _, _, _
  | .decPacket .., _, _ | .thmDecode .., _, _ | .dmxFeed .., _, _ | .recPacket .., _, _ | .sessionReset _, _, _
  | .rdHstatus _, _, _ | .reserved0A _, _, _ | .reserved0B _, _, _ | .reserved0C _, _, _ | .reserved0D _, _, _
  | .reserved0E _, _, _ | .reserved0F _, _, _ | .reserved19 _, _, _ | .reserved1A _, _, _ | .reserved1B _, _, _
  | .reserved1C _, _, _ | .reserved1D _, _, _ | .reserved1E _, _, _ | .reserved1F _, _, _ | .hwReset _, _, _
  | .txStep, _, _ | .thmZero, _, _ | .adpcmCode _, _, _ => rfl

/-- Settles O52: a wire frame is told from the front of its own bytes, and any other row is read from its operand. -/
theorem decodeInvertsEncode : Obligations.DecodeInvertsEncode := by
  intro i hwf
  by_cases hw : ∃ bytes, encode i = .wire bytes
  · obtain ⟨bytes, henc⟩ := hw
    exact decode_wire_of_encode hwf henc
  · have hne := not_exists.mp hw
    exact ⟨decode_encode_of_not_wire i hwf hne, leftover_of_not_wire hne⟩

end Sys2Proof
end

section
/-! PROOFS. Codes and words as they are presented: the codes that an instance refuses (R97), the fields of the audio
header (R86), requests written out from the tables (R81 to R85, R95), and the word that runs next. -/

namespace Sys2Proof.Machine

/-! ## Refused codes -/

/-- The thirteen reserved codes (R97). -/
def reservedCodes (inst : Inst) : List Instr :=
  [.reserved0A inst, .reserved0B inst, .reserved0C inst, .reserved0D inst, .reserved0E inst, .reserved0F inst,
    .reserved19 inst, .reserved1A inst, .reserved1B inst, .reserved1C inst, .reserved1D inst, .reserved1E inst,
    .reserved1F inst]

/-- Each arm of a reserved code is the same refusal (R97). -/
theorem exec_reserved (inst : Inst) (s : State) :
    ∀ i ∈ reservedCodes inst, exec i s = .next (refusedState inst s) := by
  have harm : ∀ i ∈ reservedCodes inst, exec i s = refuseAt inst s := by
    simp only [reservedCodes, List.forall_mem_cons, List.not_mem_nil, false_implies, implies_true, and_true]
    exact ⟨rfl, rfl, rfl, rfl, rfl, rfl, rfl, rfl, rfl, rfl, rfl, rfl, rfl⟩
  exact fun i hi => (harm i hi).trans (refuseAt_eq inst s)

section
variable {inst : Inst} {op : BitVec 5}

/-- `NOP` is refused by neither instance (R265). -/
theorem codeRefused_nop (h : codeRefused inst op = true) : op.toNat ≠ 0x00 := by
  cases inst <;> simp [codeRefused] at h <;> omega

/-- DEV refuses none of its own codes. -/
theorem codeRefused_devCode (h : codeRefused inst op = true) (hlo : 0x01 ≤ op.toNat) (hhi : op.toNat ≤ 0x09) :
    inst = .host := by
  cases inst with
  | dev => simp [codeRefused] at h; omega
  | host => rfl

/-- HOST refuses none of its own codes. -/
theorem codeRefused_hostCode (h : codeRefused inst op = true) (hlo : 0x10 ≤ op.toNat) (hhi : op.toNat ≤ 0x18) :
    inst = .dev := by
  cases inst with
  | dev => rfl
  | host => simp [codeRefused] at h; omega

end

/-- A refused code, decoded: DEV's on HOST, HOST's on DEV, or a reserved one. The cases are
those of `decodeCommand`, in the order of the codes. -/
theorem exec_decodeCommand_refused {inst : Inst} {op : BitVec 5} (h : codeRefused inst op = true) (din : W32)
    (bulk : List Byte) (s : State) : exec (decodeCommand inst op din bulk) s = .next (refusedState inst s) := by
  have hdev := codeRefused_devCode h
  have hhost := codeRefused_hostCode h
  unfold decodeCommand
  split
  case h_1 hop => exact absurd hop (codeRefused_nop h)
  case h_2 hop | h_3 hop | h_4 hop | h_5 hop | h_6 hop | h_7 hop | h_8 hop | h_9 hop | h_10 hop =>
    obtain rfl := hdev (by omega) (by omega)
    exact refuseAt_eq .host s
  case h_17 hop | h_18 hop | h_19 hop | h_20 hop | h_21 hop | h_22 hop | h_23 hop | h_24 hop | h_25 hop =>
    obtain rfl := hhost (by omega) (by omega)
    exact refuseAt_eq .dev s
  all_goals exact refuseAt_eq inst s

/-- Settles O9: a code that is refused runs as another instance's operation or as a reserved code. -/
theorem refusedCodesOnlySetOpRefused : Obligations.RefusedCodesOnlySetOpRefused :=
  ⟨fun _ _ din bulk s h => ⟨_, rfl, exec_decodeCommand_refused h din bulk s⟩, exec_reserved⟩

/-! ## The audio header -/

/-- The `i16` read from two bytes, the low one first (R10, R86). -/
theorem rdLE16_toInt (b0 b1 : Byte) :
    (rdLE16 b0 b1).toInt =
      (if b0.toNat + 256 * b1.toNat < 32768 then (b0.toNat + 256 * b1.toNat : Int)
        else (b0.toNat + 256 * b1.toNat : Int) - 65536) := by
  rw [BitVec.toInt_eq_toNat_cond, rdLE16_toNat]
  split_ifs <;> omega

/-- Settles O24, from what `RdLE16` reads, as a natural and as an `i16`. -/
theorem headerFieldsAreLittleEndian : Obligations.HeaderFieldsAreLittleEndian :=
  fun _ _ => ⟨rdLE16_toNat _ _, rdLE16_toInt _ _, rfl⟩

/-! ## Presented words -/

/-- Settles O54: each request, decoded by the row of its code or by its tag. -/
theorem decodeReadsEncodingWords : Obligations.DecodeReadsEncodingWords :=
  ⟨rfl, rfl, rfl, rfl, rfl, rfl, rfl⟩

theorem decodeTableWord_some {nbits w : Nat} {i : Instr} (h : decodeTableWord nbits w = some i) :
    decode (tableRequest nbits w) = .ok i := by
  unfold decodeTableWord at h
  split at h
  · next hd => rw [hd, Option.some.inj h]
  · cases h

/-- Settles O56: the word's request stands at the head, and a step runs what the head decodes to. -/
theorem presentedWordRunsNext : Obligations.PresentedWordRunsNext := by
  intro s nbits w i h
  rw [step_request (s := s.withFetchWord nbits w) rfl, requestedInstr_ok (decodeTableWord_some h)]
  rfl

end Sys2Proof.Machine
end

section
/-! PROOFS. Expansions (R98): `DEC_PACKET` as a run of `DEC_NIBBLE` (R133), and the pseudo-operations of DEV, whose last
push offers the one frame (R170 to R177). -/

namespace Sys2Proof.Machine

theorem runSequence_cons {α : Type} {f : α → State → Answer} {x : α} {s t : State} (h : f x s = .next t)
    (xs : List α) : runSequence f (x :: xs) s = runSequence f xs t := by
  rw [runSequence, h]

/-! ## `DEC_PACKET` and its expansion -/

/-- `DEC_NIBBLE` on HOST at a step index in the table (R132). -/
theorem exec_decNibble_host {s : State} (hi : s.host.dec.stepIndex.toNat ≤ 88) (n : Nibble) :
    exec (.decNibble .host n) s = .next { s with
      host := { s.host with dec := (decStep s.host.dec n).1 }
      result := .word ((decStep s.host.dec n).2.zeroExtend 32) } := by
  rw [exec_decNibble, hostOp_host]
  exact runHost_ok (by rw [decNibble_ok hi]; rfl)

/-- One `DEC_NIBBLE` for each code moves the decoder as a run over the codes does. -/
theorem decNibbles_run : ∀ (ns : List Nibble) {s : State}, s.host.dec.stepIndex.toNat ≤ 88 →
    ∃ r, runSequence exec (ns.map (Instr.decNibble .host)) s =
      .next { s with host := { s.host with dec := (decCodes s.host.dec ns).1 }, result := r }
  | [], s, _ => ⟨s.result, rfl⟩
  | n :: ns, s, hi => by
    obtain ⟨r, hr⟩ := decNibbles_run ns (s := { s with
      host := { s.host with dec := (decStep s.host.dec n).1 }
      result := .word ((decStep s.host.dec n).2.zeroExtend 32) }) (nextIndex_le _ _)
    exact ⟨r, (runSequence_cons (exec_decNibble_host hi n) _).trans hr⟩

/-- `DEC_PACKET` of an audio frame with a good step index (R133). -/
theorem exec_decPacket_good {f : List Byte} (hf : isAudioFrame f = true) (hi : (frameStepIndex f).toNat ≤ 88)
    (s : State) : exec (.decPacket .host f) s = .next { s with
      host := { s.host with dec := (frameRun f).1 }, result := .packet (frameSeq f) (frameRun f).2 } := by
  rw [exec_decPacket, hostOp_host]
  exact runHost_ok (by rw [decPacket_good hf hi]; rfl)

/-- `DEC_LOAD` with a good step index (R131). -/
theorem exec_decLoad_good {i : Byte} (hi : i.toNat ≤ 88) (p : Sample) (s : State) :
    exec (.decLoad .host p i) s =
      .next { s with host := { s.host with dec := ⟨p, i.setWidth 7⟩ }, result := .nothing } := by
  rw [exec_decLoad, hostOp_host]
  exact runHost_ok (by rw [decLoad_good hi])

/-- Settles O15: `DEC_LOAD` puts the decoder where the frame's run begins, and the `DEC_NIBBLE`s run it over the
codes. -/
theorem decPacketEqualsItsExpansion : Obligations.DecPacketEqualsItsExpansion := by
  intro s f hf hi
  obtain ⟨r, hr⟩ := decNibbles_run (frameCodes f) (s := { s with
    host := { s.host with dec := ⟨framePredictor f, (frameStepIndex f).setWidth 7⟩ }, result := .nothing })
    (setWidth_index_le hi)
  have hexpansion := (runSequence_cons (exec_decLoad_good hi (framePredictor f) s) _).trans hr
  exact ⟨_, _, exec_decPacket_good hf hi s, frameCodes_length hf, hexpansion, rfl, rfl⟩

/-! ## What offering a frame does -/

/-- A frame offered is at the end of its queue, or dropped with `TXQ_OVF` where the queue is full (R182). -/
theorem emit_eq (src : Src) (frame : List Byte) (d : Dev) :
    (emit src frame d).1 = { d with
      txq := (if (txqOf d.txq src).length < Config.txqDepth src
        then txqWith d.txq src (txqOf d.txq src ++ [frame]) else d.txq)
      dstatus := d.dstatus ||| (if (txqOf d.txq src).length < Config.txqDepth src then 0 else 0x1) } := by
  by_cases hroom : (txqOf d.txq src).length < Config.txqDepth src
  · simp only [emit_room hroom, if_pos hroom, BitVec.ofNat_eq_ofNat, BitVec.or_zero]
  · simp only [emit_full hroom, if_neg hroom]

/-! ## `AUD_PACKET` -/

/-- The decoder fed the encoder's codes moves with the encoder and outputs its predictors (R127). -/
theorem decCodes_encCodes (c : Codec) : ∀ xs : List Sample, decCodes c (encCodes c xs) = (encRun c xs, encTrack c xs)
  | [] => rfl
  | x :: xs => by
    have htail := decCodes_encCodes (encStep c x).1 xs
    rw [encCodes, decCodes, ← encStep_state, htail]
    rfl

theorem execAudPush_eq {s : State} (h : s.dev.halted = false) (hi : s.dev.enc.stepIndex.toNat ≤ 88)
    (hc : s.dev.pkt.count.toNat ≤ 117) (x : Sample) :
    execAudPush .dev x s = .next { s with dev := completePacket (pushed x s.dev), result := .nothing } := by
  rw [execAudPush, devOp_ready h]
  exact runDev_ok (by rw [audPush_eq hi hc]; rfl)

/-- A run of `AUD_PUSH` that fills the packet offers it behind its last sample (R98, R173). -/
theorem audPushes_fill {s : State} {xs : List Sample} (h : s.dev.halted = false)
    (hi : s.dev.enc.stepIndex.toNat ≤ 88) (hlen : s.dev.pkt.count.toNat + xs.length = 118) (hne : xs ≠ []) :
    runSequence (execAudPush .dev) xs s =
      .next { s with dev := completePacket (pushedAll xs s.dev), result := .nothing } := by
  obtain ⟨init, x, rfl⟩ := (List.eq_nil_or_concat' xs).resolve_left hne
  rw [List.length_append, List.length_singleton] at hlen
  obtain ⟨r, hr⟩ := audPushes_mid init s h hi (by omega)
  obtain ⟨henc, hcount, -, hframe, -⟩ := pushedAll_spec init s.dev (by omega)
  rw [runSequence_append _ _ _ _ _ hr, pushedAll_append]
  refine runSequence_cons (execAudPush_eq ?_ ?_ ?_ x) []
  · exact hframe ▸ h
  · exact henc ▸ encRun_index _ hi init
  · exact hcount ▸ (by omega)

/-- The header is captured at the first of a run of samples that begins a packet (R171). -/
theorem pushedAll_header {d : Dev} {xs : List Sample} (hc : d.pkt.count.toNat = 0) (hne : xs ≠ [])
    (hlen : xs.length ≤ 118) :
    (pushedAll xs d).pkt.hdrPredictor = d.enc.predictor ∧
      (pushedAll xs d).pkt.hdrStepIndex = d.enc.stepIndex.zeroExtend 8 := by
  obtain ⟨x, ys, rfl⟩ := List.exists_cons_of_ne_nil hne
  rw [List.length_cons] at hlen
  have hcount := pushed_count (d := d) (by omega) x
  obtain ⟨hpred, hindex⟩ := pushed_header d x
  obtain ⟨-, -, -, -, hkeep, -⟩ := pushedAll_spec ys (pushed x d) (by omega)
  obtain ⟨kpred, kindex⟩ := hkeep (by omega)
  rw [if_pos hc] at hpred hindex
  exact ⟨kpred.trans hpred, kindex.trans hindex⟩

/-- The payload of a whole packet holds the encoder's codes, in order (R88, R172). -/
theorem pushedAll_codes {d : Dev} {xs : List Sample} (hc : d.pkt.count.toNat = 0) (hlen : xs.length = 118) :
    codesOf (pushedAll xs d).pkt.buf.toList = encCodes d.enc xs := by
  obtain ⟨-, -, -, -, -, -, hcodes⟩ := pushedAll_spec xs d (by omega)
  rw [codesOf_eq_map]
  apply List.ext_getElem
  · simp [encCodes_length, hlen]
  · intro i hi hi'
    have hcode := hcodes i (by rwa [encCodes_length] at hi')
    rw [hc, Nat.zero_add, List.getD_eq_getElem _ _ hi'] at hcode
    rw [List.getElem_map, List.getElem_range, hcode]

/-- The frame that a whole packet's samples offer (R174). -/
def packetFrame (xs : List Sample) (d : Dev) : List Byte :=
  mkAudioFrame d.pkt.seq d.enc.predictor (d.enc.stepIndex.zeroExtend 8) (pushedAll xs d).pkt.buf.toList

/-- A step index of 7 bits, widened to the header's byte and read back (R86). -/
theorem zeroExtend_setWidth_index (i : BitVec 7) : (i.zeroExtend 8).setWidth 7 = i :=
  BitVec.setWidth_setWidth_of_le i (by omega)

theorem zeroExtend_index_le {i : BitVec 7} (h : i.toNat ≤ 88) : (i.zeroExtend 8).toNat ≤ 88 := by
  rw [BitVec.zeroExtend, BitVec.toNat_setWidth]
  exact (Nat.mod_le _ _).trans h

/-- What the decoder makes of the frame: the encoder's state and its predictors (R127). -/
theorem frameRun_packetFrame {d : Dev} {xs : List Sample} (hc : d.pkt.count.toNat = 0) (hlen : xs.length = 118) :
    frameRun (packetFrame xs d) = (encRun d.enc xs, encTrack d.enc xs) := by
  obtain ⟨-, -, hpred, hindex, hcodes⟩ := mkAudioFrame_fields d.pkt.seq d.enc.predictor
    (d.enc.stepIndex.zeroExtend 8) (buf := (pushedAll xs d).pkt.buf.toList) (by simp)
  rw [frameRun, packetFrame, hpred, hindex, hcodes, zeroExtend_setWidth_index, pushedAll_codes hc hlen,
    decCodes_encCodes]

/-- DEV behind a whole packet's samples: the frame is offered, and the next packet starts (R173). -/
theorem completePacket_pushedAll {d : Dev} {xs : List Sample} (hc : d.pkt.count.toNat = 0) (hlen : xs.length = 118) :
    completePacket (pushedAll xs d) = { (emit .aud (packetFrame xs d) d).1 with
      enc := encRun d.enc xs
      pkt := { (pushedAll xs d).pkt with seq := d.pkt.seq + 1, count := 0 } } := by
  obtain ⟨henc, hcount, hseq, hframe, -⟩ := pushedAll_spec xs d (by omega)
  obtain ⟨hpred, hindex⟩ := pushedAll_header hc (List.ne_nil_of_length_eq_add_one hlen) hlen.le
  rw [completePacket_end (by omega), hpred, hindex, hseq, ← packetFrame, emit_eq, emit_eq, ← henc, hframe]

/-- Settles O18: the 118 pushes fill the packet, the last one offers its frame, and the decoder's run over the frame is
the encoder's over the samples. -/
theorem audioPacketDecodesToEncoderTrack : Obligations.AudioPacketDecodesToEncoderTrack := by
  intro s h samples hlen hready hi hc
  have hzero : s.dev.pkt.count.toNat = 0 := (count_eq_zero s.dev).mp hc
  have hpush := audPushes_fill hready hi (by omega) (List.ne_nil_of_length_eq_add_one hlen)
  rw [completePacket_pushedAll hzero hlen, emit_eq] at hpush
  obtain ⟨hframe, hseq, -, hindex, -⟩ := mkAudioFrame_fields s.dev.pkt.seq s.dev.enc.predictor
    (s.dev.enc.stepIndex.zeroExtend 8) (buf := (pushedAll samples s.dev).pkt.buf.toList) (by simp)
  have hdec := exec_decPacket_good (f := packetFrame samples s.dev) hframe (hindex ▸ zeroExtend_index_le hi) h
  rw [frameRun_packetFrame hzero hlen] at hdec
  refine ⟨_, _, packetFrame samples s.dev, hpush, ?_, rfl, rfl, rfl, rfl, hdec, rfl,
    congrArg (Result.packet · _) hseq⟩
  by_cases hroom : s.dev.txq.aud.length < Config.txqDepth .aud <;> simp [txqOf, txqWith, hroom]

/-! ## `THM_FRAME` and `THM_ZERO` -/

theorem execThmPush_eq {s : State} (h : s.dev.halted = false) (hc : s.dev.thf.count.toNat ≤ 767) (b : F32) :
    execThmPush .dev b s = .next { s with dev := completeThermal (stored b s.dev), result := .nothing } := by
  rw [execThmPush, devOp_ready h]
  exact runDev_ok (by rw [thmPush_eq hc]; rfl)

/-- A run of `THM_PUSH` that fills the frame offers it behind its last pixel (R98, R176). -/
theorem thmPushes_fill {s : State} {xs : List F32} (h : s.dev.halted = false)
    (hlen : s.dev.thf.count.toNat + xs.length = 768) (hne : xs ≠ []) :
    runSequence (execThmPush .dev) xs s =
      .next { s with dev := completeThermal (storedAll xs s.dev), result := .nothing } := by
  obtain ⟨init, x, rfl⟩ := (List.eq_nil_or_concat' xs).resolve_left hne
  rw [List.length_append, List.length_singleton] at hlen
  obtain ⟨r, hr⟩ := thmPushes_mid init s h (by omega)
  obtain ⟨hcount, -, hframe, -⟩ := storedAll_spec init s.dev (by omega)
  rw [runSequence_append _ _ _ _ _ hr, storedAll_append]
  refine runSequence_cons (execThmPush_eq ?_ ?_ x) []
  · exact hframe ▸ h
  · exact hcount ▸ (by omega)

/-- The words that a frame's pixels leave in the builder. -/
def pixelWords (temps : List F32) (d : Dev) : List U16 := (storedAll temps d).thf.words.toList

/-- DEV behind a frame's pixels: `Q_NAN` where a NaN was among them, the frame offered, and the next one started
(R153, R176). -/
theorem completeThermal_storedAll {d : Dev} {temps : List F32} (hc : d.thf.count.toNat = 0)
    (hlen : temps.length = 768) :
    completeThermal (storedAll temps d) =
      { (emit .thm (mkThermalFrame (pixelWords temps d))
          { d with dstatus := d.dstatus ||| (if ∃ b ∈ temps, quant b = none then 0x2 else 0) }).1 with
        thf := { (storedAll temps d).thf with count := 0 }
        draws := (storedAll temps d).draws } := by
  obtain ⟨hcount, hdstatus, hframe, -⟩ := storedAll_spec temps d (by omega)
  rw [completeThermal_end (by omega), ← pixelWords, emit_eq, emit_eq, ← hdstatus, hframe]

/-- The words of a frame's pixels: `Q_ENC` of each, and some word of 0..400 for a NaN (R150, R153). -/
theorem pixelWords_spec {d : Dev} {temps : List F32} (hc : d.thf.count.toNat = 0) (hlen : temps.length = 768) (k : Nat)
    (hk : k < 768) : ((pixelWords temps d).getD k 0).toNat ≤ 400 ∧
      ∀ v, quant (temps.getD k 0) = some v → (pixelWords temps d).getD k 0 = v := by
  obtain ⟨-, -, -, -, -, hwords⟩ := storedAll_spec temps d (by omega)
  have hword := hwords k (by omega)
  rwa [hc, Nat.zero_add] at hword

theorem pixelWords_length (temps : List F32) (d : Dev) : (pixelWords temps d).length = 768 := Vector.length_toList

theorem quant_zero : quant 0 = some 0 := by decide

/-- The pixels of `THM_ZERO` (R177). -/
abbrev zeroPixels : List F32 := List.replicate 768 0

/-- `THM_ZERO` fills the frame with zero words (R177). -/
theorem pixelWords_zero {d : Dev} (hc : d.thf.count.toNat = 0) :
    pixelWords zeroPixels d = List.replicate 768 0 := by
  apply List.ext_getElem
  · rw [pixelWords_length, List.length_replicate]
  · intro k hk hk'
    have hk768 : k < 768 := pixelWords_length zeroPixels d ▸ hk
    obtain ⟨-, hword⟩ := pixelWords_spec hc List.length_replicate k hk768
    rw [← List.getD_eq_getElem _ 0 hk, List.getElem_replicate]
    exact hword 0 (by rw [List.getD_replicate _ hk768, quant_zero])

/-- The frame of `THM_ZERO`: its marker and 1536 zero bytes (R177). -/
theorem mkThermalFrame_zero :
    mkThermalFrame (List.replicate 768 0) = [(0xCA : Byte), 0x01] ++ List.replicate 1536 0 := by
  rw [mkThermalFrame, leWords_replicate]
  rfl

theorem zeroPixels_quant : ∀ b ∈ zeroPixels, quant b ≠ none := by
  intro b hb
  rw [List.eq_of_mem_replicate hb, quant_zero]
  exact Option.some_ne_none 0

/-- Settles O27: the 768 pushes fill the frame, and the last one offers it; zeros are no NaN and give zero words. -/
theorem thermalPseudoOpsEmitOneFrame : Obligations.ThermalPseudoOpsEmitOneFrame := by
  intro s temps hready hc hlen
  have hzero : s.dev.thf.count.toNat = 0 := by rw [hc]; rfl
  have hfill (xs : List F32) (hxs : xs.length = 768) :=
    thmPushes_fill (xs := xs) hready (by omega) (List.ne_nil_of_length_eq_add_one hxs)
  constructor
  · have hpush := hfill temps hlen
    rw [completeThermal_storedAll hzero hlen, emit_eq] at hpush
    refine ⟨_, pixelWords temps s.dev, hpush, pixelWords_length _ _, pixelWords_spec hzero hlen, ?_, rfl, rfl, rfl⟩
    by_cases hroom : s.dev.txq.thm.length < Config.txqDepth .thm <;> simp [txqOf, txqWith, hroom]
  · have hpush := hfill zeroPixels List.length_replicate
    obtain ⟨-, -, -, hdraws, -⟩ := storedAll_spec zeroPixels s.dev (by rw [List.length_replicate]; omega)
    have hnan : ¬ ∃ b ∈ zeroPixels, quant b = none := fun ⟨b, hb, hq⟩ => zeroPixels_quant b hb hq
    rw [completeThermal_storedAll hzero List.length_replicate, emit_eq, if_neg hnan, pixelWords_zero hzero,
      mkThermalFrame_zero, hdraws zeroPixels_quant] at hpush
    refine ⟨_, hpush, ?_, rfl, rfl⟩
    by_cases hroom : s.dev.txq.thm.length < Config.txqDepth .thm <;>
      simp only [txqOf, txqWith, hroom, if_true, if_false, BitVec.ofNat_eq_ofNat, BitVec.or_zero, and_self]

end Sys2Proof.Machine
end

section
/-! PROOFS. Frames that arrive at HOST with an empty buffer (R203 to R210; log 13): one whole frame or line is one scan
item, and bytes without a start pattern are discarded one by one. -/

namespace Sys2Proof.Machine

/-! ## One item at the front of the bytes -/

/-- A binary frame of its fixed length stands whole in front of whatever follows it (R205). -/
theorem scanItem_frame {t : Byte} {tl : List Byte} (h : frameLen t = some (Config.sync :: t :: tl).length)
    (rest : List Byte) : scanItem (Config.sync :: t :: tl ++ rest) = .frame (Config.sync :: t :: tl) rest := by
  simp only [List.cons_append, scanItem, if_true, h, takeExactly_eq]
  simp

/-- A line begun by `b` or `d` stands whole in front of whatever follows its terminator (R206). -/
theorem scanItem_line {c : Byte} {line : List Byte} (hc : c = 0x62 ∨ c = 0x64) (hn : (0x0A : Byte) ∉ c :: line)
    (rest : List Byte) : scanItem (c :: line ++ 0x0A :: rest) = .line (c :: line) rest := by
  have hsync : c ≠ Config.sync := by rcases hc with rfl | rfl <;> decide
  have hline := takeLine_append (c :: line) rest hn
  rw [List.cons_append] at hline ⊢
  simp only [scanItem, if_neg hsync, if_pos hc, hline]

/-- A byte other than `CA`, `62` and `64` begins no start pattern (R201, R204). -/
theorem scanItem_discard {c : Byte} (hsync : c ≠ Config.sync) (hb : c ≠ 0x62) (hd : c ≠ 0x64) (rest : List Byte) :
    scanItem (c :: rest) = .discard rest := by
  simp only [scanItem, if_neg hsync, if_neg (not_or.mpr ⟨hb, hd⟩)]

/-- The front byte of bytes that hold no start pattern and do not end in a lone `CA` is discarded, and the rest is like
them (R204, R215). -/
theorem scanItem_noStart {c : Byte} {rest : List Byte} (h : noStart (c :: rest) = true)
    (hlast : (c :: rest).getLast? ≠ some Config.sync) :
    scanItem (c :: rest) = .discard rest ∧ noStart rest = true ∧ rest.getLast? ≠ some Config.sync := by
  cases rest with
  | nil =>
    simp only [noStart, Bool.and_eq_true, bne_iff_ne] at h
    exact ⟨scanItem_discard (fun hc => hlast (congrArg some hc)) h.1 h.2 [], rfl, nofun⟩
  | cons t rest =>
    simp only [noStart, Bool.and_eq_true, bne_iff_ne, Bool.not_eq_true', Bool.and_eq_false_iff, beq_eq_false_iff_ne,
      Option.isSome_eq_false_iff, Option.isNone_iff_eq_none] at h
    obtain ⟨⟨⟨hb, hd⟩, hstart⟩, hrest⟩ := h
    rw [List.getLast?_cons_cons] at hlast
    refine ⟨?_, hrest, hlast⟩
    by_cases hsync : c = Config.sync
    · have hlen := hstart.resolve_left (not_not_intro hsync)
      simp only [scanItem, if_pos hsync, hlen]
    · exact scanItem_discard hsync hb hd _

/-! ## Whole feeds into an empty buffer -/

/-- A scan that takes all the bytes of a chunk is all that the feed does (R203). -/
theorem dmxFeed_clears {bs : List Byte} {g g' : Hst} (hbuf : g.dmxBuf = []) (hs : scan bs.length bs g = ([], g')) :
    dmxFeed bs g = g' := by
  have hg : { g with dmxBuf := [] } = g := by rw [← hbuf]
  have hcarry := scan_atBuf bs.length bs g []
  rw [hg, hs] at hcarry
  have hfit : feedOverflows bs g = false := by
    rw [Bool.eq_false_iff, ne_eq, feedOverflows_iff, hbuf, List.nil_append, hs]
    exact Nat.not_lt_zero _
  rw [dmxFeed_once hfit, hbuf, List.nil_append, hs]
  exact (Prod.mk.inj hcarry).2.symm

/-- A chunk that is one scan item has that item's effect. -/
theorem dmxFeed_item {bs : List Byte} {g : Hst} (hbuf : g.dmxBuf = []) (hrest : scanRest (scanItem bs) = some []) :
    dmxFeed bs g = scanEffect g (scanItem bs) := by
  refine dmxFeed_clears hbuf ?_
  obtain ⟨n, hn⟩ : ∃ n, bs.length = n + 1 :=
    Nat.exists_eq_add_one.mpr (Nat.zero_lt_of_lt (scanItem_shorter hrest))
  rw [hn, scan_succ, hrest]
  exact scan_wait rfl n _

/-- A whole binary frame is dispatched (R205). -/
theorem dmxFeed_frame {t : Byte} {tl : List Byte} {g : Hst} (hbuf : g.dmxBuf = [])
    (h : frameLen t = some (Config.sync :: t :: tl).length) :
    dmxFeed (Config.sync :: t :: tl) g = dispatch (Config.sync :: t :: tl) g := by
  have hitem := scanItem_frame h []
  rw [List.append_nil] at hitem
  rw [dmxFeed_item hbuf (by rw [hitem]; rfl), hitem]
  rfl

/-- A whole line is dispatched without its terminator (R206, R207). -/
theorem dmxFeed_line {c : Byte} {line : List Byte} {g : Hst} (hbuf : g.dmxBuf = []) (hc : c = 0x62 ∨ c = 0x64)
    (hn : (0x0A : Byte) ∉ c :: line) : dmxFeed (c :: line ++ [0x0A]) g = dispatchText (c :: line) g := by
  have hitem := scanItem_line hc hn []
  rw [dmxFeed_item hbuf (by rw [hitem]; rfl), hitem]
  rfl

/-- Discarding again records nothing more. -/
theorem raiseHost_idem (e : HostFault) (g : Hst) : raiseHost e (raiseHost e g) = raiseHost e g :=
  congrArg (fun w => { g with hstatus := w }) (setBit_idem g.hstatus (hstatusBit e))

/-- Bytes that hold no start pattern and do not end in a lone `CA` are all discarded (R204, R215). -/
theorem scan_noStart : ∀ (bs : List Byte) (g : Hst), noStart bs = true → bs.getLast? ≠ some Config.sync →
    bs ≠ [] → scan bs.length bs g = ([], raiseHost .dmxDiscard g)
  | [], _, _, _, hne => absurd rfl hne
  | c :: rest, g, h, hlast, _ => by
    obtain ⟨hitem, hrest, hlast'⟩ := scanItem_noStart h hlast
    rw [List.length_cons, scan_succ, hitem]
    by_cases hne : rest = []
    · subst hne
      rfl
    · have htail := scan_noStart rest (raiseHost .dmxDiscard g) hrest hlast' hne
      rwa [raiseHost_idem] at htail

/-! ## Text lines -/

/-- A digit of `0`..`2` behind the button tag is a button event (R83, R89). -/
theorem dispatchText_btn {v : BitVec 2} (hv : v ≠ 3) (g : Hst) :
    dispatchText (tagBtn ++ [0x30 + v.zeroExtend 8]) g = deliver (.button v) g := by
  have hparse : ∀ v : BitVec 2, v ≠ 3 → parseLine (tagBtn ++ [0x30 + v.zeroExtend 8]) = .button v := by decide
  rw [dispatchText, hparse v hv]

/-- Whatever stands behind the debug tag is a debug text (R84, R89). -/
theorem dispatchText_debug (text : List Byte) (g : Hst) :
    dispatchText (tagDebug ++ text) g = deliver (.debug text) g := rfl

/-- A first-generation line is malformed (R89, R93). -/
theorem dispatchText_legacyCsv (text : List Byte) (g : Hst) :
    dispatchText (tagLegacyCsv ++ text) g = raiseHost .textMalformed g := rfl

/-- A line begun by `b` or `d` that arrives at an empty buffer is dispatched (R203, R207; log 13). -/
theorem wireArrives_line {c : Byte} {line : List Byte} {s : State} (hbuf : s.host.dmxBuf = [])
    (hc : c = 0x62 ∨ c = 0x64) (hn : (0x0A : Byte) ∉ c :: line) {g : Hst}
    (hg : dispatchText (c :: line) s.host = g) :
    wireArrives (c :: line ++ [0x0A]) s = .next { s with host := g, result := .nothing } := by
  rw [wireArrives_eq, dmxFeed_line hbuf hc hn, hg]

theorem not_mem_tag_append {tag text : List Byte} (htag : (0x0A : Byte) ∉ tag) (htext : (0x0A : Byte) ∉ text) :
    (0x0A : Byte) ∉ tag ++ text := fun h => (List.mem_append.mp h).elim htag htext

/-- The digits are no line feed (R83). -/
theorem digit_ne_lineFeed : ∀ v : BitVec 2, (0x0A : Byte) ∉ [0x30 + v.zeroExtend 8] := by decide

/-- Settles O43: each line is one scan item, dispatched by what it parses as. -/
theorem textFramesArriveAsLines : Obligations.TextFramesArriveAsLines := by
  intro s v text hbuf hv ht
  have hbtn := not_mem_tag_append (tag := tagBtn) (by decide) (digit_ne_lineFeed v)
  have hdebug := not_mem_tag_append (tag := tagDebug) (by decide) ht
  have hcsv := not_mem_tag_append (tag := tagLegacyCsv) (by decide) ht
  exact ⟨wireArrives_line hbuf (.inl rfl) hbtn (dispatchText_btn hv s.host),
    wireArrives_line hbuf (.inr rfl) hdebug (dispatchText_debug text s.host),
    wireArrives_line hbuf (.inr rfl) hcsv (dispatchText_legacyCsv text s.host)⟩

/-! ## Binary frames -/

/-- A thermal frame that arrives at an empty buffer is delivered decoded (R205, R210). -/
theorem dmxFeed_thermal {words : List U16} (h : words.length = 768) {g : Hst} (hbuf : g.dmxBuf = []) :
    dmxFeed (mkThermalFrame words) g = deliver (.thermal (words.map qDec)) g := by
  obtain ⟨hframe, hwords⟩ := mkThermalFrame_fields h
  refine (dmxFeed_frame (t := Config.typeThermal) hbuf (congrArg some (isThermalFrame_length hframe).symm)).trans ?_
  exact (dispatch_thermal hframe g).trans (by rw [hwords])

/-- An audio frame that arrives at an empty buffer goes to `REC_PACKET` (R205, R210). -/
theorem dmxFeed_audio {seq : U16} {p : Sample} {i : Byte} {payload : List Byte} (h : payload.length = 59) {g : Hst}
    (hbuf : g.dmxBuf = []) :
    dmxFeed (mkAudioFrame seq p i payload) g = recPacket (mkAudioFrame seq p i payload) g := by
  obtain ⟨hframe, -⟩ := mkAudioFrame_fields seq p i h
  exact (dmxFeed_frame (t := Config.typeAudio) hbuf (congrArg some (isAudioFrame_length hframe).symm)).trans
    (dispatch_audio hframe g)

/-! ## Second-generation frames -/

/-- The repeat loop keeps the bits of the status word (R296). -/
theorem feedLoop_bitsStay (bound fuel : Nat) (bs : List Byte) (g : Hst) :
    BitsStay g.hstatus (feedLoop bound fuel bs g).hstatus :=
  feedLoop_keeps (P := fun k => BitsStay g.hstatus k.hstatus) bound (fun _ _ h => h)
    (fun k h => h.trans (raiseHost_bitsStay _ k)) (fun k h => h.trans (raiseHost_bitsStay _ k))
    (fun f k h => h.trans (dispatch_bitsStay f k)) (fun l k h => h.trans (dispatchText_bitsStay l k)) _ _ _ (.refl _)

/-- A feed whose first byte begins no start pattern goes on behind it with `DMX_DISC` set (R204). -/
theorem feedLoop_discard {c : Byte} {rest : List Byte} (h : scanItem (c :: rest) = .discard rest) (bound fuel : Nat)
    (g : Hst) : feedLoop bound (fuel + 1) (c :: rest) g = feedLoop bound (fuel + 1) rest (raiseHost .dmxDiscard g) := by
  have hscan : scan (c :: rest).length (c :: rest) g = scan rest.length rest (raiseHost .dmxDiscard g) := by
    rw [List.length_cons, scan_succ, h]
    rfl
  simp only [feedLoop, hscan]

theorem raiseHost_discard (g : Hst) : hstatusHas (raiseHost .dmxDiscard g).hstatus .dmxDiscard = true := by
  simp [hstatusHas, hstatusBit]

/-- A bit that is set stays recorded where the bits stay (R296). -/
theorem BitsStay.hstatusHas {w v : BitVec 16} (h : BitsStay w v) {e : HostFault} (hw : hstatusHas w e = true) :
    hstatusHas v e = true := by
  unfold Machine.hstatusHas at *
  rw [← h, BitVec.getLsbD_and, Bool.and_eq_true] at hw
  exact hw.2

/-- A feed into an empty buffer that begins with no start pattern records the discard (R204). -/
theorem dmxFeed_discards {c : Byte} {rest : List Byte} {g : Hst} (hbuf : g.dmxBuf = [])
    (h : scanItem (c :: rest) = .discard rest) : hstatusHas (dmxFeed (c :: rest) g).hstatus .dmxDiscard = true := by
  rw [dmxFeed, dmxFeedWith, hbuf, List.nil_append, feedLoop_discard h]
  exact (feedLoop_bitsStay _ _ _ _).hstatusHas (raiseHost_discard g)

/-- The marker `AA 55` begins no start pattern and holds none (R92, R94). -/
theorem noStart_tagLegacyAA55 {bs : List Byte} (h : noStart bs = true) : noStart (tagLegacyAA55 ++ bs) = true := by
  cases bs <;> simp [tagLegacyAA55, noStart, Config.sync, h]

/-- Settles O44: the first two kinds are one scan item each; the third begins with a byte that is discarded, as are the
others where they hold no start pattern. -/
theorem binaryFramesArriveWhole : Obligations.BinaryFramesArriveWhole := by
  intro s hbuf
  refine ⟨fun words h => ?_, fun seq p i payload h => ?_, fun b payload => ⟨?_, fun hstart hlast => ?_⟩⟩
  · exact (wireArrives_eq _ s).trans (by rw [← mkThermalFrame, dmxFeed_thermal h hbuf]; rfl)
  · obtain ⟨hframe, hseq, hpred, hindex, -⟩ := mkAudioFrame_fields seq p i h
    refine ⟨mkAudioFrame seq p i payload, rfl, hframe, hseq, hpred, hindex, ?_⟩
    exact (wireArrives_eq _ s).trans (by rw [← mkAudioFrame, dmxFeed_audio h hbuf])
  · exact ⟨_, wireArrives_eq _ s, dmxFeed_discards hbuf (scanItem_discard (by decide) (by decide) (by decide) _)⟩
  · have hlast' : (tagLegacyAA55 ++ b :: payload).getLast? ≠ some Config.sync := by
      rwa [List.getLast?_append_of_ne_nil _ (List.cons_ne_nil b payload)]
    have hscan := scan_noStart (tagLegacyAA55 ++ b :: payload) s.host (noStart_tagLegacyAA55 hstart) hlast' nofun
    exact (wireArrives_eq _ s).trans (by rw [dmxFeed_clears hbuf hscan]; rfl)

end Sys2Proof.Machine
end

section
/-! PROOFS. The codec (R120 to R134): the arithmetic of one update, the greedy code of a difference, what each operation
of the unit answers, and the lock step of encoder and decoder. -/

namespace Sys2Proof.Machine

/-! ## The arithmetic of one update -/

/-- The sum that `ApplyDelta` saturates, before saturation: at most the largest delta beyond the range of a sample
(R122, R123). -/
theorem predictorSum_bounds (p : Sample) (n : Nibble) {step : Nat} (h : step ≤ 32767) :
    -94204 ≤ (if n.getLsbD 3 then p.toInt - deltaSpec n step else p.toInt + deltaSpec n step) ∧
      (if n.getLsbD 3 then p.toInt - deltaSpec n step else p.toInt + deltaSpec n step) ≤ 94203 := by
  have hdelta := deltaSpec_le n h
  have hlo : -32768 ≤ p.toInt := p.le_toInt
  have hhi : p.toInt < 32768 := p.toInt_lt
  split_ifs <;> omega

/-- Settles O10: the model's update is that of the integers by the laws of the codec, and the tables bound the sums. -/
theorem codecUpdateArithmetic : Obligations.CodecUpdateArithmetic := by
  intro p i n step hstep hi v x
  obtain ⟨hlo, hhi⟩ := predictorSum_bounds p n hstep
  obtain ⟨hdown, hup⟩ : -1 ≤ Config.indexTable.getD n.toNat 0 ∧ Config.indexTable.getD n.toNat 0 ≤ 8 :=
    indexTable_bounds n
  exact ⟨deltaOf_eq n step, deltaSpec_le n hstep, rfl, rfl, hlo, hhi, applyDelta_toInt p n step,
    by omega, by omega, nextIndex_toNat i n⟩

/-! ## The greedy code -/

/-- What is left of a magnitude behind its comparison with a part of the step (R126). -/
def reduced (a part : Nat) : Nat := if part ≤ a then a - part else a

/-- The bits of a difference's code: its sign, and its magnitude against the step, half and a quarter of it (R126). -/
theorem quantize_bits (diff : Int) (step : Nat) :
    (quantize diff step).getLsbD 3 = decide (diff < 0) ∧
    (quantize diff step).getLsbD 2 = decide (step ≤ diff.natAbs) ∧
    (quantize diff step).getLsbD 1 = decide (step / 2 ≤ reduced diff.natAbs step) ∧
    (quantize diff step).getLsbD 0 = decide (step / 4 ≤ reduced (reduced diff.natAbs step) (step / 2)) := by
  simp only [quantize, Nat.shiftRight_eq_div_pow]
  exact codeOfBits_bits _ _ _ _

/-- The encoder's code is that of the exact difference (R126). -/
theorem encStep_code (c : Codec) (x : Sample) :
    (encStep c x).2 = quantize (x.toInt - c.predictor.toInt) (stepAt c.stepIndex) := rfl

/-- A sample or a code on `dout` stands below zero bits (R95). -/
theorem zeroExtend_eq_append {m : Nat} (v : BitVec m) (k : Nat) :
    v.zeroExtend (k + m) = 0#k ++ v := by
  apply BitVec.eq_of_toNat_eq
  rw [BitVec.zeroExtend, BitVec.toNat_setWidth_of_le (Nat.le_add_left m k), BitVec.toNat_append]
  simp

/-- `ENC_SAMPLE` on a DEV that runs, at a step index in the table (R128). -/
theorem exec_encSample_ready {s : State} (h : s.dev.halted = false) (hi : s.dev.enc.stepIndex.toNat ≤ 88)
    (pcm : Sample) : exec (.encSample .dev pcm) s = .next { s with
      dev := { s.dev with enc := (encStep s.dev.enc pcm).1 }
      result := .word ((encStep s.dev.enc pcm).2.zeroExtend 32) } := by
  rw [exec_encSample, devOp_ready h]
  exact runDev_ok (by rw [encSample_ok hi]; rfl)

/-- Settles O11: the code is `quantize` of the difference, whose sign bit is the sign by which the delta is applied, and
the state moves by that code as a decoder's would. -/
theorem encSampleEmitsGreedyCode : Obligations.EncSampleEmitsGreedyCode := by
  intro s pcm hready hi
  obtain ⟨hsign, hwhole, hhalf, hquarter⟩ :=
    quantize_bits (pcm.toInt - s.dev.enc.predictor.toInt) (stepAt s.dev.enc.stepIndex)
  rw [← encStep_code] at hsign hwhole hhalf hquarter
  have hrun := exec_encSample_ready hready hi pcm
  rw [zeroExtend_eq_append _ 28] at hrun
  have hpred := applyDelta_toInt s.dev.enc.predictor (encStep s.dev.enc pcm).2 (stepAt s.dev.enc.stepIndex)
  simp only [hsign, decide_eq_true_eq] at hpred
  exact ⟨_, _, hrun, hsign, hwhole, hhalf, hquarter, hpred, nextIndex_toNat _ _⟩

/-! ## The decoder's operations -/

/-- One `ADPCM_CODE` decodes as `DEC_NIBBLE` on HOST does (R85; log 13). -/
theorem exec_adpcmCode_eq_decNibble (n : Nibble) (s : State) :
    exec (.adpcmCode n) s = exec (.decNibble .host n) s := rfl

/-- Settles O12: both run `DecStep`, whose output is the new predictor. -/
theorem decodersApplyTheCode : Obligations.DecodersApplyTheCode := by
  intro s n hi
  have hrun := exec_decNibble_host hi n
  rw [decStep_sample, zeroExtend_eq_append _ 16] at hrun
  exact ⟨_, hrun, (exec_adpcmCode_eq_decNibble n s).trans hrun, applyDelta_toInt _ _ _, nextIndex_toNat _ _⟩

/-- `DEC_LOAD` with a step index outside the table (R131). -/
theorem exec_decLoad_bad {i : Byte} (hi : 88 < i.toNat) (p : Sample) (s : State) :
    exec (.decLoad .host p i) s =
      .next { s with host := raiseHost .badStepIndex s.host, result := .nothing } := by
  rw [exec_decLoad, hostOp_host]
  exact runHost_ok (by rw [decLoad_bad hi])

/-- Settles O13: the two cases of `DEC_LOAD`; an index in the table fits 7 bits. -/
theorem decLoadChecksStepIndex : Obligations.DecLoadChecksStepIndex := by
  refine ⟨fun din bulk => rfl, fun s p i => ⟨fun hi => ⟨i.setWidth 7, ?_, exec_decLoad_good hi p s⟩,
    fun hi => exec_decLoad_bad hi p s⟩⟩
  rw [BitVec.toNat_setWidth, Nat.mod_eq_of_lt (by omega)]

/-! ## `DEC_PACKET` -/

/-- `DEC_PACKET` on HOST completes whatever its operand is (R133). -/
theorem exec_decPacket_host (f : List Byte) (s : State) :
    exec (.decPacket .host f) s =
      .next { s with host := (decPacket f s.host).1, result := packetResult (decPacket f s.host).2 } := by
  rw [exec_decPacket, hostOp_host]
  exact runHost_ok rfl

/-- The decoder ends a frame at the last sample it returns (R133). -/
theorem frameRun_predictor {f : List Byte} (hf : isAudioFrame f = true) :
    (frameRun f).1.predictor = (frameRun f).2.getD 117 0 := by
  have hlen : (frameRun f).2.length = 118 := frameRun_length hf
  have hlast : (frameRun f).2.getLast? = (frameRun f).2[117]? := by rw [List.getLast?_eq_getElem?, hlen]
  rw [frameRun, decCodes_predictor, ← frameRun, hlast, List.getD_eq_getElem?_getD,
    List.getElem?_eq_getElem (by omega), Option.getD_some, Option.getD_some]

/-- Settles O14: the three cases of `DEC_PACKET`; an audio frame carries one sample for each of its 118 codes. -/
theorem decPacketDecodesFromHeader : Obligations.DecPacketDecodesFromHeader := by
  intro s f
  refine ⟨fun hf hi => ?_, fun hf hi => ?_, fun hf => ?_⟩
  · exact ⟨(frameRun f).2, frameRun_length hf, rfl, exec_decPacket_good hf hi s, frameRun_predictor hf⟩
  · rw [exec_decPacket_host, decPacket_bad hf hi]
    rfl
  · rw [exec_decPacket_host, decPacket_other hf]
    rfl

/-- What `DEC_PACKET` of an audio frame returns, the state of HOST left out (R133, R134). -/
theorem decPacket_snd {f : List Byte} (hf : isAudioFrame f = true) (g : Hst) :
    (decPacket f g).2 =
      if (frameStepIndex f).toNat ≤ 88 then some (frameSeq f, (frameRun f).2) else none := by
  split_ifs with hi
  · rw [decPacket_good hf hi, frameRun]
  · rw [decPacket_bad hf (Nat.lt_of_not_le hi)]

/-- Settles O16: either run returns what `decPacket_snd` says, which does not mention HOST. -/
theorem decPacketIgnoresHostState : Obligations.DecPacketIgnoresHostState := by
  intro s1 s2 t1 t2 f hf h1 h2
  rw [exec_decPacket_host, decPacket_snd hf] at h1 h2
  cases h1
  cases h2
  rfl

/-! ## Encoder and decoder -/

/-- A decoder fed the encoder's code moves as the encoder did and outputs its predictor (R127). -/
theorem decStep_encStep (c : Codec) (x : Sample) :
    decStep c (encStep c x).2 = ((encStep c x).1, (encStep c x).1.predictor) :=
  Prod.ext (encStep_state c x).symm (decStep_sample c _)

/-- Settles O17: one step by `decStep_encStep`, a run of samples by the run of their codes. -/
theorem encoderDecoderLockStep : Obligations.EncoderDecoderLockStep :=
  ⟨decStep_encStep, decCodes_encCodes⟩

/-! ## `ENC_RDSTATE` -/

/-- The fields of the word that `ENC_RDSTATE` returns (R129). -/
theorem rdstateWord_fields (c : Codec) :
    (rdstateWord c).extractLsb' 0 16 = c.predictor ∧
    ((rdstateWord c).extractLsb' 16 8).toNat = c.stepIndex.toNat ∧
    (rdstateWord c).extractLsb' 24 8 = 0 := by
  have hp := c.predictor.isLt
  have hi := c.stepIndex.isLt
  have hword : (rdstateWord c).toNat = c.stepIndex.toNat * 65536 + c.predictor.toNat := by
    rw [rdstateWord, BitVec.toNat_append, ← Nat.shiftLeft_add_eq_or_of_lt hp, Nat.shiftLeft_eq, BitVec.zeroExtend,
      BitVec.toNat_setWidth_of_le (by omega)]
  refine ⟨BitVec.eq_of_toNat_eq ?_, ?_, BitVec.eq_of_toNat_eq ?_⟩ <;>
    simp only [BitVec.extractLsb'_toNat, hword, Nat.shiftRight_eq_div_pow, BitVec.ofNat_eq_ofNat,
      BitVec.toNat_ofNat] <;> omega

/-- `ENC_RDSTATE` on a DEV that runs (R129). -/
theorem exec_encRdstate_ready {s : State} (h : s.dev.halted = false) :
    exec (.encRdstate .dev) s = .next { s with result := .word (rdstateWord s.dev.enc) } := by
  rw [exec_encRdstate, devOp_ready h]
  exact runDev_ok rfl

/-- Settles O6: a DEV that runs returns the word of its encoder's state, a halted one refuses. -/
theorem encRdstateReturnsCodecState : Obligations.EncRdstateReturnsCodecState := by
  intro din bulk s
  exact ⟨rfl, fun h => devOp_halted h _, fun h => ⟨_, exec_encRdstate_ready h, rdstateWord_fields s.dev.enc⟩⟩

end Sys2Proof.Machine
end

section
/-! PROOFS. The thermal quantizer: `Q_ENC` rounds the tenfold clamped temperature (R150 to R155), `Q_DEC` is the nearest
binary32 to a word's tenth (R156, R157), so decoding and encoding give the word back (R160), and `THM_DECODE` decodes
each word of a frame (R158). -/

namespace Sys2Proof.Machine

/-! ## Values in units -/

/-- The exact value of a pattern that stands for a number of units (R159): the converse of `valQ_fin`. -/
theorem valQ_of_val {b : F32} {neg : Bool} {u : Nat} (h : val b = .fin neg u) :
    valQ b = some ((if neg then -1 else 1) * (u : ℚ) / 2 ^ 149) := by
  have hfinite : (b.extractLsb' 23 8).toNat ≠ 255 := by
    intro he
    simp only [val, if_pos he] at h
    split_ifs at h
  obtain ⟨v, hv⟩ : ∃ v, valQ b = some v := by
    simp only [valQ, if_neg hfinite]
    split_ifs <;> exact ⟨_, rfl⟩
  obtain ⟨neg', u', hval, rfl⟩ := valQ_fin hv
  obtain ⟨rfl, rfl⟩ : neg = neg' ∧ u = u' := by simpa only [FVal.fin.injEq] using h.symm.trans hval
  exact hv

/-- The clamp to [0, 40] in units is that of the value (R150). -/
theorem clampUnits_eq (neg : Bool) (u : Nat) :
    max 0 (min 40 ((if neg then -1 else 1) * (u : ℚ) / 2 ^ 149)) =
      ((if neg then 0 else min u (40 * 2 ^ 149) : Nat) : ℚ) / 2 ^ 149 := by
  cases neg with
  | true =>
    have hle : -1 * (u : ℚ) / 2 ^ 149 ≤ 0 := div_nonpos_of_nonpos_of_nonneg (by simp) (by positivity)
    rw [if_pos rfl, if_pos rfl, min_eq_right (by linarith), max_eq_left hle, Nat.cast_zero, zero_div]
  | false =>
    simp only [Bool.false_eq_true, if_false, one_mul]
    rw [max_eq_right (by positivity), Nat.cast_min, min_comm, ← min_div_div_right (by positivity)]
    congr 1
    norm_num

/-- The integer division that rounds the tenfold of a number of units (R150). -/
theorem round_tenfold_units (c : Nat) :
    round (10 * ((c : ℚ) / 2 ^ 149)) = (((2 * (10 * c) + 2 ^ 149) / 2 ^ 150 : Nat) : ℤ) := by
  rw [round_eq, Int.natCast_div, ← Rat.floor_natCast_div_natCast]
  congr 1
  push_cast
  ring

/-- The word of a finite pattern: the tenfold clamped temperature, rounded (R150). -/
theorem quant_eq_round {b : F32} {v : ℚ} (h : valQ b = some v) :
    ∃ w : U16, quant b = some w ∧ (w.toNat : ℤ) = round (10 * max 0 (min 40 v)) := by
  obtain ⟨neg, u, hval, rfl⟩ := valQ_fin h
  refine ⟨_, quant_fin hval, ?_⟩
  rw [clampUnits_eq, round_tenfold_units, BitVec.toNat_ofNat, Nat.mod_eq_of_lt]
  split_ifs <;> omega

/-! ## `Q_ENC` -/

/-- `Q_ENC` on a DEV that runs: the word stands in `dout[15:0]` (R95, R150). -/
theorem exec_qEnc_ready {s : State} (h : s.dev.halted = false) (b : F32) :
    exec (.qEnc .dev b) s = .next { s with
      dev := (qEnc b s.dev).1, result := .word (0#16 ++ (qEnc b s.dev).2 : BitVec 32) } := by
  rw [exec_qEnc, devOp_ready h, ← zeroExtend_eq_append _ 16]
  exact runDev_ok rfl

/-- `Q_ENC` of a pattern that is no NaN only returns its word. -/
theorem exec_qEnc_some {s : State} (h : s.dev.halted = false) {b : F32} {w : U16} (hq : quant b = some w) :
    exec (.qEnc .dev b) s = .next { s with result := .word (0#16 ++ w : BitVec 32) } := by
  rw [exec_qEnc_ready h, qEnc_some hq]

/-- A pattern with the exponent 255 and a fraction that is not 0 is a NaN (R153, R159). -/
theorem quant_nan {b : F32} (he : b.extractLsb' 23 8 = 0xFF) (hm : b.extractLsb' 0 23 ≠ 0) : quant b = none := by
  have hm' : (b.extractLsb' 0 23).toNat ≠ 0 := fun h0 => hm (BitVec.eq_of_toNat_eq h0)
  have hval : val b = .nan := by
    simp only [val, he, if_neg hm']
    rfl
  rw [quant, quantWith, hval]
  rfl

theorem quant_posInf : quant 0x7F800000 = some 400 := by decide

theorem quant_negInf : quant 0xFF800000 = some 0 := by decide

/-- Settles O19, by what the pattern stands for: the word of a finite one by `quant_eq_round`, of an infinity by
evaluation, and of a NaN by `qEnc_nan`. -/
theorem qEncRoundsTenfoldTemperature : Obligations.QEncRoundsTenfoldTemperature := by
  intro s b
  refine ⟨fun h => devOp_halted h _, fun h => ⟨fun v hv => ?finite, ?posInf, ?negInf, fun he hm => ?nan⟩⟩
  case finite =>
    obtain ⟨w, hq, hw⟩ := quant_eq_round hv
    exact ⟨w, hw.trans (round_eq _), exec_qEnc_some h hq⟩
  case posInf =>
    rintro rfl
    exact exec_qEnc_some h quant_posInf
  case negInf =>
    rintro rfl
    exact exec_qEnc_some h quant_negInf
  case nan =>
    obtain ⟨w, hw, henc⟩ := qEnc_nan (quant_nan he hm) s.dev
    exact ⟨w, hw, by rw [exec_qEnc_ready h, henc]⟩

/-! ## The error of a quantized temperature -/

/-- Rounding is off by a half exactly at the ties. -/
theorem abs_sub_round_eq_half {x : ℚ} (hx : 0 ≤ x) : |x - round x| = 1 / 2 ↔ ∃ k : ℕ, x = k + 1 / 2 := by
  rw [abs_sub_round_eq_min]
  constructor
  · intro h
    have hfract : Int.fract x = 1 / 2 := by
      rcases min_choice (Int.fract x) (1 - Int.fract x) with hmin | hmin <;> linarith
    refine ⟨⌊x⌋₊, ?_⟩
    rw [natCast_floor_eq_intCast_floor hx, ← hfract, Int.floor_add_fract]
  · rintro ⟨k, rfl⟩
    have hfract : Int.fract ((k : ℚ) + 1 / 2) = 1 / 2 := by
      rw [Int.fract_natCast_add, Int.fract_eq_self]
      norm_num
    rw [hfract]
    norm_num

/-- Settles O20: a tenth of the error of rounding the tenfold temperature, which the clamp leaves as it is. -/
theorem quantizationErrorBound : Obligations.QuantizationErrorBound := by
  intro s b v h hv h0 h40
  obtain ⟨w, hq, hw⟩ := quant_eq_round hv
  rw [min_eq_right h40, max_eq_right h0] at hw
  have herror : |(w.toNat : ℚ) / 10 - v| = |10 * v - round (10 * v)| / 10 := by
    rw [← hw, abs_sub_comm, Int.cast_natCast, ← abs_of_pos (show (0 : ℚ) < 10 by norm_num), ← abs_div]
    congr 1
    norm_num
    ring
  refine ⟨w, exec_qEnc_some h hq, ?_, ?_⟩
  · rw [herror]
    linarith [abs_sub_round (10 * v)]
  · rw [herror, ← abs_sub_round_eq_half (by positivity)]
    constructor <;> intro _ <;> linarith

/-! ## `Q_DEC` -/

/-- What a pattern of a normal exponent and a fraction stands for (R159). -/
theorem val_normal {e m : Nat} (h0 : 1 ≤ e) (h1 : e ≤ 254) (hm : m < 2 ^ 23) :
    val (BitVec.ofNat 32 (e * 2 ^ 23 + m)) = .fin false ((2 ^ 23 + m) * 2 ^ (e - 1)) := by
  have hlt : e * 2 ^ 23 + m < 2 ^ 31 := by omega
  have hsign : (BitVec.ofNat 32 (e * 2 ^ 23 + m)).getLsbD 31 = false := by
    rw [BitVec.getLsbD_ofNat, Nat.testBit_lt_two_pow hlt, Bool.and_false]
  have hexp : ((BitVec.ofNat 32 (e * 2 ^ 23 + m)).extractLsb' 23 8).toNat = e := by
    rw [BitVec.extractLsb'_toNat, BitVec.toNat_ofNat, Nat.shiftRight_eq_div_pow]
    omega
  have hfrac : ((BitVec.ofNat 32 (e * 2 ^ 23 + m)).extractLsb' 0 23).toNat = m := by
    rw [BitVec.extractLsb'_toNat, BitVec.toNat_ofNat, Nat.shiftRight_zero]
    omega
  simp only [val, hsign, hexp, hfrac]
  rw [if_neg (by omega), if_neg (by omega)]

/-- The pattern that `Rne32` packs from a rounded significand, a carry into the exponent included (R157). -/
theorem val_packed {k n : Nat} (hk : k ≤ 149) (h0 : 2 ^ 23 ≤ n) (h1 : n ≤ 2 ^ 24) :
    val (if n = 2 ^ 24 then BitVec.ofNat 32 ((150 - k + 1) * 2 ^ 23)
      else BitVec.ofNat 32 ((150 - k) * 2 ^ 23 + (n - 2 ^ 23))) = .fin false (n * 2 ^ (149 - k)) := by
  split_ifs with hn
  · have hval := val_normal (e := 150 - k + 1) (m := 0) (by omega) (by omega) (by omega)
    rw [Nat.add_zero] at hval
    rw [hval, hn, show 150 - k + 1 - 1 = 149 - k + 1 by omega, Nat.pow_succ]
    congr 1
    ring
  · rw [val_normal (by omega) (by omega) (by omega), Nat.add_sub_cancel' h0, show 150 - k - 1 = 149 - k by omega]

/-- `Q_DEC` of a word that is not 0: the tenth, scaled into `[2^23, 2^24)`, is rounded to an integer (R157). -/
theorem qDec_scaled {w : U16} (hw : w ≠ 0) :
    ∃ k n : Nat, 11 ≤ k ∧ k ≤ 149 ∧ valQ (qDec w) = some ((n : ℚ) / 2 ^ k) ∧
      2 ^ 23 ≤ (w.toNat : ℚ) / 10 * 2 ^ k ∧ |(n : ℚ) - (w.toNat : ℚ) / 10 * 2 ^ k| ≤ 1 / 2 := by
  have hpos : w.toNat ≠ 0 := fun h0 => hw (BitVec.eq_of_toNat_eq h0)
  obtain ⟨hk11, hk27, hlo, hhi⟩ := rneShift_spec (Nat.pos_of_ne_zero hpos) w.isLt
  have hdec : qDec w = rne32 w.toNat 10 := rfl
  simp only [rne32, if_neg hpos] at hdec
  generalize rneShift w.toNat 10 = k at *
  generalize hx : w.toNat * 2 ^ k = x at *
  generalize hn : (if 2 * (x % 10) > 10 ∨ 2 * (x % 10) = 10 ∧ x / 10 % 2 = 1 then x / 10 + 1 else x / 10) = n at *
  obtain ⟨hn0, hn1, hbelow, habove⟩ : 2 ^ 23 ≤ n ∧ n ≤ 2 ^ 24 ∧ x ≤ 10 * n + 5 ∧ 10 * n ≤ x + 5 := by
    rw [← hn]
    split_ifs <;> omega
  have hT : (w.toNat : ℚ) / 10 * 2 ^ k = (x : ℚ) / 10 := by
    rw [← hx]
    push_cast
    ring
  have hlo' : (2 ^ 23 * 10 : ℚ) ≤ x := by exact_mod_cast hlo
  have hbelow' : (x : ℚ) ≤ 10 * n + 5 := by exact_mod_cast hbelow
  have habove' : 10 * (n : ℚ) ≤ x + 5 := by exact_mod_cast habove
  refine ⟨k, n, hk11, by omega, ?_, ?_, ?_⟩
  · rw [valQ_of_val (hdec ▸ val_packed (by omega) hn0 hn1), Option.some.injEq]
    simp only [Bool.false_eq_true, if_false, one_mul]
    rw [← pow_sub_mul_pow (2 : ℚ) (show k ≤ 149 by omega)]
    push_cast
    rw [mul_comm (n : ℚ)]
    exact mul_div_mul_left _ _ (by positivity)
  · rw [hT]
    linarith
  · rw [hT, abs_le]
    constructor <;> linarith

theorem valQ_qDec_zero : valQ (qDec 0) = some 0 := by
  rw [valQ_of_val (b := qDec 0) (neg := false) (u := 0) (by decide)]
  norm_num

/-- A significand has 24 bits, so a finite pattern beyond `2^23` steps of a binary grid lies on the grid (R159). -/
theorem val_grid {b : F32} {neg : Bool} {u : Nat} (h : val b = .fin neg u) (j : Nat) :
    u ≤ 2 ^ 23 * 2 ^ j ∨ 2 ^ j ∣ u := by
  have hm : (b.extractLsb' 0 23).toNat < 2 ^ 23 := (b.extractLsb' 0 23).isLt
  simp only [val] at h
  generalize (b.extractLsb' 23 8).toNat = e at *
  generalize (b.extractLsb' 0 23).toNat = m at *
  split_ifs at h with h255 hm0 he0
  · obtain ⟨-, rfl⟩ := FVal.fin.inj h
    exact .inl (hm.le.trans (Nat.le_mul_of_pos_right _ (Nat.two_pow_pos j)))
  · obtain ⟨-, rfl⟩ := FVal.fin.inj h
    by_cases hj : j ≤ e - 1
    · exact .inr (Dvd.dvd.mul_left (Nat.pow_dvd_pow 2 hj) _)
    · refine .inl ?_
      calc (2 ^ 23 + m) * 2 ^ (e - 1) ≤ 2 ^ 24 * 2 ^ (e - 1) := Nat.mul_le_mul_right _ (by omega)
        _ = 2 ^ 23 * 2 ^ (e - 1 + 1) := by ring
        _ ≤ 2 ^ 23 * 2 ^ j := Nat.mul_le_mul_left _ (Nat.pow_le_pow_right (by omega) (by omega))

/-- A finite value scaled by `2^k` is an integer, or at most `2^23`. -/
theorem valQ_grid {b : F32} {v : ℚ} (h : valQ b = some v) {k : Nat} (hk : k ≤ 149) :
    v * 2 ^ k ≤ 2 ^ 23 ∨ ∃ m : ℤ, v * 2 ^ k = m := by
  obtain ⟨neg, u, hval, rfl⟩ := valQ_fin h
  rw [← pow_sub_mul_pow (2 : ℚ) hk, ← div_div, div_mul_cancel₀ _ (by positivity)]
  rcases val_grid hval (149 - k) with hle | ⟨m, rfl⟩
  · left
    rw [div_le_iff₀ (by positivity)]
    have hle' : (u : ℚ) ≤ 2 ^ 23 * 2 ^ (149 - k) := by exact_mod_cast hle
    cases neg with
    | true => simp only [if_true]; linarith [Nat.cast_nonneg (α := ℚ) u]
    | false => simpa using hle'
  · right
    refine ⟨(if neg then -1 else 1) * m, ?_⟩
    push_cast
    rw [← mul_assoc, mul_right_comm, mul_div_assoc, div_self (by positivity), mul_one]

/-- An integer within a half of `t` is as near to `t` as any integer, and as any value that an integer separates from
`t`. -/
theorem abs_sub_le_of_grid {t x : ℚ} {n : ℤ} {c : ℤ} (hn : |n - t| ≤ 1 / 2) (hc : (c : ℚ) ≤ t)
    (hx : x ≤ c ∨ ∃ m : ℤ, x = m) : |n - t| ≤ |x - t| := by
  have hint (m : ℤ) : |n - t| ≤ |m - t| := by
    rcases eq_or_ne m n with rfl | hne
    · exact le_rfl
    · have hone : (1 : ℚ) ≤ |(m : ℚ) - n| := by exact_mod_cast Int.one_le_abs (sub_ne_zero.mpr hne)
      have htri : |(m : ℚ) - n| ≤ |(m : ℚ) - t| + |t - n| := abs_sub_le _ _ _
      rw [abs_sub_comm t] at htri
      linarith
  rcases hx with hx | ⟨m, rfl⟩
  · calc |n - t| ≤ |c - t| := hint c
      _ = t - c := by rw [abs_sub_comm, abs_of_nonneg (by linarith)]
      _ ≤ t - x := by linarith
      _ ≤ |x - t| := by rw [abs_sub_comm]; exact le_abs_self _
  · exact hint m

/-- The decoded word is finite, and no finite pattern is nearer to the word's tenth (R157). -/
theorem qDec_nearest (w : U16) : ∃ v : ℚ, valQ (qDec w) = some v ∧
    ∀ (b : F32) (v' : ℚ), valQ b = some v' → |v - (w.toNat : ℚ) / 10| ≤ |v' - (w.toNat : ℚ) / 10| := by
  by_cases hw : w = 0
  · subst hw
    exact ⟨0, valQ_qDec_zero, fun _ v' _ => by simp⟩
  · obtain ⟨k, n, -, hk, hval, hlo, hn⟩ := qDec_scaled hw
    refine ⟨_, hval, fun b v' hb => ?_⟩
    have hnear : |((n : ℤ) : ℚ) - (w.toNat : ℚ) / 10 * 2 ^ k| ≤ |v' * 2 ^ k - (w.toNat : ℚ) / 10 * 2 ^ k| :=
      abs_sub_le_of_grid (c := 2 ^ 23) (by exact_mod_cast hn) (by exact_mod_cast hlo)
        (by exact_mod_cast valQ_grid hb hk)
    have hscale (y : ℚ) : |y * 2 ^ k - (w.toNat : ℚ) / 10 * 2 ^ k| = |y - (w.toNat : ℚ) / 10| * 2 ^ k := by
      rw [← sub_mul, abs_mul, abs_of_pos (show (0 : ℚ) < 2 ^ k by positivity)]
    have hn' : ((n : ℤ) : ℚ) = (n : ℚ) / 2 ^ k * 2 ^ k := by
      rw [div_mul_cancel₀ _ (by positivity), Int.cast_natCast]
    rw [hn', hscale, hscale] at hnear
    exact le_of_mul_le_mul_right hnear (by positivity)

/-- `Q_DEC` on HOST only returns the decoded word (R156). -/
theorem exec_qDec_host (w : U16) (s : State) :
    exec (.qDec .host w) s = .next { s with result := .word (qDec w) } := by
  rw [exec_qDec, hostOp_host]
  exact runHost_ok rfl

/-- Settles O21: `qDec_nearest` is about the pattern that `Q_DEC` returns. -/
theorem qDecIsNearestBinary32 : Obligations.QDecIsNearestBinary32 := by
  intro s w
  obtain ⟨v, hval, hnear⟩ := qDec_nearest w
  exact ⟨qDec w, v, exec_qDec_host w s, hval, hnear⟩

/-! ## Decoding and encoding again -/

/-- A decoded word is so near to the word's tenth that encoding rounds it back: `2^-12` is less than 1/20. -/
theorem qDec_close (w : U16) :
    ∃ v : ℚ, valQ (qDec w) = some v ∧ |v - (w.toNat : ℚ) / 10| < 1 / 20 := by
  by_cases hw : w = 0
  · subst hw
    exact ⟨0, valQ_qDec_zero, by norm_num⟩
  · obtain ⟨k, n, hk, -, hval, -, hn⟩ := qDec_scaled hw
    refine ⟨_, hval, ?_⟩
    have hpow : (2 : ℚ) ^ 11 ≤ 2 ^ k := pow_le_pow_right₀ (by norm_num) hk
    have hpos : (0 : ℚ) < 2 ^ k := by positivity
    rw [← mul_lt_mul_iff_left₀ hpos, ← abs_of_pos hpos, ← abs_mul, sub_mul, abs_of_pos hpos,
      div_mul_cancel₀ _ hpos.ne']
    linarith

/-- A temperature within 1/20 of the tenth of a word of 0..400 rounds to that word, clamped or not (R150). -/
theorem round_tenfold_clamp {v : ℚ} {n : Nat} (hn : n ≤ 400) (hv : |v - (n : ℚ) / 10| < 1 / 20) :
    round (10 * max 0 (min 40 v)) = n := by
  have hn' : (n : ℚ) ≤ 400 := by exact_mod_cast hn
  have h0 : (0 : ℚ) ≤ n := Nat.cast_nonneg n
  obtain ⟨hlo, hhi⟩ := abs_lt.mp hv
  have hclampLo : (n : ℚ) / 10 - 1 / 20 < max 0 (min 40 v) :=
    lt_max_of_lt_right (lt_min (by linarith) (by linarith))
  have hclampHi : max 0 (min 40 v) < (n : ℚ) / 10 + 1 / 20 :=
    max_lt (by linarith) (min_lt_of_right_lt (by linarith))
  rw [round_eq, Int.floor_eq_iff, Int.cast_natCast]
  constructor <;> linarith

/-- A word of 0..400 survives decoding and encoding (R160). -/
theorem quant_qDec {w : U16} (hw : w.toNat ≤ 400) : quant (qDec w) = some w := by
  obtain ⟨v, hval, hclose⟩ := qDec_close w
  obtain ⟨w', hq, hround⟩ := quant_eq_round hval
  rw [round_tenfold_clamp hw hclose, Nat.cast_inj] at hround
  rw [hq, BitVec.eq_of_toNat_eq hround]

/-- Settles O22: word by word, and a thermal frame is the frame of its words. -/
theorem quantizedWordsRoundTrip : Obligations.QuantizedWordsRoundTrip := by
  refine ⟨fun w => quant_qDec, fun f hf hwords => ?_⟩
  have hmap : (frameWords f).filterMap (fun w => quant (qDec w)) = (frameWords f).filterMap some :=
    List.filterMap_congr fun w hw => quant_qDec (hwords w hw)
  rw [hmap, List.filterMap_some]
  exact (isThermalFrame_eq hf).symm

/-! ## `THM_DECODE` -/

/-- Word `k` of a run of words stands in bytes `2k` and `2k + 1` (R87). -/
theorem rdWords_getD : ∀ (bs : List Byte) (k : Nat), 2 * k + 1 < bs.length →
    (rdWords bs).getD k 0 = rdLE16 (bs.getD (2 * k) 0) (bs.getD (2 * k + 1) 0)
  | [], _, h | [_], _, h => by simp at h
  | _ :: _ :: _, 0, _ => rfl
  | _ :: _ :: bs, k + 1, h => rdWords_getD bs k (by simp only [List.length_cons] at h; omega)

/-- `THM_DECODE` on HOST completes whatever its operand is (R158). -/
theorem exec_thmDecode_host (f : List Byte) (s : State) :
    exec (.thmDecode .host f) s =
      .next { s with host := (thmDecode f s.host).1, result := tempsResult (thmDecode f s.host).2 } := by
  rw [exec_thmDecode, hostOp_host]
  exact runHost_ok rfl

/-- Settles O23, by whether the operand is a thermal frame. -/
theorem thmDecodeReturnsTemperatures : Obligations.ThmDecodeReturnsTemperatures := by
  intro s f
  refine ⟨fun hf => ?_, fun hf => ?_⟩
  · have hlen := isThermalFrame_length hf
    have hdrop : (f.drop 2).length = 1536 := by rw [List.length_drop, hlen]
    refine ⟨by rw [frameWords, rdWords_length, hdrop], fun k hk => ?_, ?_⟩
    · rw [frameWords, rdWords_getD _ k (by omega), rdLE16_toNat, byteAt, byteAt]
      simp only [List.getD_eq_getElem?_getD, List.getElem?_drop]
      rw [show 3 + 2 * k = 2 + (2 * k + 1) by omega]
    · rw [exec_thmDecode_host, thmDecode, if_pos hf]
      rfl
  · rw [exec_thmDecode_host, thmDecode, if_neg (by simp [hf])]
    rfl

end Sys2Proof.Machine
end

section
/-! PROOFS. The sink as a history of whole frames (R62, R185): every instruction but the transmitter's step only offers
frames at the tails of the queues, and the transmitter moves a queue's head, byte by byte, to the sink. -/

namespace Sys2Proof.Machine

/-! ## Offering frames -/

/-- From `d` to `d'` nothing is transmitted, and each queue has at most more frames at its tail (R182). -/
structure OnlyOffers (d d' : Dev) : Prop where
  sink : d'.sink = d.sink
  tx : d'.tx = d.tx
  queues : ∀ src, txqOf d.txq src <+: txqOf d'.txq src

namespace OnlyOffers

theorem refl (d : Dev) : OnlyOffers d d := ⟨rfl, rfl, fun _ => List.prefix_rfl⟩

theorem trans {d d' d'' : Dev} (h : OnlyOffers d d') (h' : OnlyOffers d' d'') : OnlyOffers d d'' :=
  ⟨h'.sink.trans h.sink, h'.tx.trans h.tx, fun src => (h.queues src).trans (h'.queues src)⟩

/-- The other elements of DEV may be anything. -/
theorem congr {d d' d'' : Dev} (h : OnlyOffers d d') (hsink : d''.sink = d'.sink) (htx : d''.tx = d'.tx)
    (htxq : d''.txq = d'.txq) : OnlyOffers d d'' :=
  h.trans ⟨hsink, htx, fun _ => htxq ▸ List.prefix_rfl⟩

theorem raise (e : DevFault) (d : Dev) : OnlyOffers d (raiseDev e d) := (refl d).congr rfl rfl rfl

theorem emit (src : Src) (f : List Byte) (d : Dev) : OnlyOffers d (emit src f d).1 := by
  by_cases hroom : (txqOf d.txq src).length < Config.txqDepth src
  · rw [emit_room hroom]
    refine ⟨rfl, rfl, fun src' => ?_⟩
    by_cases hs : src' = src
    · subst hs
      rw [txqOf_txqWith_same]
      exact List.prefix_append _ _
    · rw [txqOf_txqWith_other _ _ hs]
  · rw [emit_full hroom]
    exact (refl d).congr rfl rfl rfl

theorem pushed (pcm : Sample) (d : Dev) : OnlyOffers d (pushed pcm d) := by
  rw [pushed_eq]
  exact (refl d).congr rfl rfl rfl

theorem completePacket (d : Dev) : OnlyOffers d (completePacket d) := by
  by_cases h : d.pkt.count.toNat = 118
  · rw [completePacket_end h]
    exact (emit .aud _ d).congr rfl rfl rfl
  · rw [completePacket_mid h]
    exact refl d

theorem qEnc (b : F32) (d : Dev) : OnlyOffers d (qEnc b d).1 := by
  obtain ⟨w, -, -, hq⟩ := qEnc_cases b d
  rw [hq]
  exact (refl d).congr rfl rfl rfl

theorem stored (b : F32) (d : Dev) : OnlyOffers d (stored b d) := (qEnc b d).congr rfl rfl rfl

theorem completeThermal (d : Dev) : OnlyOffers d (completeThermal d) := by
  by_cases h : d.thf.count.toNat = 768
  · rw [completeThermal_end h]
    exact (emit .thm _ d).congr rfl rfl rfl
  · rw [completeThermal_mid h]
    exact refl d

theorem btnPoll (n : BitVec 2) (d : Dev) : OnlyOffers d (btnPoll n d) := by
  have hemit := emit .btn (mkBtnFrame n) d
  unfold Machine.btnPoll
  split_ifs
  · exact raise .btnRange d
  · exact refl d
  · dsimp only
    split_ifs
    · exact hemit.congr rfl rfl rfl
    · exact hemit

theorem dbgText (text : List Byte) (d : Dev) : OnlyOffers d (dbgText text d) := by
  unfold Machine.dbgText
  split_ifs
  · exact raise .dbgRefused d
  · exact emit .dbg (mkDbgFrame text) d

end OnlyOffers

/-- A `TX_STEP` that changes DEV writes the sink (R184). -/
theorem txStep_stays_or_sends {d d' : Dev} (h : txStep d = .ok d') : d' = d ∨ d.sink.length < d'.sink.length := by
  unfold txStep at h
  split_ifs at h
  · obtain ⟨b, hb⟩ := writeByte_sink h
    exact .inr (by rw [hb, selectFrame_sink, List.length_append]; exact Nat.lt_add_one _)
  · exact .inl (Except.ok.inj h).symm

theorem DevMove.onlyOffers_or_sends {d d' : Dev} (h : DevMove d d') :
    OnlyOffers d d' ∨ d.sink.length < d'.sink.length := by
  cases h with
  | stays => exact .inl (.refl d)
  | raises e => exact .inl (.raise e d)
  | encodes he =>
    cases encSample_next he
    exact .inl ((OnlyOffers.refl d).congr rfl rfl rfl)
  | @pushesSample pcm _ _ he => exact .inl (audPush_next he ▸ (OnlyOffers.pushed pcm d).trans (.completePacket _))
  | quantizes b => exact .inl (.qEnc b d)
  | @pushesPixel b _ _ he => exact .inl (thmPush_next he ▸ (OnlyOffers.stored b d).trans (.completeThermal _))
  | polls n => exact .inl (.btnPoll n d)
  | sendsText text => exact .inl (.dbgText text d)
  | transmits he =>
    obtain rfl | hsends := txStep_stays_or_sends he
    · exact .inl (.refl _)
    · exact .inr hsends

theorem Moves.onlyOffers_or_sends {s t : State} (h : Moves s t) :
    OnlyOffers s.dev t.dev ∨ s.dev.sink.length < t.dev.sink.length := by
  induction h with
  | refl => exact .inl (.refl _)
  | tail _ hm ih =>
    cases hm with
    | host => exact ih
    | dev hd =>
      obtain ho | hl := ih <;> obtain ho' | hl' := hd.onlyOffers_or_sends
      · exact .inl (ho.trans ho')
      · exact .inr (ho.sink ▸ hl')
      · exact .inr (ho'.sink ▸ hl)
      · exact .inr (hl.trans hl')

/-- Every instruction but `TX_STEP` and the reset of DEV only offers frames: it leaves the sink as it is, so no move of
its chain has sent anything. -/
theorem exec_onlyOffers {i : Instr} {s t : State} (htx : i ≠ .txStep) (hreset : i ≠ .hwReset .dev)
    (h : exec i s = .next t) : OnlyOffers s.dev t.dev := by
  by_cases hr : ∃ inst, ResetOf inst i
  · obtain ⟨inst, hr⟩ := hr
    cases Host.Outcome.next.inj ((exec_reset hr s).symm.trans h)
    cases inst with
    | dev =>
      obtain rfl | ⟨⟨⟩, -⟩ := hr
      exact absurd rfl hreset
    | host => exact .refl s.dev
  · obtain ho | hl := (exec_moves (not_exists.mp hr) h).onlyOffers_or_sends
    · exact ho
    · exact absurd (congrArg List.length (exec_sink htx h)) hl.ne'

/-! ## The history along a step -/

theorem framesOf_concat (src origin : Src) (sent : List (Src × List Byte)) (f : List Byte) :
    framesOf src (sent ++ [(origin, f)]) = framesOf src sent ++ if origin = src then [f] else [] := by
  by_cases ho : origin = src <;> simp [framesOf, ho]

/-- Frames offered at the tails of the queues are accepted frames of their sources. -/
theorem SinkHistory.offer {accepted offered : Src → List (List Byte)} {d d' : Dev} (h : SinkHistory accepted d)
    (ho : OnlyOffers d d') (hq : ∀ src, txqOf d'.txq src = txqOf d.txq src ++ offered src) :
    SinkHistory (fun src => accepted src ++ offered src) d' := by
  obtain ⟨sent, origin, hsink, hacc⟩ := h
  refine ⟨sent, origin, by rw [ho.sink, ho.tx, hsink], fun src => ?_⟩
  simp only [hacc src, ho.tx, hq src, List.append_assoc]

section
variable {accepted : Src → List (List Byte)} {d d' : Dev}

/-- Taking the head of a queue makes it the frame in flight, with no byte of it sent yet (R184). -/
theorem SinkHistory.startFrame (h : SinkHistory accepted d) (hb : d.tx.busy = false) {src : Src}
    (hq : txqOf d.txq src ≠ []) (draws : Nat) :
    SinkHistory accepted (startFrame src { d with draws := draws }) := by
  obtain ⟨sent, origin, hsink, hacc⟩ := h
  obtain ⟨f, rest, hf⟩ := List.exists_cons_of_ne_nil hq
  refine ⟨sent, src, ?_, fun src' => ?_⟩
  · simpa [inFlightBytes, hb] using hsink
  · by_cases hs : src' = src
    · subst hs
      simp [hacc, inFlightOf, hb, hf]
    · rw [hacc, startFrame_txq, txqOf_txqWith_other _ _ hs]
      simp [inFlightOf, hb, Ne.symm hs]

theorem writeByte_next (h : writeByte d = .ok d') :
    d.tx.idx < d.tx.frame.length ∧ d' = { d with
      sink := d.sink ++ [d.tx.frame.getD d.tx.idx 0]
      tx := { d.tx with idx := d.tx.idx + 1, busy := d.tx.idx + 1 != d.tx.frame.length } } := by
  have hi : d.tx.idx < d.tx.frame.length := by
    by_contra hi
    simp [writeByte, List.getElem?_eq_none (Nat.le_of_not_lt hi)] at h
  exact ⟨hi, (Except.ok.inj ((writeByte_eq hi).symm.trans h)).symm⟩

/-- A byte of the frame in flight goes to the sink; with the last one the frame is a sent frame (R184, R185). -/
theorem SinkHistory.writeByte (h : SinkHistory accepted d) (hb : d.tx.busy = true) (hw : writeByte d = .ok d') :
    SinkHistory accepted d' := by
  obtain ⟨sent, origin, hsink, hacc⟩ := h
  obtain ⟨hi, rfl⟩ := writeByte_next hw
  have htake : d.tx.frame.take d.tx.idx ++ [d.tx.frame.getD d.tx.idx 0] = d.tx.frame.take (d.tx.idx + 1) := by
    rw [List.getD_eq_getElem _ _ hi, List.take_concat_get' _ _ hi]
  have hsent : d.sink ++ [d.tx.frame.getD d.tx.idx 0] =
      (sent.map Prod.snd).flatten ++ d.tx.frame.take (d.tx.idx + 1) := by
    rw [hsink, inFlightBytes, if_pos hb, List.append_assoc, htake]
  by_cases hlast : d.tx.idx + 1 = d.tx.frame.length
  · rw [hlast, List.take_length] at hsent
    refine ⟨sent ++ [(origin, d.tx.frame)], origin, ?_, fun src => ?_⟩
    · simpa [inFlightBytes, hlast] using hsent
    · rw [hacc, framesOf_concat]
      simp [inFlightOf, hb, hlast]
  · refine ⟨sent, origin, ?_, fun src => ?_⟩
    · simpa [inFlightBytes, hlast] using hsent
    · rw [hacc]
      simp [inFlightOf, hb, hlast]

/-- `TX_STEP` keeps the history of the frames accepted so far (R184, R185). -/
theorem SinkHistory.txStep (h : SinkHistory accepted d) (hstep : txStep d = .ok d') : SinkHistory accepted d' := by
  by_cases hoff : d.halted = true ∨ (d.tx.busy = false ∧ ∀ src, txqOf d.txq src = [])
  · rw [txStep_disabled hoff] at hstep
    exact Except.ok.inj hstep ▸ h
  obtain ⟨hready, hon⟩ := not_or.mp hoff
  rw [Bool.not_eq_true] at hready
  cases hb : d.tx.busy with
  | true => exact h.writeByte hb (txStep_busy hready hb ▸ hstep)
  | false =>
    obtain ⟨src, hq, hstart⟩ := txStep_start hready hb (not_forall.mp fun hnil => hon ⟨hb, hnil⟩)
    exact (h.startFrame hb hq _).writeByte rfl (hstart ▸ hstep)

end

theorem exec_txStep_next {s t : State} (h : exec .txStep s = .next t) : txStep s.dev = .ok t.dev := by
  rw [exec_txStep] at h
  obtain ⟨d, r, hd, rfl⟩ := runDev_next h
  obtain ⟨d', hstep, hk⟩ := map_eq_ok.mp hd
  exact (Prod.mk.inj hk).1 ▸ hstep

/-- Settles O32: `TX_STEP` moves frames along the history, and any other step accepts what it leaves at the tails of the
queues, whose frames are whole by the invariant of the state it ends in. -/
theorem sinkIsHistoryOfWholeFrames : Obligations.SinkIsHistoryOfWholeFrames := by
  intro i s t accepted hinv hist hframes hreset h
  by_cases htx : i = .txStep
  · subst htx
    refine ⟨fun _ => [], ?_, ?_, fun _ _ => rfl, fun hn => absurd rfl hn⟩
    · simpa only [List.append_nil] using hist.txStep (exec_txStep_next h)
    · simpa only [List.append_nil] using hframes
  · have ho := exec_onlyOffers htx hreset h
    choose offered hq using ho.queues
    refine ⟨offered, hist.offer ho fun src => (hq src).symm, fun src f hf => ?_, fun e => absurd e htx,
      fun _ src => (hq src).symm⟩
    obtain hf | hf := List.mem_append.mp hf
    · exact hframes src f hf
    · exact (exec_inv hinv h).dev.queueFrames src f (hq src ▸ List.mem_append_right _ hf)

end Sys2Proof.Machine
end

section
/-! PROOFS. The frame builder and the multiplexer, operation by operation (R170 to R184): what each leaves in DEV where
its frame is complete or not, its queue has room or not, and its operand is in range or not. -/

namespace Sys2Proof.Machine

/-! ## `Emit` -/

/-- Settles O30, by whether the queue has room. -/
theorem emitAppendsOrDropsWhole : Obligations.EmitAppendsOrDropsWhole :=
  fun _ frame d => ⟨fun hroom => ⟨_, emit_room hroom frame, txqOf_txqWith_same d.txq _ _,
    fun _ hs => txqOf_txqWith_other d.txq _ hs⟩, fun hfull => emit_full hfull.not_gt frame⟩

/-- `Emit` reports whether the queue had room (R182). -/
theorem emit_accepted_iff (src : Src) (frame : List Byte) (d : Dev) :
    (emit src frame d).2 = true ↔ (txqOf d.txq src).length < Config.txqDepth src := by
  by_cases hroom : (txqOf d.txq src).length < Config.txqDepth src
  · simp only [emit_room hroom, hroom]
  · simp only [emit_full hroom, hroom, Bool.false_eq_true]

/-! ## `BTN_POLL` and `DBG_TEXT` -/

/-- An operation without a fault and without a result, on DEV (R262; log 4). -/
theorem devOp_dev_total (s : State) (F : Dev → Dev) :
    devOp .dev s (fun d => .ok (F d, .nothing)) =
      if s.dev.halted = true then .next (refusedState .dev s)
      else .next { s with dev := F s.dev, result := .nothing } := by
  split_ifs with hhalted
  · exact devOp_halted hhalted _
  · rw [devOp_ready (Bool.not_eq_true _ ▸ hhalted), runDev_ok rfl]

/-- The only count out of the button's range (R178). -/
theorem buttonMax_lt_iff : ∀ n : BitVec 2, n.toNat > Config.buttonMax ↔ n = 3 := by decide

/-- Everything `BTN_POLL` can do to DEV (R178). -/
theorem btnPoll_eq (n : BitVec 2) (d : Dev) :
    btnPoll n d =
      if n = 3 then { d with dstatus := d.dstatus ||| 0x4 }
      else if n = d.btnLast then d
      else if d.txq.btn.length < Config.txqDepth .btn then
        { d with btnLast := n, txq := { d.txq with btn := d.txq.btn ++ [mkBtnFrame n] } }
      else { d with dstatus := d.dstatus ||| 0x1 } := by
  simp only [btnPoll, buttonMax_lt_iff, emit_accepted_iff, txqOf]
  split_ifs with hrange hsame hroom
  · rw [raiseDev_eq (by decide), setDstatus_btnRange]
  · rfl
  · rw [emit_room (src := .btn) hroom]
    rfl
  · rw [emit_full (src := .btn) hroom]

/-- Settles O28, branch by branch: halted, and the cases of `btnPoll_eq`. -/
theorem btnPollEmitsOnChange : Obligations.BtnPollEmitsOnChange := by
  intro s n
  dsimp only
  rw [exec_btnPoll, devOp_dev_total, btnPoll_eq]
  split_ifs <;> rfl

/-- Which texts `DBG_TEXT` refuses (R179). -/
theorem textRefused_iff (text : List Byte) :
    textRefusedWith Config.dbgMax text = true ↔ Config.dbgMax < text.length ∨ (0x0A : Byte) ∈ text := by
  simp [textRefusedWith]

/-- Everything `DBG_TEXT` can do to DEV (R179). -/
theorem dbgText_eq (text : List Byte) (d : Dev) :
    dbgText text d =
      if Config.dbgMax < text.length ∨ (0x0A : Byte) ∈ text then { d with dstatus := d.dstatus ||| 0x8 }
      else if d.txq.dbg.length < Config.txqDepth .dbg then
        { d with txq := { d.txq with dbg := d.txq.dbg ++ [mkDbgFrame text] } }
      else { d with dstatus := d.dstatus ||| 0x1 } := by
  simp only [dbgText, textRefused_iff]
  split_ifs with hrefused hroom
  · rw [raiseDev_eq (by decide), setDstatus_dbgRefused]
  · rw [emit_room (src := .dbg) hroom]
    rfl
  · rw [emit_full (src := .dbg) hroom]

/-- Settles O29, branch by branch: halted, and the cases of `dbgText_eq`. -/
theorem dbgTextChecksItsText : Obligations.DbgTextChecksItsText := by
  intro s text
  dsimp only
  rw [exec_dbgText, devOp_dev_total, dbgText_eq]
  split_ifs <;> rfl

/-! ## `AUD_PUSH` -/

/-- DEV behind a sample that does not fill the packet (R170). -/
theorem completePacket_pushed_mid {d : Dev} (h : d.pkt.count.toNat < 117) (pcm : Sample) :
    completePacket (pushed pcm d) = { d with enc := (encStep d.enc pcm).1, pkt := (pushed pcm d).pkt } := by
  have hcount := pushed_count h.le pcm
  rw [completePacket_mid (by omega), ← pushed_eq]

/-- DEV behind the sample that fills the packet: the frame is offered, and the next packet starts (R170, R173). -/
theorem completePacket_pushed_end {d : Dev} (h : d.pkt.count.toNat = 117) (pcm : Sample) :
    completePacket (pushed pcm d) =
      { (emit .aud (mkAudioFrame d.pkt.seq (pushed pcm d).pkt.hdrPredictor (pushed pcm d).pkt.hdrStepIndex
          (pushed pcm d).pkt.buf.toList) d).1 with
        enc := (encStep d.enc pcm).1
        pkt := { (pushed pcm d).pkt with seq := d.pkt.seq + 1, count := 0 } } := by
  have hcount := pushed_count h.le pcm
  rw [completePacket_end (by omega), pushed_seq, emit_eq, emit_eq, pushed_eq]

/-- Settles O25, by whether the sample fills the packet. -/
theorem audPushPacksOneCode : Obligations.AudPushPacksOneCode := by
  intro s pcm hready hi hc
  have hpush := execAudPush_eq hready hi hc pcm
  have hcount := pushed_count hc pcm
  obtain ⟨hpred, hindex⟩ := pushed_header s.dev pcm
  have hindex' : (pushed pcm s.dev).pkt.hdrStepIndex.toNat =
      if s.dev.pkt.count.toNat = 0 then s.dev.enc.stepIndex.toNat else s.dev.pkt.hdrStepIndex.toNat := by
    rw [hindex, apply_ite BitVec.toNat, BitVec.zeroExtend, BitVec.toNat_setWidth_of_le (by decide)]
  have hbuf := pushed_buf s.dev pcm
  by_cases hmid : s.dev.pkt.count.toNat < 117
  · rw [completePacket_pushed_mid hmid] at hpush
    refine ⟨_, _, _, _, hpush, rfl, hpred, hindex', hbuf, ?_⟩
    rw [if_pos hmid]
    exact ⟨hcount, pushed_seq s.dev pcm, rfl, rfl⟩
  · rw [completePacket_pushed_end (by omega), emit_eq] at hpush
    refine ⟨_, _, _, _, hpush, rfl, hpred, hindex', hbuf, ?_⟩
    rw [if_neg hmid]
    refine ⟨rfl, BitVec.toNat_add _ _, ?_⟩
    by_cases hroom : s.dev.txq.aud.length < Config.txqDepth .aud <;> simp [txqOf, txqWith, hroom]

/-! ## `THM_PUSH` -/

/-- What one pixel leaves in the builder: a word that is the pixel's, any of 0..400 for a NaN, and one draw for a NaN
(R153, R176; log 6). -/
theorem stored_cases (b : F32) (d : Dev) :
    ∃ w : U16, w.toNat ≤ 400 ∧ (∀ v, quant b = some v → w = v) ∧
      stored b d = { d with
        thf := { words := d.thf.words.setIfInBounds d.thf.count.toNat w, count := d.thf.count + 1 }
        dstatus := d.dstatus ||| (if quant b = none then 0x2 else 0)
        draws := d.draws + (if quant b = none then 1 else 0) } := by
  obtain ⟨w, hw, hv, hq⟩ := qEnc_cases b d
  exact ⟨w, hw, hv, by rw [stored, hq, storeWord]⟩

/-- Settles O26, by whether the pixel fills the frame. -/
theorem thmPushStoresOneWord : Obligations.ThmPushStoresOneWord := by
  intro s b hready hc
  obtain ⟨w, hw, hv, hstored⟩ := stored_cases b s.dev
  have hpush := execThmPush_eq hready hc b
  obtain ⟨-, -, -, hcount, -⟩ := stored_spec b s.dev hc
  by_cases hlast : s.dev.thf.count.toNat = 767
  · rw [completeThermal_end (by omega), emit_eq, hstored] at hpush
    refine ⟨w, { words := s.dev.thf.words.setIfInBounds s.dev.thf.count.toNat w, count := 0 }, _,
      hpush.trans ?_, hw, hv, Vector.toList_setIfInBounds, by rw [if_pos hlast]; rfl, rfl⟩
    obtain hroom | hfull := Nat.lt_or_ge s.dev.txq.thm.length (Config.txqDepth .thm)
    · simp [txqOf, txqWith, hlast, hroom, hroom.not_ge]
    · simp [txqOf, hlast, hfull, hfull.not_gt]
  · rw [completeThermal_mid (by omega), hstored] at hpush
    rw [hstored] at hcount
    refine ⟨w, { words := s.dev.thf.words.setIfInBounds s.dev.thf.count.toNat w, count := s.dev.thf.count + 1 }, _,
      hpush.trans ?_, hw, hv, Vector.toList_setIfInBounds, by rw [if_neg hlast]; exact hcount, rfl⟩
    simp [hlast]

/-! ## `TX_STEP` -/

theorem exec_txStep_ok {s : State} {d : Dev} (h : txStep s.dev = .ok d) :
    exec .txStep s = .next { s with dev := d, result := .nothing } := by
  rw [exec_txStep]
  exact runDev_ok (by rw [h]; rfl)

/-- Settles O31: not enabled, with a frame in flight, and starting the frame at the head of a queue. -/
theorem txStepWritesOneByte : Obligations.TxStepWritesOneByte := by
  intro s
  refine ⟨fun hoff => exec_txStep_ok (txStep_disabled hoff), fun hready hb hi => ?_, fun hready hb hq hne => ?_⟩
  · rw [exec_txStep_ok ((txStep_busy hready hb).trans (writeByte_eq hi))]
    simp [bne, Bool.beq_eq_decide_eq]
  · obtain ⟨src, hs, hstart⟩ := txStep_start hready hb hq
    obtain ⟨frame, rest, hqueue⟩ := List.exists_cons_of_ne_nil hs
    cases frame with
    | nil => exact absurd (hqueue ▸ List.mem_cons_self) (hne src)
    | cons b f =>
      refine ⟨src, b, f, rest, s.dev.draws + 1, hqueue, ?_⟩
      rw [exec_txStep_ok (hstart.trans (writeByte_eq (by simp [hqueue])))]
      cases f <;> simp [startFrame, hqueue]

end Sys2Proof.Machine
end

section
/-! PROOFS. Chunks of the demultiplexer (R203 to R216): what a feed leaves in the buffer, that chunk boundaries do not
matter where no feed overflows, and what becomes of whole frames, one behind the other or behind garbage. -/

namespace Sys2Proof.Machine

/-! ## The buffer behind a feed -/

/-- Bytes that wait are none, a lone `CA`, or begin with a start pattern (R201, R205, R206, R208). -/
theorem scanItem_wait_cases {bs : List Byte} (h : scanItem bs = .wait) :
    bs = [] ∨ bs = [0xCA] ∨ byteAt bs 0 = 0x62 ∨ byteAt bs 0 = 0x64 ∨
      (byteAt bs 0 = 0xCA ∧ (byteAt bs 1 = 0x01 ∨ byteAt bs 1 = 0x02)) := by
  cases bs with
  | nil => exact .inl rfl
  | cons c rest =>
    by_cases hsync : c = Config.sync
    · subst hsync
      cases rest with
      | nil => exact .inr (.inl rfl)
      | cons t tl =>
        refine .inr (.inr (.inr (.inr ⟨rfl, ?_⟩)))
        by_contra hne
        obtain ⟨hthermal, haudio⟩ := not_or.mp hne
        have hlen : frameLen t = none := (if_neg hthermal).trans (if_neg haudio)
        simp [scanItem, hlen] at h
    · by_cases hb : c = 0x62
      · exact .inr (.inr (.inl hb))
      · by_cases hd : c = 0x64
        · exact .inr (.inr (.inr (.inl hd)))
        · rw [scanItem_discard hsync hb hd] at h
          cases h

/-- Settles O38: the repeat loop ends within the bound, in bytes that wait. -/
theorem dmxFeedLeavesBoundedWaitingBuffer : Obligations.DmxFeedLeavesBoundedWaitingBuffer := by
  intro s chunk
  obtain ⟨hbound, hwait⟩ := feedLoop_ends Config.dmxMaxBuf _ (s.host.dmxBuf ++ chunk) s.host (Nat.lt_succ_self _)
  exact ⟨dmxFeed chunk s.host, exec_dmxFeed_host chunk s, hbound, hwait, scanItem_wait_cases hwait⟩

/-! ## Chunk boundaries -/

/-- A scan over bytes and more bytes goes on from what the scan over the first of them left (R213). -/
theorem scan_split (bs more : List Byte) (g : Hst) :
    scan (bs ++ more).length (bs ++ more) g =
      scan ((scan bs.length bs g).1 ++ more).length ((scan bs.length bs g).1 ++ more) (scan bs.length bs g).2 := by
  have hsplit := scan_append bs.length bs more g le_rfl
  have hleft := scan_length bs.length bs g
  rw [← List.length_append] at hsplit
  rw [hsplit]
  exact scan_fuel _ _ _ (by simp only [List.length_append]; omega)

/-- Two feeds that do not overflow do what the feed of their chunks' concatenation does (R213). -/
theorem dmxFeed_append {c1 c2 : List Byte} {g : Hst} (h1 : feedOverflows c1 g = false)
    (h2 : feedOverflows c2 (dmxFeed c1 g) = false) : dmxFeed c2 (dmxFeed c1 g) = dmxFeed (c1 ++ c2) g := by
  have hfirst := dmxFeed_once h1
  have hsecond := dmxFeed_once h2
  have hsplit := scan_split (g.dmxBuf ++ c1) c2 g
  rw [List.append_assoc] at hsplit
  have hjoin : feedOverflows (c1 ++ c2) g = false := by
    rw [Bool.eq_false_iff, ne_eq, feedOverflows_iff] at h2 ⊢
    rw [hfirst, scan_atBuf] at h2
    rwa [hsplit]
  rw [hsecond, dmxFeed_once hjoin, hsplit, hfirst, scan_atBuf]

/-- Settles O39, by `dmxFeed_append`. -/
theorem chunkBoundariesDoNotMatter : Obligations.ChunkBoundariesDoNotMatter := by
  intro s t1 t2 t c1 c2 hfirst hsecond hjoined h1 h2
  rw [exec_dmxFeed_host] at hfirst hsecond hjoined
  obtain rfl := Host.Outcome.next.inj hfirst
  obtain rfl := Host.Outcome.next.inj hsecond
  obtain rfl := Host.Outcome.next.inj hjoined
  dsimp only at h2 ⊢
  rw [dmxFeed_append h1 h2]

/-! ## Whole frames in front of other bytes -/

/-- A receivable frame is a binary frame of its type's length, or a line begun by `b` or `d` (R205, R206). -/
theorem ReceivableFrame.form {f : List Byte} (h : ReceivableFrame f) :
    (∃ t tl, f = Config.sync :: t :: tl ∧ frameLen t = some f.length) ∨
      ∃ c line, f = c :: line ++ [0x0A] ∧ (c = 0x62 ∨ c = 0x64) ∧ (0x0A : Byte) ∉ c :: line := by
  obtain haudio | hthermal | ⟨hstart, hline⟩ := h
  · exact .inl ⟨_, _, isAudioFrame_eq haudio, congrArg some (isAudioFrame_length haudio).symm⟩
  · exact .inl ⟨_, _, isThermalFrame_eq hthermal, congrArg some (isThermalFrame_length hthermal).symm⟩
  · obtain ⟨text, hn, rfl⟩ := (lineTerminated_iff f).mp hline
    cases text with
    | nil => exact absurd hstart (by decide)
    | cons c line => exact .inr ⟨c, line, rfl, hstart, hn⟩

/-- No receivable frame begins with a type byte, so a `CA` in front of one begins no start pattern (R201). -/
theorem ReceivableFrame.head {f : List Byte} (h : ReceivableFrame f) : ∃ c tl, f = c :: tl ∧ frameLen c = none := by
  obtain ⟨t, tl, rfl, -⟩ | ⟨c, line, rfl, hc, -⟩ := h.form
  · exact ⟨_, _, rfl, rfl⟩
  · exact ⟨c, _, rfl, by rcases hc with rfl | rfl <;> rfl⟩

/-- One turn of a scan that has as much fuel as bytes. -/
theorem scan_turn {bs rest : List Byte} (h : scanRest (scanItem bs) = some rest) (g : Hst) :
    scan bs.length bs g = scan rest.length rest (scanEffect g (scanItem bs)) := by
  have hshort := scanItem_shorter h
  rw [← scan_fuel (bs.length + 1) bs g (Nat.le_succ _), scan_succ, h]
  exact scan_fuel _ _ _ hshort.le

/-- A receivable frame in front of any bytes is dispatched, and the scan goes on behind it (R205 to R207, R214). -/
theorem scan_receivable {f : List Byte} (h : ReceivableFrame f) (rest : List Byte) (g : Hst) :
    scan (f ++ rest).length (f ++ rest) g = scan rest.length rest (receive f g) := by
  obtain ⟨t, tl, rfl, hlen⟩ | ⟨c, line, rfl, hc, hn⟩ := h.form
  · have hitem := scanItem_frame hlen rest
    rw [scan_turn (by rw [hitem]; rfl), hitem]
    rfl
  · have hitem := scanItem_line hc hn rest
    have hstart : c ≠ Config.sync := by rcases hc with rfl | rfl <;> decide
    have hsync : byteAt (c :: line ++ [0x0A]) 0 ≠ Config.sync := hstart
    rw [List.append_assoc, List.singleton_append, scan_turn (by rw [hitem]; rfl), hitem, receive, if_neg hsync,
      List.dropLast_concat]
    rfl

/-! ## What receiving a frame leaves alone -/

/-- Each fault of HOST has a bit of its own (R37). -/
theorem hstatusBit_injective : Function.Injective hstatusBit :=
  Function.LeftInverse.injective (g := HostFault.ofNat) fun e => by cases e <;> rfl

/-- Raising a fault leaves the record of every other fault as it is (R37, R296). -/
theorem hstatusHas_raiseHost_ne {e k : HostFault} (h : e ≠ k) (g : Hst) :
    hstatusHas (raiseHost e g).hstatus k = hstatusHas g.hstatus k := by
  have hne : hstatusBit e ≠ hstatusBit k := hstatusBit_injective.ne h
  have hbit : (1#16 <<< hstatusBit e).getLsbD (hstatusBit k) = false := by
    simp only [BitVec.getLsbD_shiftLeft, BitVec.getLsbD_one, Bool.and_eq_false_iff, Bool.not_eq_false',
      decide_eq_true_eq, decide_eq_false_iff_not]
    omega
  rw [raiseHost_hstatus, setHstatus, setBit, hstatusHas, BitVec.getLsbD_or, hbit, Bool.or_false, hstatusHas]

/-- A step of HOST that leaves alone what belongs to the scan: the buffer, and the records of a discard and of an overflow
(R33, R204, R209). -/
structure KeepsScan (g g' : Hst) : Prop where
  buffer : g'.dmxBuf = g.dmxBuf
  discard : hstatusHas g'.hstatus .dmxDiscard = hstatusHas g.hstatus .dmxDiscard
  overflow : hstatusHas g'.hstatus .dmxOverflow = hstatusHas g.hstatus .dmxOverflow

namespace KeepsScan

theorem refl (g : Hst) : KeepsScan g g := ⟨rfl, rfl, rfl⟩

theorem trans {g g' g'' : Hst} (h : KeepsScan g g') (h' : KeepsScan g' g'') : KeepsScan g g'' :=
  ⟨h'.buffer.trans h.buffer, h'.discard.trans h.discard, h'.overflow.trans h.overflow⟩

theorem raises {e : HostFault} (hd : e ≠ .dmxDiscard) (ho : e ≠ .dmxOverflow) (g : Hst) : KeepsScan g (raiseHost e g) :=
  ⟨rfl, hstatusHas_raiseHost_ne hd g, hstatusHas_raiseHost_ne ho g⟩

/-- An accepted packet records at most a fill or a resynchronisation (R231). -/
theorem recPacket_accepted {f : List Byte} {g : Hst} (hf : isAudioFrame f = true)
    (hc : classify g (frameSeq f) ≠ .stale) (hi : (frameStepIndex f).toNat ≤ 88) : KeepsScan g (recPacket f g) := by
  rw [recPacket_accept hf hc hi]
  cases classify g (frameSeq f) with
  | inorder | stale => exact ⟨rfl, rfl, rfl⟩
  | forward =>
    have hraise := KeepsScan.raises (e := .recFill) (by decide) (by decide) g
    exact ⟨rfl, hraise.discard, hraise.overflow⟩
  | far =>
    have hraise := KeepsScan.raises (e := .recResync) (by decide) (by decide) g
    exact ⟨rfl, hraise.discard, hraise.overflow⟩

/-- So an audio frame that goes to `REC_PACKET` leaves the scan's own alone. -/
theorem recPacket_audio {f : List Byte} (hf : isAudioFrame f = true) (g : Hst) : KeepsScan g (recPacket f g) := by
  by_cases hc : classify g (frameSeq f) = .stale
  · rw [recPacket_stale hf hc]
    exact .raises (by decide) (by decide) g
  · obtain hi | hi := Nat.lt_or_ge 88 (frameStepIndex f).toNat
    · rw [recPacket_bad hf hc hi]
      exact .raises (by decide) (by decide) g
    · exact .recPacket_accepted hf hc hi

theorem dispatchText (line : List Byte) (g : Hst) : KeepsScan g (dispatchText line g) := by
  unfold Machine.dispatchText
  split
  · exact ⟨rfl, rfl, rfl⟩
  · exact ⟨rfl, rfl, rfl⟩
  · exact .raises (by decide) (by decide) g

/-- Receiving a whole frame leaves the scan's own alone (R214). -/
theorem receive {f : List Byte} (h : ReceivableFrame f) (g : Hst) : KeepsScan g (receive f g) := by
  unfold Machine.receive
  split_ifs with hsync
  · obtain haudio | hthermal | ⟨hstart, -⟩ := h
    · exact dispatch_audio haudio g ▸ .recPacket_audio haudio g
    · rw [dispatch_thermal hthermal]
      exact ⟨rfl, rfl, rfl⟩
    · rw [hsync] at hstart
      exact absurd hstart (by decide)
  · exact .dispatchText _ g

/-- So does a run of them. -/
theorem receiveAll : ∀ (frames : List (List Byte)) (g : Hst), (∀ f ∈ frames, ReceivableFrame f) →
    KeepsScan g (frames.foldl (fun h f => Machine.receive f h) g)
  | [], g, _ => .refl g
  | _ :: frames, g, h =>
    have ⟨hf, hframes⟩ := List.forall_mem_cons.mp h
    (KeepsScan.receive hf g).trans (receiveAll frames _ hframes)

end KeepsScan

/-! ## Streams of whole frames -/

/-- A scan over whole frames receives one after the other and leaves no byte (R214). -/
theorem scan_frames : ∀ (frames : List (List Byte)) (g : Hst), (∀ f ∈ frames, ReceivableFrame f) →
    scan frames.flatten.length frames.flatten g = ([], frames.foldl (fun h f => receive f h) g)
  | [], _, _ => rfl
  | f :: frames, g, h => by
    obtain ⟨hf, hframes⟩ := List.forall_mem_cons.mp h
    rw [List.flatten_cons, scan_receivable hf, scan_frames frames _ hframes, List.foldl_cons]

/-- Settles O40: the feed is one scan over the frames. -/
theorem cleanStreamIsDispatchedExactly : Obligations.CleanStreamIsDispatchedExactly := by
  intro s frames hbuf hframes
  have hkeeps := KeepsScan.receiveAll frames s.host hframes
  refine ⟨_, ?_, rfl, hkeeps.buffer.trans hbuf, hkeeps.discard, hkeeps.overflow⟩
  rw [exec_dmxFeed_host, dmxFeed_clears hbuf (scan_frames frames s.host hframes)]

/-! ## Garbage in front of a frame -/

/-- A byte that begins no start pattern with the byte behind it is discarded (R201, R204). -/
theorem scanItem_noPattern {c t : Byte} (hb : c ≠ 0x62) (hd : c ≠ 0x64) (hstart : c = Config.sync → frameLen t = none)
    (tl : List Byte) : scanItem (c :: t :: tl) = .discard (t :: tl) := by
  by_cases hsync : c = Config.sync
  · simp only [scanItem, if_pos hsync, hstart hsync]
  · exact scanItem_discard hsync hb hd _

/-- The front byte of garbage is discarded, a `CA` at its end among them where no type byte follows, and what is left of it
is garbage again (R204, R215). -/
theorem scanItem_garbage {c d : Byte} {garbage tl : List Byte} (h : noStart (c :: garbage) = true)
    (hd : frameLen d = none) :
    scanItem (c :: garbage ++ d :: tl) = .discard (garbage ++ d :: tl) ∧ noStart garbage = true := by
  cases garbage with
  | nil =>
    simp only [noStart, Bool.and_eq_true, bne_iff_ne] at h
    exact ⟨scanItem_noPattern h.1 h.2 (fun _ => hd) tl, rfl⟩
  | cons t garbage =>
    simp only [noStart, Bool.and_eq_true, bne_iff_ne, Bool.not_eq_true', Bool.and_eq_false_iff, beq_eq_false_iff_ne,
      Option.isSome_eq_false_iff, Option.isNone_iff_eq_none] at h
    obtain ⟨⟨⟨h62, h64⟩, hstart⟩, hrest⟩ := h
    exact ⟨scanItem_noPattern h62 h64 (fun hsync => hstart.resolve_left (not_not_intro hsync)) _, hrest⟩

/-- A scan discards garbage in front of a byte that is no type byte and goes on at that byte (R204, R215). -/
theorem scan_garbage {d : Byte} {tl : List Byte} (hd : frameLen d = none) : ∀ (garbage : List Byte) (g : Hst),
    noStart garbage = true → scan (garbage ++ d :: tl).length (garbage ++ d :: tl) g =
      scan (d :: tl).length (d :: tl) (if garbage = [] then g else raiseHost .dmxDiscard g)
  | [], _, _ => rfl
  | c :: garbage, g, h => by
    obtain ⟨hitem, hrest⟩ := scanItem_garbage (tl := tl) h hd
    rw [scan_turn (by rw [hitem]; rfl), hitem, scanEffect, scan_garbage hd garbage _ hrest, raiseHost_idem, ite_self,
      if_neg (List.cons_ne_nil c garbage)]

/-- Settles O41: the scan discards the garbage and receives the frame, and nothing is left. -/
theorem garbageBeforeFrameIsDiscarded : Obligations.GarbageBeforeFrameIsDiscarded := by
  intro s garbage f hbuf hgarbage hf
  obtain ⟨d, tl, hcons, hd⟩ := hf.head
  have hframe := scan_receivable hf [] (if garbage = [] then s.host else raiseHost .dmxDiscard s.host)
  have hscan := scan_garbage (tl := tl) hd garbage s.host hgarbage
  rw [← hcons] at hscan
  rw [List.append_nil] at hframe
  rw [exec_dmxFeed_host, dmxFeed_clears hbuf (hscan.trans hframe)]
  rfl

/-! ## The source's scenarios -/

/-- The silent packet of number 0: its marker and 64 zero bytes (R216). -/
theorem mkAudioFrame_silence : mkAudioFrame 0 0 0 (List.replicate 59 0) =
    [(0xCA : Byte), 0x02, 0, 0, 0, 0, 0] ++ List.replicate 59 0 := rfl

/-- The silent packet decodes to zeros and leaves the decoder as a reset does (R216). -/
theorem frameRun_silence : frameRun (mkAudioFrame 0 0 0 (List.replicate 59 0)) = (Codec.reset, List.replicate 118 0) := by
  decide +kernel

/-- On a HOST just reset `REC_PACKET` of the silent packet delivers zeros and expects the next packet (R216, R231). -/
theorem recPacket_silence : recPacket (mkAudioFrame 0 0 0 (List.replicate 59 0)) Hst.initial =
    { Hst.initial with out := [.audio (List.replicate 118 0)], recon := ⟨1, 0⟩ } := by
  obtain ⟨hframe, hseq, -, hindex, -⟩ := mkAudioFrame_fields 0 0 0 (List.length_replicate (n := 59) (a := (0 : Byte)))
  have hgap : gapOf Hst.initial.recon.expected 0 = 0 := (gapOf_eq_zero _ _).mpr rfl
  have hclass : classify Hst.initial (frameSeq (mkAudioFrame 0 0 0 (List.replicate 59 0))) = .inorder := by
    rw [hseq, classify_eq, if_pos hgap]
  rw [recPacket_accept hframe (by rw [hclass]; decide) (by rw [hindex]; decide), hclass, frameRun_silence, hseq]
  rfl

/-- The thermal frame of zeros delivers 768 zero temperatures (R216). -/
theorem dmxFeed_zeroThermal : dmxFeed ([(0xCA : Byte), 0x01] ++ List.replicate 1536 0) Hst.initial =
    { Hst.initial with out := [.thermal (List.replicate 768 0)] } := by
  have hzero : qDec 0 = 0 := by decide +kernel
  rw [← mkThermalFrame_zero, dmxFeed_thermal List.length_replicate rfl, List.map_replicate, hzero]
  rfl

/-- The silent packet delivers 118 zero samples (R216). -/
theorem dmxFeed_silence : dmxFeed ([(0xCA : Byte), 0x02, 0, 0, 0, 0, 0] ++ List.replicate 59 0) Hst.initial =
    { Hst.initial with out := [.audio (List.replicate 118 0)], recon := ⟨1, 0⟩ } := by
  rw [← mkAudioFrame_silence, dmxFeed_audio List.length_replicate rfl, recPacket_silence]

/-- The line `btn:2` delivers the button's count (R216). -/
theorem dmxFeed_btn2 : dmxFeed [0x62, 0x74, 0x6E, 0x3A, 0x32, 0x0A] Hst.initial =
    { Hst.initial with out := [.button 2] } :=
  (dmxFeed_line (line := [0x74, 0x6E, 0x3A, 0x32]) rfl (.inl rfl) (by decide)).trans
    (dispatchText_btn (v := 2) (by decide) Hst.initial)

/-- Settles O42: each scenario is the feed of one whole frame or line into an empty buffer. -/
theorem sourceScenariosOfDemultiplexer : Obligations.SourceScenariosOfDemultiplexer := by
  intro s hreset
  change s.host = Hst.initial at hreset
  simp only [exec_dmxFeed_host, hreset]
  rw [dmxFeed_zeroThermal, dmxFeed_silence, dmxFeed_btn2]
  exact ⟨rfl, rfl, rfl⟩

end Sys2Proof.Machine
end

section
/-! PROOFS. The packets that `REC_PACKET` takes (R231 to R236, R240 to R245): the four bands of the gap, the next state
for each class and for a packet that is not accepted, and the samples that the sequence numbers add up to. -/

namespace Sys2Proof.Machine

/-! ## The bands of the gap -/

/-- The bands do not overlap, so a gap's class is its band (R232). -/
theorem classify_iff (g : Hst) (seq : U16) :
    let t := g.gapThreshold.val
    let gap := gapOf g.recon.expected seq
    (classify g seq = .inorder ↔ gap = 0) ∧
    (classify g seq = .forward ↔ 0 < gap ∧ gap < t) ∧
    (classify g seq = .stale ↔ 65536 - t ≤ gap) ∧
    (classify g seq = .far ↔ gap ≠ 0 ∧ t ≤ gap ∧ gap < 65536 - t) := by
  have ht := g.gapThreshold.isLt
  have hgap := gapOf_lt g.recon.expected seq
  rw [classify_eq]
  split_ifs with hinorder hforward hstale <;> simp only [true_iff, false_iff] <;> omega

theorem classify_inorder_iff (g : Hst) (seq : U16) :
    classify g seq = .inorder ↔ gapOf g.recon.expected seq = 0 :=
  (classify_iff g seq).1

theorem classify_forward_iff (g : Hst) (seq : U16) :
    classify g seq = .forward ↔ 0 < gapOf g.recon.expected seq ∧ gapOf g.recon.expected seq < g.gapThreshold.val :=
  (classify_iff g seq).2.1

/-- A packet in order or after a fill is not stale. -/
theorem PacketClass.ne_stale {c : PacketClass} (h : c = .inorder ∨ c = .forward) : c ≠ .stale := by
  obtain rfl | rfl := h <;> decide

/-- Settles O45: the gap is below 65536, and the threshold is at most half of that. -/
theorem packetClassesPartitionGaps : Obligations.PacketClassesPartitionGaps := by
  refine ⟨rfl, fun h seq => ?_⟩
  have ht : h.gapThreshold.val ≤ 32768 := Nat.le_of_lt_succ h.gapThreshold.isLt
  exact ⟨ht, gapOf_eq _ _, gapOf_lt _ _, gapOf_eq_zero _ _, classify_iff h seq⟩

/-! ## The next state -/

/-- `REC_PACKET` on HOST is `recPacket`, without a result (R231). -/
theorem exec_recPacket_host (f : List Byte) (s : State) :
    exec (.recPacket .host f) s = .next { s with host := recPacket f s.host, result := .nothing } := by
  rw [exec_recPacket, hostOp_host, runHost_ok rfl]

/-- Settles O47, whatever the step index: the classes come before the decoder (R231). -/
theorem stalePacketChangesNothing : Obligations.StalePacketChangesNothing := by
  intro s f hf hc
  rw [exec_recPacket_host, recPacket_stale hf hc]
  rfl

/-- Settles O48. -/
theorem refusedPacketIsNotAccepted : Obligations.RefusedPacketIsNotAccepted := by
  intro s f
  rw [exec_recPacket_host]
  refine ⟨fun hf hc hi => ?_, fun hf => ?_⟩
  · rw [recPacket_bad hf hc hi]
    rfl
  · rw [recPacket_other hf]
    rfl

/-- The fill ahead of a packet: `gap * 118` samples before a `FORWARD` one, none before any other (R231, R234). -/
def bridgeFill (g : Hst) (f : List Byte) : List Sample :=
  if classify g (frameSeq f) = .forward then
    fill g.trend g.draws g.recon.lastSample ((frameRun f).2.getD 0 0) (gapOf g.recon.expected (frameSeq f) * 118)
  else []

theorem bridgeFill_length (g : Hst) (f : List Byte) : (bridgeFill g f).length =
    if classify g (frameSeq f) = .forward then gapOf g.recon.expected (frameSeq f) * 118 else 0 := by
  unfold bridgeFill
  split_ifs
  · exact fill_length ..
  · rfl

/-- The fields of HOST that an accepted packet changes, and their values behind it (R231, R233, R234, R236, R240). -/
theorem recPacket_accept_fields {f : List Byte} {g : Hst} (hf : isAudioFrame f = true)
    (hi : (frameStepIndex f).toNat ≤ 88) (hc : classify g (frameSeq f) ≠ .stale) :
    recPacket f g = { g with
      dec := (frameRun f).1
      recon := { expected := frameSeq f + 1, lastSample := (frameRun f).2.getD 117 0 }
      out := g.out ++ (if classify g (frameSeq f) = .forward then [.audio (bridgeFill g f), .audio (frameRun f).2]
        else [.audio (frameRun f).2])
      hstatus := g.hstatus ||| (if classify g (frameSeq f) = .forward then 0x10
        else if classify g (frameSeq f) = .far then 0x40 else 0)
      draws := g.draws + (bridgeFill g f).length } := by
  rw [recPacket_accept hf hc hi, bridge_eq, bridgeFill_length, bridgeFill]
  by_cases hforward : classify g (frameSeq f) = .forward
  · simp only [acceptSamples, deliver, hforward, if_true, List.append_assoc, List.cons_append, List.nil_append,
      Config.samplesPerPacket]
  · simp only [acceptSamples, deliver, hforward, if_false, List.append_nil, Config.samplesPerPacket]

/-- Settles O46: the packet's samples are the decoder's run over the frame, and the fill is the bridge's. -/
theorem recPacketAcceptsByClass : Obligations.RecPacketAcceptsByClass := by
  intro s f hf hi hc
  refine ⟨(frameRun f).2, bridgeFill s.host f, rfl, frameRun_length hf, rfl, bridgeFill_length _ _, ?_⟩
  rw [exec_recPacket_host, recPacket_accept_fields hf hi hc]
  rfl

/-! ## The samples that sequence numbers add up to -/

/-- An accepted packet adds its fill and its 118 samples to the audio history (R56, R231). -/
theorem recPacket_audioHistory_length {f : List Byte} {g : Hst} (hf : isAudioFrame f = true)
    (hi : (frameStepIndex f).toNat ≤ 88) (hc : classify g (frameSeq f) ≠ .stale) :
    (audioHistory (recPacket f g)).length = (audioHistory g).length + (bridgeFill g f).length + 118 := by
  have hrun := frameRun_length hf
  rw [recPacket_accept_fields hf hi hc]
  by_cases hforward : classify g (frameSeq f) = .forward
  · simp [audioHistory, audioOf, hforward, hrun, Nat.add_assoc]
  · simp [audioHistory, audioOf, bridgeFill, hforward, hrun]

/-- In order or after a fill, a packet adds 118 samples for itself and 118 for each number of its gap (R241). -/
theorem recPacket_yields {f : List Byte} {g : Hst} (hf : isAudioFrame f = true) (hi : (frameStepIndex f).toNat ≤ 88)
    (hc : classify g (frameSeq f) = .inorder ∨ classify g (frameSeq f) = .forward) :
    (audioHistory (recPacket f g)).length =
      (audioHistory g).length + (gapOf g.recon.expected (frameSeq f) + 1) * 118 := by
  rw [recPacket_audioHistory_length hf hi (PacketClass.ne_stale hc), bridgeFill_length]
  obtain hinorder | hforward := hc
  · have hgap : gapOf g.recon.expected (frameSeq f) = 0 := (classify_inorder_iff g _).mp hinorder
    simp [hinorder, hgap]
  · rw [if_pos hforward]
    omega

/-- The gap is one less than what `rec.expected` advances by, modulo `SEQ_MOD` (R232, R236). -/
theorem gapOf_eq_advance (expected seq : U16) :
    gapOf expected seq = ((seq + 1).toNat + 65536 - expected.toNat - 1) % 65536 := by
  rw [gapOf_eq, seq_succ, Config.seqMod]
  omega

/-- Settles O49. -/
theorem everySequenceNumberYields118Samples : Obligations.EverySequenceNumberYields118Samples := by
  intro s t f hf hi hc hexec
  rw [exec_recPacket_host] at hexec
  obtain rfl := Host.Outcome.next.inj hexec
  rw [recPacket_yields hf hi hc, gapOf_eq_advance, recPacket_accept_fields hf hi (PacketClass.ne_stale hc)]

/-! ## Packets 0, 1, 3 and 4 -/

/-- HOST at the threshold `t`, with so many samples delivered, the next number expected and the status word as given. -/
def Standing (t : Config.GapThreshold) (samples : Nat) (expected : U16) (hstatus : BitVec 16) (g : Hst) : Prop :=
  g.gapThreshold = t ∧ (audioHistory g).length = samples ∧ g.recon.expected = expected ∧ g.hstatus = hstatus

section
variable {t : Config.GapThreshold} {n : Nat} {expected : U16} {hstatus : BitVec 16} {g : Hst} {f : List Byte}

/-- The expected packet adds its 118 samples and changes no status bit (R233). -/
theorem Standing.inorder (h : Standing t n expected hstatus g) (hf : isAudioFrame f = true)
    (hi : (frameStepIndex f).toNat ≤ 88) (hseq : frameSeq f = expected) :
    Standing t (n + 118) (expected + 1) hstatus (recPacket f g) := by
  obtain ⟨ht, hn, rfl, hbits⟩ := h
  have hgap := (gapOf_eq_zero g.recon.expected (frameSeq f)).mpr hseq
  have hc := (classify_inorder_iff g (frameSeq f)).mpr hgap
  have hyield := recPacket_yields hf hi (.inl hc)
  have hfields := recPacket_accept_fields hf hi (PacketClass.ne_stale (.inl hc))
  refine ⟨by rw [hfields, ht], by rw [hyield, hn, hgap], by rw [hfields, hseq], ?_⟩
  simp [hfields, hc, hbits]

/-- One packet is missing: above a threshold of 1 it is filled in (R234). -/
theorem Standing.afterOneMissing (h : Standing t n expected hstatus g) (ht1 : 1 < t.val) (hf : isAudioFrame f = true)
    (hi : (frameStepIndex f).toNat ≤ 88) (hseq : frameSeq f = expected + 1) :
    Standing t (n + 236) (expected + 2) (hstatus ||| 0x10) (recPacket f g) := by
  obtain ⟨rfl, hn, rfl, rfl⟩ := h
  have hgap : gapOf g.recon.expected (frameSeq f) = 1 := by
    rw [hseq, gapOf_eq, seq_succ, Config.seqMod]
    omega
  have hc := (classify_forward_iff g (frameSeq f)).mpr (by omega)
  have hyield := recPacket_yields hf hi (.inr hc)
  have hfields := recPacket_accept_fields hf hi (PacketClass.ne_stale (.inr hc))
  refine ⟨by rw [hfields], by rw [hyield, hn, hgap], ?_, by simp [hfields, hc]⟩
  rw [hfields, hseq, BitVec.add_assoc]
  rfl

end

/-- A run of `REC_PACKET` on HOST is `recPacket` of one frame after the other (R98, R231). -/
theorem runSequence_recPacket : ∀ (frames : List (List Byte)) (s t : State),
    runSequence (fun f => exec (.recPacket .host f)) frames s = .next t →
      t.host = frames.foldl (fun g f => recPacket f g) s.host
  | [], _, _, h => by
    obtain rfl := Host.Outcome.next.inj h
    rfl
  | f :: frames, s, t, h => by
    simp only [runSequence, exec_recPacket_host] at h
    exact runSequence_recPacket frames _ t h

/-- Settles O51: 118 samples each for packets 0, 1 and 4, and 236 for packet 3 with its fill. -/
theorem gapScenarioDelivers590Samples : Obligations.GapScenarioDelivers590Samples := by
  intro s t threshold trend f0 f1 f3 f4 hthreshold hreset hframes h0 h1 h3 h4 hrun
  simp only [List.forall_mem_cons, List.not_mem_nil, false_implies, implies_true, and_true] at hframes
  obtain ⟨⟨hf0, hi0⟩, ⟨hf1, hi1⟩, ⟨hf3, hi3⟩, hf4, hi4⟩ := hframes
  have h : Standing threshold 0 0 0 s.host := by
    rw [hreset]
    exact ⟨rfl, rfl, rfl, rfl⟩
  have hthree := ((h.inorder hf0 hi0 h0).inorder hf1 hi1 h1).afterOneMissing hthreshold hf3 hi3 h3
  obtain ⟨-, hsamples, hexpected, hbits⟩ := hthree.inorder hf4 hi4 h4
  rw [runSequence_recPacket _ _ _ hrun]
  exact ⟨hsamples, hexpected, hbits⟩

end Sys2Proof.Machine
end

section
/-! PROOFS. The trend and the fill (R237 to R239): every configured trend is a row of weights with the properties of
R238, every such row can be configured, and what that makes of a fill sample. -/

namespace Sys2Proof.Machine

/-! ## The weights of a trend -/

/-- The weights `num k` over `total`, for `k` up to `m`, are symmetric and do not decrease (R238). -/
structure IsTrendRow (num : Nat → Nat) (total m : Nat) : Prop where
  total_pos : 0 < total
  symmetric : ∀ k, k ≤ m → num k + num (m - k) = total
  monotone : ∀ k k', k ≤ k' → k' ≤ m → num k ≤ num k'

/-- A weight of a row is at most 1. -/
theorem IsTrendRow.le_total {num : Nat → Nat} {total m k : Nat} (h : IsTrendRow num total m) (hk : k ≤ m) :
    num k ≤ total :=
  h.symmetric k hk ▸ Nat.le_add_right _ _

/-- Smoothstep does not decrease: `(3 m - 2 k') k'² - (3 m - 2 k) k²` is a sum of products (R238). -/
theorem smoothstep_mono {k k' m : Nat} (hk : k ≤ k') (hm : k' ≤ m) : (smoothstep k m).1 ≤ (smoothstep k' m).1 := by
  obtain ⟨d, rfl⟩ := Nat.exists_eq_add_of_le hk
  obtain ⟨j, rfl⟩ := Nat.exists_eq_add_of_le hm
  have hleft : 3 * (k + d + j) - 2 * k = k + 3 * d + 3 * j := by omega
  have hright : 3 * (k + d + j) - 2 * (k + d) = k + d + 3 * j := by omega
  simp only [smoothstep, hleft, hright]
  exact Nat.le.intro (k := 3 * k * d ^ 2 + 6 * k * d * j + d ^ 3 + 3 * d ^ 2 * j) (by ring)

/-- Smoothstep is symmetric: the weights at `k` and at `m - k` add up to 1 (R238). -/
theorem smoothstep_symm {k m : Nat} (hk : k ≤ m) : (smoothstep k m).1 + (smoothstep (m - k) m).1 = m ^ 3 := by
  obtain ⟨j, rfl⟩ := Nat.exists_eq_add_of_le hk
  have hleft : 3 * (k + j) - 2 * k = k + 3 * j := by omega
  have hright : 3 * (k + j) - 2 * j = 3 * k + j := by omega
  simp only [smoothstep, Nat.add_sub_cancel_left, hleft, hright]
  ring

theorem smoothstep_isTrendRow {m : Nat} (hm : 0 < m) : IsTrendRow (fun k => (smoothstep k m).1) (m ^ 3) m where
  total_pos := Nat.pow_pos hm
  symmetric _ := smoothstep_symm
  monotone _ _ := smoothstep_mono

/-- Weights that the configuration lists are taken just where they are such a row (R238). -/
theorem admissible_iff {w : List Nat} {m : Nat} :
    admissible w m = true ↔ IsTrendRow (fun k => w.getD k 0) (weightsTotal w m) m := by
  refine ⟨fun h => ?_, fun h => ?_⟩
  · obtain ⟨hpos, hsymm, hmono⟩ := admissible_spec h
    exact ⟨hpos, hsymm, hmono⟩
  · simp only [admissible, Bool.and_eq_true, decide_eq_true_eq, List.all_eq_true, List.mem_range, Bool.or_eq_true]
    refine ⟨h.total_pos, fun k hk => ⟨h.symmetric k (by omega), ?_⟩⟩
    obtain hend | hinside := Nat.eq_or_lt_of_le (Nat.le_of_lt_succ hk)
    · exact .inl hend
    · exact .inr (h.monotone k (k + 1) (Nat.le_succ k) hinside)

/-- Whatever HOST is configured with, at each `M` its trend is such a row (R238). -/
theorem trendOf_isTrendRow (t : Config.Trend) {m : Nat} (hm : 0 < m) :
    ∃ num total, IsTrendRow num total m ∧ ∀ k, trendOf t k m = (num k, total) := by
  obtain ⟨w, hw, htrend⟩ | htrend := trendOf_cases t m
  · exact ⟨_, _, admissible_iff.mp hw, htrend⟩
  · exact ⟨_, _, smoothstep_isTrendRow hm, htrend⟩

/-! ## Configuring a trend -/

/-- A trend at `m` and its properties (R238). -/
structure IsTrendAt (f : Nat → ℚ) (m : Nat) : Prop where
  nonneg : ∀ k, k ≤ m → 0 ≤ f k
  symmetric : ∀ k, k ≤ m → f k + f (m - k) = 1
  monotone : ∀ k k', k ≤ k' → k' ≤ m → f k ≤ f k'

/-- A common denominator of the weights at 0 to `m`. -/
def commonDen (f : Nat → ℚ) (m : Nat) : Nat := ∏ k ∈ Finset.range (m + 1), (f k).den

/-- The weights at 0 to `m` over their common denominator. -/
def commonNums (f : Nat → ℚ) (m : Nat) : List Nat := (List.range (m + 1)).map fun k => (f k * commonDen f m).num.toNat

theorem commonDen_pos (f : Nat → ℚ) (m : Nat) : 0 < commonDen f m :=
  Finset.prod_pos fun k _ => (f k).den_pos

/-- A weight times a multiple of its denominator is an integer. -/
theorem commonNums_getD {f : Nat → ℚ} {k m : Nat} (hk : k ≤ m) (hf : 0 ≤ f k) :
    ((commonNums f m).getD k 0 : ℚ) = f k * commonDen f m := by
  have hlt : k < m + 1 := Nat.lt_succ_of_le hk
  have hget : (commonNums f m).getD k 0 = (f k * commonDen f m).num.toNat := by
    simp [commonNums, hlt]
  obtain ⟨c, hc⟩ : (f k).den ∣ commonDen f m := Finset.dvd_prod_of_mem _ (Finset.mem_range.mpr hlt)
  have hint : f k * commonDen f m = ((f k).num * c : ℤ) := by
    rw [hc]
    push_cast
    rw [← mul_assoc, Rat.mul_den_eq_num]
  have hnonneg : 0 ≤ (f k).num * c := mul_nonneg (Rat.num_nonneg.mpr hf) (Int.natCast_nonneg c)
  rw [hget, hint, Rat.num_intCast]
  exact_mod_cast Int.toNat_of_nonneg hnonneg

/-- The first and the last weight add up to the common denominator (R238). -/
theorem commonNums_total {f : Nat → ℚ} {m : Nat} (h : IsTrendAt f m) :
    weightsTotal (commonNums f m) m = commonDen f m := by
  have hsum : f 0 + f m = 1 := h.symmetric 0 (Nat.zero_le m)
  have hcast : (weightsTotal (commonNums f m) m : ℚ) = commonDen f m := by
    rw [weightsTotal, Nat.cast_add, commonNums_getD (Nat.zero_le m) (h.nonneg 0 (Nat.zero_le m)),
      commonNums_getD le_rfl (h.nonneg m le_rfl), ← add_mul, hsum, one_mul]
  exact_mod_cast hcast

/-- A trend with the properties of R238 gives weights that are taken. -/
theorem commonNums_admissible {f : Nat → ℚ} {m : Nat} (h : IsTrendAt f m) : admissible (commonNums f m) m = true := by
  rw [admissible_iff, commonNums_total h]
  have hget (k : Nat) (hk : k ≤ m) := commonNums_getD hk (h.nonneg k hk)
  refine ⟨commonDen_pos f m, fun k hk => ?_, fun k k' hk hm => ?_⟩
  · have hcast : ((commonNums f m).getD k 0 + (commonNums f m).getD (m - k) 0 : ℚ) = commonDen f m := by
      rw [hget k hk, hget (m - k) (Nat.sub_le m k), ← add_mul, h.symmetric k hk, one_mul]
    exact_mod_cast hcast
  · have hcast : ((commonNums f m).getD k 0 : ℚ) ≤ (commonNums f m).getD k' 0 := by
      rw [hget k (hk.trans hm), hget k' hm]
      exact mul_le_mul_of_nonneg_right (h.monotone k k' hk hm) (Nat.cast_nonneg _)
    exact_mod_cast hcast

/-- The configuration that lists a trend's weights at every `M` up to a bound (log 18). -/
def trendTable (f : Nat → Nat → ℚ) (bound : Nat) : Config.Trend :=
  (List.range (bound + 1)).map fun m => (m, commonNums (fun k => f k m) m)

/-- Up to the bound HOST's trend is the one that the table was made of (R238). -/
theorem trendWeight_trendTable {f : Nat → Nat → ℚ} {bound k m : Nat} (h : IsTrendAt (fun k => f k m) m) (hk : k ≤ m)
    (hm : m ≤ bound) : trendWeight (trendTable f bound) k m = f k m := by
  have hlookup : (trendTable f bound).lookup m = some (commonNums (fun k => f k m) m) :=
    List.lookup_graph (fun m => commonNums (fun k => f k m) m) (List.mem_range.mpr (Nat.lt_succ_of_le hm))
  have htrend : trendOf (trendTable f bound) k m =
      ((commonNums (fun k => f k m) m).getD k 0, commonDen (fun k => f k m) m) := by
    rw [← commonNums_total h]
    simp only [trendOf, hlookup, Option.getD_some, commonNums_admissible h, if_true]
  have hden : (commonDen (fun k => f k m) m : ℚ) ≠ 0 := Nat.cast_ne_zero.mpr (commonDen_pos _ _).ne'
  rw [trendWeight, htrend, commonNums_getD hk (h.nonneg k hk), mul_div_cancel_right₀ _ hden]

/-- A configured trend lies in [0, 1], does not decrease and is symmetric (R238). -/
theorem trendWeight_properties (t : Config.Trend) {k k' m : Nat} (hm : 0 < m) (hk : k ≤ k') (hk' : k' ≤ m) :
    0 ≤ trendWeight t k m ∧ trendWeight t k m ≤ 1 ∧ trendWeight t k m ≤ trendWeight t k' m ∧
      trendWeight t k m + trendWeight t (m - k) m = 1 := by
  obtain ⟨num, total, hrow, htrend⟩ := trendOf_isTrendRow t hm
  have htotal : (0 : ℚ) < total := Nat.cast_pos.mpr hrow.total_pos
  have hweight (j : Nat) : trendWeight t j m = num j / total := by rw [trendWeight, htrend]
  have hsymm : (num k + num (m - k) : ℚ) = total := by exact_mod_cast hrow.symmetric k (hk.trans hk')
  simp only [hweight]
  refine ⟨by positivity, ?_, ?_, ?_⟩
  · exact (div_le_one htotal).mpr (Nat.cast_le.mpr (hrow.le_total (hk.trans hk')))
  · exact div_le_div_of_nonneg_right (Nat.cast_le.mpr (hrow.monotone k k' hk hk')) htotal.le
  · rw [← add_div, hsymm, div_self htotal.ne']

/-- The default trend is smoothstep, `3 x² - 2 x³` at `x = k / M` (R8, R238). -/
theorem trendWeight_default {k m : Nat} (hm : 0 < m) (hk : k ≤ m) :
    trendWeight Config.trendDefault k m = 3 * ((k : ℚ) / m) ^ 2 - 2 * ((k : ℚ) / m) ^ 3 := by
  have hm0 : (m : ℚ) ≠ 0 := Nat.cast_ne_zero.mpr hm.ne'
  rw [trendWeight, trendOf_default, smoothstep]
  push_cast [Nat.cast_sub (show 2 * k ≤ 3 * m by omega)]
  field_simp

/-- Settles O58. -/
theorem configuredTrendsAreTheTrendsOfTheSpec : Obligations.ConfiguredTrendsAreTheTrendsOfTheSpec := by
  refine ⟨fun t k k' m => trendWeight_properties t, fun k m => trendWeight_default, fun f bound hsymm hmono => ?_⟩
  have hf (m : Nat) : IsTrendAt (fun k => f k m) m :=
    ⟨fun k hk => (hsymm k m hk).1, fun k hk => (hsymm k m hk).2, fun k k' => hmono k k' m⟩
  exact ⟨trendTable f bound, fun k m => trendWeight_trendTable (hf m)⟩

/-! ## The samples of a fill -/

/-- The trend's value lies between the endpoints where the weight is at most 1 (R237, R238). -/
theorem trendValue_between {w : Nat × Nat} (hw : w.1 ≤ w.2) (hpos : 0 < w.2) (a b : Int) :
    min a b ≤ trendValue w a b ∧ trendValue w a b ≤ max a b := by
  have hden : (0 : Int) < 2 * w.2 := by omega
  have hnum : (w.1 : Int) ≤ w.2 := by exact_mod_cast hw
  unfold trendValue
  obtain hab | hba := le_total a b
  · have hlow : 0 ≤ (2 * ((b - a) * w.1) + w.2) / (2 * (w.2 : Int)) :=
      Int.le_ediv_of_mul_le hden (by nlinarith)
    have hhigh : (2 * ((b - a) * w.1) + w.2) / (2 * (w.2 : Int)) < b - a + 1 :=
      Int.ediv_lt_of_lt_mul hden (by nlinarith)
    omega
  · have hlow : b - a ≤ (2 * ((b - a) * w.1) + w.2) / (2 * (w.2 : Int)) :=
      Int.le_ediv_of_mul_le hden (by nlinarith)
    have hhigh : (2 * ((b - a) * w.1) + w.2) / (2 * (w.2 : Int)) < 1 :=
      Int.ediv_lt_of_lt_mul hden (by nlinarith)
    omega

theorem fillWith_getD {trend : TrendFn} {amp : Sample → Sample → Nat} {free : Nat → Nat} {c n i : Nat} {a b : Sample}
    (hi : i < n) : (fillWith trend amp free c a b n).getD i 0 =
      fillSample trend (amp a b) (free (c + i)) a b (n + 1) (i + 1) := by
  simp [fillWith, hi]

section
variable {trend : TrendFn} {m k : Nat}

/-- Without noise a fill sample is the trend's value, which needs no saturation (R237). -/
theorem fillSample_noiseless (hw : (trend k m).1 ≤ (trend k m).2) (hpos : 0 < (trend k m).2) (free : Nat)
    (a b : Sample) : (fillSample trend 0 free a b m k).toInt = trendValue (trend k m) a.toInt b.toInt := by
  have hbetween := trendValue_between hw hpos a.toInt b.toInt
  have henv : envelope 0 k m = 0 := by simp [envelope]
  have hdraw := drawWithin_bounds free 0
  have ha := BitVec.le_toInt a
  have ha' := BitVec.toInt_lt (x := a)
  have hb := BitVec.le_toInt b
  have hb' := BitVec.toInt_lt (x := b)
  rw [fillSample, clamp16_toInt, henv]
  omega

/-- Noise moves a fill sample by at most the envelope: saturation moves it back only (R237, R239). -/
theorem fillSample_within (hw : (trend k m).1 ≤ (trend k m).2) (hpos : 0 < (trend k m).2) (amp free free' : Nat)
    (a b : Sample) :
    |(fillSample trend amp free a b m k).toInt - (fillSample trend 0 free' a b m k).toInt| ≤ envelope amp k m := by
  have hdraw := drawWithin_bounds free (envelope amp k m)
  have hquiet := fillSample_noiseless hw hpos free' a b
  have hlow := BitVec.le_toInt (fillSample trend 0 free' a b m k)
  have hhigh := BitVec.toInt_lt (x := fillSample trend 0 free' a b m k)
  rw [hquiet] at hlow hhigh ⊢
  rw [fillSample, clamp16_toInt, abs_le]
  omega

end

/-- Settles O50: each sample of the fill is a `fillSample` at a weight in [0, 1]. -/
theorem fillStaysWithinEnvelope : Obligations.FillStaysWithinEnvelope := by
  refine ⟨fun t k m hk hm => ?_, fun trend amp free c n a b hweights => ⟨fillWith_length .., fun i hi => ?_⟩⟩
  · obtain ⟨num, total, hrow, htrend⟩ := trendOf_isTrendRow t hm
    rw [htrend]
    exact ⟨hrow.le_total hk, hrow.total_pos⟩
  · obtain ⟨hw, hpos⟩ := hweights (i + 1) hi
    obtain ⟨hlow, hhigh⟩ := trendValue_between hw hpos a.toInt b.toInt
    have hwithin := fillSample_within hw hpos (amp a b) (free (c + i)) (free (c + i)) a b
    have henvelope : (envelope (amp a b) (i + 1) (n + 1) : Int) =
        amp a b * 4 * (i + 1) * (n - i) / (n + 1) ^ 2 := by
      rw [envelope, Nat.add_sub_add_right]
      push_cast [Nat.cast_sub hi.le]
      rfl
    simp only [fillWith_getD hi]
    rw [← henvelope]
    rw [← fillSample_noiseless hw hpos (free (c + i)) a b] at hlow hhigh
    exact ⟨hlow, hhigh, hwithin⟩

end Sys2Proof.Machine
end

section
/-! PROOFS. The system operations that are no reset: `NOP` (R265), the status reads (R263, R264) and `DEV_INIT`
(R262). -/

namespace Sys2Proof.Machine

/-! ## `NOP` -/

/-- Both instances accept `NOP`, and neither looks at its state for it (R265). -/
theorem exec_nop (inst : Inst) (s : State) : exec (.nop inst) s = .next { s with result := .nothing } := by
  cases inst with
  | dev => rfl
  | host => rfl

/-- Settles O4: code 0 is the first row of the decoder, for both instances. -/
theorem nopChangesNothing : Obligations.NopChangesNothing :=
  fun inst _ _ s => ⟨rfl, exec_nop inst s⟩

/-! ## The status reads -/

/-- `RD_DSTATUS` runs on DEV whether it is halted or not (R263). -/
theorem exec_rdDstatus_dev (s : State) :
    exec (.rdDstatus .dev) s = .next { s with result := .word (0#16 ++ s.dev.dstatus : BitVec 32) } := by
  rw [exec_rdDstatus, devOpAlways_dev, ← zeroExtend_eq_append]
  exact runDev_ok rfl

/-- `RD_HSTATUS` runs on HOST (R264). -/
theorem exec_rdHstatus_host (s : State) :
    exec (.rdHstatus .host) s = .next { s with result := .word (0#16 ++ s.host.hstatus : BitVec 32) } := by
  rw [exec_rdHstatus, hostOp_host, ← zeroExtend_eq_append]
  exact runHost_ok rfl

/-- Settles O5: each read runs on its own instance, which it leaves as it is. -/
theorem statusReadsReturnStatusWords : Obligations.StatusReadsReturnStatusWords :=
  fun _ _ s => ⟨rfl, exec_rdDstatus_dev s, rfl, exec_rdHstatus_host s⟩

/-! ## `DEV_INIT` -/

/-- A good audio initialisation leaves DEV as it is, whatever the sensor's outcome (R262). -/
theorem devInit_audioOk (thermalOk : Bool) (d : Dev) : devInit true thermalOk d = d := rfl

/-- A failed audio initialisation raises `AudioInitFatal`, which halts DEV (R262, R280). -/
theorem devInit_audioFailed (thermalOk : Bool) (d : Dev) :
    devInit false thermalOk d = { d with halted := true, dstatus := d.dstatus ||| 0x10 } :=
  raiseDev_audioInitFatal d

/-- `DEV_INIT` on a DEV that runs (R262). -/
theorem exec_devInit_ready {s : State} (h : s.dev.halted = false) (audioOk thermalOk : Bool) :
    exec (.devInit .dev audioOk thermalOk) s =
      .next { s with dev := devInit audioOk thermalOk s.dev, result := .nothing } := by
  rw [exec_devInit, devOp_ready h]
  exact runDev_ok rfl

/-- Settles O7: a DEV that runs takes the outcome of the audio initialisation, a halted one refuses. -/
theorem devInitHaltsOnAudioFailure : Obligations.DevInitHaltsOnAudioFailure := by
  refine fun thermalOk s => ⟨fun hready => ⟨?_, ?_⟩, fun hhalted _ => devOp_halted hhalted _⟩
  · rw [exec_devInit_ready hready, devInit_audioFailed]
  · rw [exec_devInit_ready hready, devInit_audioOk]

end Sys2Proof.Machine
end

section
/-! PROOFS. Progress (R295, R52, R58): a fault of the model is an index outside its table or buffer (R52), which the
invariant of reachable states (R43) rules out in each operation that has such an index; every other operation answers a
next state whatever the block holds. A pseudo-operation keeps the invariant between its operations. -/

namespace Sys2Proof.Machine

/-- The answer is a next state: neither a fault nor a refusal. -/
def Completes (o : Answer) : Prop := ∃ t, o = .next t

/-- The operation on an instance uses no index outside its table or buffer (R52). -/
def NoFault {α : Type} (x : Except Fault α) : Prop := ∃ a, x = .ok a

theorem NoFault.ok {α : Type} (a : α) : NoFault (.ok a) := ⟨a, rfl⟩

theorem NoFault.map {α β : Type} {x : Except Fault α} (h : NoFault x) (k : α → β) : NoFault (x.map k) := by
  obtain ⟨a, rfl⟩ := h
  exact .ok (k a)

/-! ## The operations with an index, on an instance that meets the invariant -/

section
variable {d : Dev} {g : Hst}

theorem encSample_noFault (hd : DevInv d) (pcm : Sample) : NoFault (encSample pcm d) :=
  ⟨_, encSample_ok hd.encIndex pcm⟩

theorem audPush_noFault (hd : DevInv d) (pcm : Sample) : NoFault (audPush pcm d) :=
  ⟨_, audPush_eq hd.encIndex hd.packetCount pcm⟩

theorem thmPush_noFault (hd : DevInv d) (b : F32) : NoFault (thmPush b d) :=
  ⟨_, thmPush_eq hd.thermalCount b⟩

theorem decNibble_noFault (hg : HostInv g) (code : Nibble) : NoFault (decNibble code g) :=
  ⟨_, decNibble_ok hg.decIndex code⟩

/-- Where `TX_STEP` is enabled there is a byte to send: a frame in flight has one left, and no queued frame is empty
(R184). -/
theorem txStep_noFault (hd : DevInv d) : NoFault (txStep d) := by
  by_cases hoff : d.halted = true ∨ (d.tx.busy = false ∧ ∀ src, txqOf d.txq src = [])
  · exact ⟨d, txStep_disabled hoff⟩
  simp only [not_or, not_and, not_forall, Bool.not_eq_true] at hoff
  obtain ⟨hready, hqueued⟩ := hoff
  cases hb : d.tx.busy with
  | true => exact ⟨_, (txStep_busy hready hb).trans (writeByte_eq (hd.inFlight hb).2)⟩
  | false =>
    obtain ⟨src, hs, hstart⟩ := txStep_start hready hb (hqueued hb)
    obtain ⟨f, rest, hf⟩ := List.exists_cons_of_ne_nil hs
    have hpos : 0 < f.length := frameOf_pos (hd.queueFrames src f (hf ▸ List.mem_cons_self))
    exact ⟨_, hstart.trans (writeByte_eq (by simpa [hf] using hpos))⟩

end

/-! ## The shared operations -/

section
variable {inst : Inst} {s : State} {f : Dev → Except Fault (Dev × Result)} {g : Hst → Except Fault (Hst × Result)}

theorem refuseAt_completes (inst : Inst) (s : State) : Completes (refuseAt inst s) :=
  ⟨_, refuseAt_eq inst s⟩

theorem runDev_completes (h : NoFault (f s.dev)) : Completes (runDev f s) := by
  obtain ⟨⟨d, r⟩, hf⟩ := h
  exact ⟨_, runDev_ok hf⟩

theorem runHost_completes (h : NoFault (g s.host)) : Completes (runHost g s) := by
  obtain ⟨⟨k, r⟩, hg⟩ := h
  exact ⟨_, runHost_ok hg⟩

/-- HOST and a halted DEV refuse, and a DEV that runs performs the operation (R97, R262). -/
theorem devOp_completes (h : NoFault (f s.dev)) : Completes (devOp inst s f) := by
  cases inst with
  | host => exact ⟨_, devOp_host s f⟩
  | dev =>
    cases hh : s.dev.halted with
    | true => exact ⟨_, devOp_halted hh f⟩
    | false => exact devOp_ready hh f ▸ runDev_completes h

theorem devOpAlways_completes (h : NoFault (f s.dev)) : Completes (devOpAlways inst s f) := by
  cases inst with
  | host => exact ⟨_, devOpAlways_host s f⟩
  | dev => exact runDev_completes h

theorem hostOp_completes (h : NoFault (g s.host)) : Completes (hostOp inst s g) := by
  cases inst with
  | dev => exact ⟨_, hostOp_dev s g⟩
  | host => exact runHost_completes h

theorem wireArrives_completes (bytes : List Byte) (s : State) : Completes (wireArrives bytes s) :=
  ⟨_, wireArrives_eq bytes s⟩

/-- A sequence completes where each of its operations completes and keeps what the next one needs (R98). -/
theorem runSequence_completes {α : Type} {op : α → State → Answer} {P : State → Prop}
    (hop : ∀ x u, P u → Completes (op x u)) (hkeeps : ∀ x u v, P u → op x u = .next v → P v) :
    ∀ (xs : List α) {s : State}, P s → Completes (runSequence op xs s)
  | [], s, _ => ⟨s, rfl⟩
  | x :: xs, s, hs => by
    obtain ⟨u, hu⟩ := hop x s hs
    simp only [runSequence, hu]
    exact runSequence_completes hop hkeeps xs (hkeeps x s u hs hu)

end

/-! ## The instructions -/

theorem execAudPush_completes (inst : Inst) (pcm : Sample) {s : State} (hs : BlockInv s) :
    Completes (execAudPush inst pcm s) :=
  devOp_completes ((audPush_noFault hs.dev pcm).map _)

theorem execThmPush_completes (inst : Inst) (b : F32) {s : State} (hs : BlockInv s) :
    Completes (execThmPush inst b s) :=
  devOp_completes ((thmPush_noFault hs.dev b).map _)

theorem execDecNibble_completes (inst : Inst) (code : Nibble) {s : State} (hs : BlockInv s) :
    Completes (execDecNibble inst code s) :=
  hostOp_completes ((decNibble_noFault hs.host code).map _)

theorem execTxStep_completes {s : State} (hs : BlockInv s) : Completes (execTxStep s) := by
  obtain ⟨d, hd⟩ := txStep_noFault hs.dev
  exact ⟨_, exec_txStep_ok hd⟩

/-- Any number of samples: each `AUD_PUSH` leaves the invariant to the next (R98). -/
theorem execAudPacket_completes (samples : List Sample) {s : State} (hs : BlockInv s) :
    Completes (execAudPacket samples s) :=
  runSequence_completes (P := BlockInv) (fun x _ hu => execAudPush_completes .dev x hu)
    (fun x _ _ hu h => exec_inv (i := .audPush .dev x) hu h) samples hs

/-- Any number of pixels: each `THM_PUSH` leaves the invariant to the next (R98). -/
theorem execThmFrame_completes (temps : List F32) {s : State} (hs : BlockInv s) :
    Completes (execThmFrame temps s) :=
  runSequence_completes (P := BlockInv) (fun b _ hu => execThmPush_completes .dev b hu)
    (fun b _ _ hu h => exec_inv (i := .thmPush .dev b) hu h) temps hs

/-- From the invariant every instruction completes, whatever its operands: by the shared operation that its arm of
`exec` runs. -/
theorem exec_completes : ∀ (i : Instr) {s : State}, BlockInv s → Completes (exec i s)
  | .nop inst, s, _ => ⟨_, exec_nop inst s⟩
  | .hwReset _, s, _ => ⟨_, exec_reset (.inl rfl) s⟩
  | .encSample _ pcm, _, hs => devOp_completes ((encSample_noFault hs.dev pcm).map _)
  | .audPush inst pcm, _, hs => execAudPush_completes inst pcm hs
  | .thmPush inst temp, _, hs => execThmPush_completes inst temp hs
  | .encRdstate _, _, _ | .qEnc .., _, _ | .btnPoll .., _, _ | .dbgText .., _, _ | .devInit .., _, _ =>
    devOp_completes (.ok _)
  | .rdDstatus _, _, _ => devOpAlways_completes (.ok _)
  | .decNibble inst code, _, hs => execDecNibble_completes inst code hs
  | .decLoad .., _, _ | .decPacket .., _, _ | .qDec .., _, _ | .thmDecode .., _, _ | .dmxFeed .., _, _
  | .recPacket .., _, _ | .sessionReset _, _, _ | .rdHstatus _, _, _ => hostOp_completes (.ok _)
  | .reserved0A inst, s, _ | .reserved0B inst, s, _ | .reserved0C inst, s, _ | .reserved0D inst, s, _
  | .reserved0E inst, s, _ | .reserved0F inst, s, _ | .reserved19 inst, s, _ | .reserved1A inst, s, _
  | .reserved1B inst, s, _ | .reserved1C inst, s, _ | .reserved1D inst, s, _ | .reserved1E inst, s, _
  | .reserved1F inst, s, _ => refuseAt_completes inst s
  | .txStep, _, hs => execTxStep_completes hs
  | .audPacket samples, _, hs => execAudPacket_completes samples hs
  | .thmFrame temps, _, hs => execThmFrame_completes temps hs
  | .thmZero, _, hs => execThmFrame_completes (List.replicate Config.thermalPixels 0) hs
  | .frameThermal _, s, _ | .frameAudio .., s, _ | .frameBtn _, s, _ | .frameDebug _, s, _
  | .frameLegacyAA55 .., s, _ | .frameLegacyCsv _, s, _ => wireArrives_completes _ s
  | .adpcmCode code, _, hs => execDecNibble_completes .host code hs

/-- Settles O34: a step runs one instruction, whether a request is presented or none, and bytes that decode to no
instruction run as `DMX_FEED`. -/
theorem everyStepCompletes : Obligations.EveryStepCompletes := by
  intro s hs
  cases hp : s.pending with
  | nil =>
    rw [step_idle hp]
    exact exec_completes .txStep hs
  | cons r rest =>
    rw [step_request hp]
    exact exec_completes (requestedInstr r) (hs.withPending _)

end Sys2Proof.Machine
end

section
/-! PROOFS. The configuration that HOST holds (R39, R315; log 18): no move of HOST writes it, and a reset keeps it. -/

namespace Sys2Proof.Machine

theorem hostConfig_eq_iff {g g' : Hst} :
    hostConfig g' = hostConfig g ↔ g'.gapThreshold = g.gapThreshold ∧ g'.trend = g.trend :=
  Prod.mk_inj

theorem raiseHost_config (e : HostFault) (g : Hst) : hostConfig (raiseHost e g) = hostConfig g := rfl

theorem decLoad_config (p : Sample) (i : Byte) (g : Hst) : hostConfig (decLoad p i g) = hostConfig g := by
  by_cases hi : i.toNat ≤ 88
  · rw [decLoad_good hi]
    rfl
  · rw [decLoad_bad (Nat.lt_of_not_le hi), raiseHost_config]

theorem decPacket_config (f : List Byte) (g : Hst) : hostConfig (decPacket f g).1 = hostConfig g := by
  obtain ⟨e, he⟩ | ⟨-, he⟩ := decPacket_cases f g
  · rw [he, raiseHost_config]
  · rw [he]
    rfl

theorem thmDecode_config (f : List Byte) (g : Hst) : hostConfig (thmDecode f g).1 = hostConfig g := by
  obtain ⟨e, he⟩ | he := thmDecode_cases f g
  · rw [he, raiseHost_config]
  · rw [he]

theorem HostMove.config {g g' : Hst} (h : HostMove g g') : hostConfig g' = hostConfig g := by
  cases h with
  | stays => rfl
  | raises e => exact raiseHost_config e g
  | loads p i => exact decLoad_config p i g
  | decodes he =>
    rw [decNibble_next he]
    rfl
  | decodesPacket f => exact decPacket_config f g
  | decodesThermal f => exact thmDecode_config f g
  | feeds chunk => exact dmxFeed_config chunk g
  | reconstructs f => exact recPacket_config f g

theorem Move.config {s t : State} (h : Move s t) : hostConfig t.host = hostConfig s.host := by
  cases h with
  | dev => rfl
  | host hg => exact hg.config

theorem Moves.config {s t : State} (h : Moves s t) : hostConfig t.host = hostConfig s.host := by
  induction h with
  | refl => rfl
  | tail _ hm ih => exact hm.config.trans ih

/-- A reset, of HOST too, keeps what HOST is configured with (R39, R315). -/
theorem resetState_config (inst : Inst) (s : State) : hostConfig (resetState inst s).host = hostConfig s.host := by
  cases inst <;> rfl

theorem exec_config {i : Instr} {s t : State} (h : exec i s = .next t) : hostConfig t.host = hostConfig s.host := by
  by_cases hr : ∃ inst, ResetOf inst i
  · obtain ⟨inst, hr⟩ := hr
    cases Host.Outcome.next.inj ((exec_reset hr s).symm.trans h)
    exact resetState_config inst s
  · exact (exec_moves (not_exists.mp hr) h).config

/-- Settles O57: a step runs one instruction, whether a request is presented or none, and taking a request off leaves
HOST alone. -/
theorem configurationNeverChanges : Obligations.ConfigurationNeverChanges := by
  intro s t h
  apply hostConfig_eq_iff.mp
  cases hp : s.pending with
  | nil =>
    rw [step_idle hp] at h
    exact exec_config h
  | cons r rest =>
    rw [step_request hp] at h
    exact exec_config (s := { s with pending := leftover r ++ rest }) h

end Sys2Proof.Machine
end
